-- ==== Sys2Proof/Word.lean ====
section
/-! DEFINITION. The word types of sine_lut_interp r1: 00_scope.md R3, R4; 10_state.md R19, R20. -/

namespace Sys2Proof

/-- A 32-bit lane word: a binary32 bit pattern (00_scope.md R3, R5). -/
abbrev Word := BitVec 32

/-- An 8-bit command word (30_encoding.md R50). -/
abbrev Byte := BitVec 8

/-- The 128-bit operand bus `req_x` or result bus `rsp_y` (10_state.md R19, R20). -/
abbrev Bus := BitVec 128

end Sys2Proof
end

