-- ==== Sys2Proof/Config.lean ====
section
/-! DEFINITION. The implementation parameters `LANES`, `DEPTH` and `LATENCY` of 00_scope.md R3.

The source fixes none of them but the allowed lane widths. They stand in State (`State.cfg`), so that a
statement about every state is a statement about every implementation (log 4). -/

namespace Sys2Proof

/-- A lane count, 1, 2 or 4: a legal value of the parameter `LANES`, and the W of a radian or turns
command (00_scope.md R3; 30_encoding.md R52). The code 0b11 is no lane count (10_state.md R15). -/
inductive LaneCount
  | one
  | two
  | four
deriving DecidableEq, Repr

/-- The implementation parameters (00_scope.md R3). No step changes them. -/
structure Config where
  /-- `LANES`: lanes the implementation evaluates per command. -/
  lanes : LaneCount
  /-- `DEPTH`: the most commands accepted and not yet delivered. -/
  depth : Nat
  /-- `LATENCY`: "no rule depends on it" (70_reset_and_hazards.md R142); nothing reads it (log 5). -/
  latency : Nat
deriving DecidableEq, Repr

/-- The values `State.reset` takes: the defaults of 00_scope.md R3 for `LANES` and `DEPTH`.
DESIGN CHOICE: `LATENCY` 1, for which the spec gives no default (log 4). -/
def Config.standard : Config := { lanes := .four, depth := 4, latency := 1 }

end Sys2Proof
end

