-- ==== Sys2Proof/Syntax.lean ====
section
/-! DEFINITION. Syntax: the commands (one constructor per row of spec/opcode_table.json), the four lanes of
a bus, the request a host offers, and the assembler lines of 30_encoding.md R62 and R63. -/

namespace Sys2Proof

/-- A legal command with the operand lanes it reads (30_encoding.md R55, R57).
DESIGN CHOICE: a command of lane count W holds lanes 0 .. W-1 and no other lane, since the others
"are ignored, whatever they hold" (R57; log 11). -/
inductive Instr
  /-- SIN.W1, 0x00: one-lane radian sine (40_sine.md R81). -/
  | sinW1 (x0 : Word)
  /-- SIN.W2, 0x04: two-lane radian sine (R82). -/
  | sinW2 (x0 x1 : Word)
  /-- SIN.W4, 0x08: four-lane radian sine (R83). -/
  | sinW4 (x0 x1 x2 x3 : Word)
  /-- SINT.W1, 0x01: one-lane turns sine (R84). -/
  | sintW1 (x0 : Word)
  /-- SINT.W2, 0x05: two-lane turns sine (R85). -/
  | sintW2 (x0 x1 : Word)
  /-- SINT.W4, 0x09: four-lane turns sine (R86). -/
  | sintW4 (x0 x1 x2 x3 : Word)
  /-- RDSTAT, 0x02: read STATUS (41_status.md R100). -/
  | rdstat
  /-- RDCLRSTAT, 0x12: read STATUS, then clear NF and ILL (41_status.md R101). -/
  | rdclrstat
deriving DecidableEq, Repr

/-- What the command word alone says: the operation and, of a radian or turns command, the lane count
(30_encoding.md R51 to R53). -/
inductive Kind
  | sin (W : LaneCount)
  | sint (W : LaneCount)
  | rdstat
  | rdclrstat
deriving DecidableEq, Repr

/-- Four 32-bit lanes: the operands `X[0..3]` of a request or the results `Y[0..3]` of a response
(10_state.md R11). -/
structure Lanes where
  l0 : Word
  l1 : Word
  l2 : Word
  l3 : Word
deriving DecidableEq, Repr

/-- What the host offers on the request channel: `req_cmd` and `req_x` (10_state.md R19). Any
command word can be offered, legal or not. -/
structure Request where
  /-- `req_cmd`, the 8-bit command word (30_encoding.md R50). -/
  cmd : Byte
  /-- `req_x`, the 128-bit operand bus (30_encoding.md R57). -/
  x : Bus
deriving DecidableEq, Repr

/-- An operand as the assembler reads it (30_encoding.md R62): a bit pattern, or a decimal literal
of value (-1)^negative * num / den. -/
inductive AsmOperand
  | pattern (w : Word)
  | decimal (negative : Bool) (num den : Nat)
deriving DecidableEq, Repr

/-- One assembler line, parsed (30_encoding.md R62, and the pseudo-instructions of R63). -/
inductive AsmLine
  | sinW1 (x0 : AsmOperand)
  | sinW2 (x0 x1 : AsmOperand)
  | sinW4 (x0 x1 x2 x3 : AsmOperand)
  | sintW1 (t0 : AsmOperand)
  | sintW2 (t0 t1 : AsmOperand)
  | sintW4 (t0 t1 t2 t3 : AsmOperand)
  | rdstat
  | rdclrstat
  /-- `.cmd 0xNN [, x0, x1, x2, x3]`: any command word, including illegal ones. -/
  | cmd (c : Byte) (operands : List AsmOperand)
  /-- `sin x` is `sin.w1 x` (R63). -/
  | sin (x : AsmOperand)
  /-- `sint t` is `sint.w1 t` (R63). -/
  | sint (t : AsmOperand)
  /-- `nop` is `rdstat` with the response discarded by the host (R63). -/
  | nop
deriving DecidableEq, Repr

end Sys2Proof
end

