-- ==== Sys2Proof/WellFormed.lean ====
section
/-! DEFINITION. Well-formedness: legal parameters, a command an implementation is wide enough for, a
request in the assembler's form, and an assembler line R62 allows. -/

namespace Sys2Proof

/-- The legal values of the parameters (00_scope.md R3): `DEPTH` and `LATENCY` are integers >= 1
(`LANES` is legal by its type). -/
def Config.wf (c : Config) : Bool := decide (1 ≤ c.depth) && decide (1 ≤ c.latency)

/-- The implementation has the lanes the command asks for: "With `LANES = 4` no legal word is
affected; with `LANES = 2`, 0x08 and 0x09 are illegal; with `LANES = 1`, 0x04, 0x05, 0x08 and 0x09
are illegal" (30_encoding.md R59). -/
def Instr.fits (lanes : LaneCount) (i : Instr) : Bool :=
  match i with
  | .sinW1 _ => true
  | .sinW2 _ _ => lanes != .one
  | .sinW4 _ _ _ _ => lanes == .four
  | .sintW1 _ => true
  | .sintW2 _ _ => lanes != .one
  | .sintW4 _ _ _ _ => lanes == .four
  | .rdstat => true
  | .rdclrstat => true

/-- A request in the form the assembler emits (30_encoding.md R62): "A command with fewer operands
than the bus has lanes puts 0x00000000 on the unused lanes"; `used` is the number of lanes used. -/
def Request.zeroFrom (used : Nat) (r : Request) : Bool := decide (r.x >>> (32 * used) = 0)

/-- A decimal literal with a denominator and inside the binary32 range, so that `RNE` is defined on
it (00_scope.md R6): num / den <= (2^24 - 1) * 2^104. -/
def AsmOperand.wf (o : AsmOperand) : Bool :=
  match o with
  | .pattern _ => true
  | .decimal _ num den => decide (1 ≤ den) && decide (num ≤ (2 ^ 24 - 1) * 2 ^ 104 * den)

/-- The operands of a line are legal, and a `.cmd` has at most the four of 30_encoding.md R62. -/
def AsmLine.wf (l : AsmLine) : Bool :=
  match l with
  | .sinW1 a => a.wf
  | .sinW2 a b => a.wf && b.wf
  | .sinW4 a b c d => a.wf && b.wf && c.wf && d.wf
  | .sintW1 a => a.wf
  | .sintW2 a b => a.wf && b.wf
  | .sintW4 a b c d => a.wf && b.wf && c.wf && d.wf
  | .rdstat => true
  | .rdclrstat => true
  | .cmd _ xs => xs.all AsmOperand.wf && decide (xs.length ≤ 4)
  | .sin a => a.wf
  | .sint a => a.wf
  | .nop => true

end Sys2Proof
end

