-- ==== Sys2Proof/Decode.lean ====
section
/-! DEFINITION. Decoding a request and encoding a command (30_encoding.md R50 to R57).

The decoder is total on all 256 command words and on every operand bus, and names why it rejects one.
A rejected word is no error of the machine: it is executed as an illegal command (R56). -/

namespace Sys2Proof

/-! ## Lane counts -/

/-- The number a lane count stands for (00_scope.md R3). -/
def LaneCount.count : LaneCount → Nat
  | .one => 1
  | .two => 2
  | .four => 4

/-- The 2-bit code of a lane count: the `WC` field (30_encoding.md R52) and `STATUS.LANES`
(10_state.md R15) use the same one. -/
def LaneCount.code : LaneCount → BitVec 2
  | .one => 0b00#2
  | .two => 0b01#2
  | .four => 0b10#2

/-- The lane count a 2-bit code selects; 0b11 is reserved (30_encoding.md R52). -/
def LaneCount.ofCode (wc : BitVec 2) : Option LaneCount :=
  if wc = 0b00#2 then some .one
  else if wc = 0b01#2 then some .two
  else if wc = 0b10#2 then some .four
  else none

/-! ## Lanes of a bus -/

/-- Lane k of a 128-bit bus: bits [32k+31:32k] (30_encoding.md R57, R58; 20_memory.md R35). -/
def laneOfBus (x : Bus) (k : Nat) : Word := x.extractLsb' (32 * k) 32

/-- The four lanes of a bus, lane 0 the least significant word. -/
def Lanes.ofBus (x : Bus) : Lanes :=
  { l0 := laneOfBus x 0, l1 := laneOfBus x 1, l2 := laneOfBus x 2, l3 := laneOfBus x 3 }

/-- The bus image of four lanes. -/
def Lanes.toBus (v : Lanes) : Bus := v.l3 ++ v.l2 ++ v.l1 ++ v.l0

/-- Lane k of four lanes. -/
def Lanes.get (v : Lanes) : Fin 4 → Word
  | 0 => v.l0
  | 1 => v.l1
  | 2 => v.l2
  | 3 => v.l3

/-! ## Fields of the command word -/

/-- `OP`, bits 1:0 (30_encoding.md R50, R51). -/
def fieldOp (c : Byte) : BitVec 2 := c.extractLsb' 0 2

/-- `WC`, bits 3:2 (R50, R52). -/
def fieldWc (c : Byte) : BitVec 2 := c.extractLsb' 2 2

/-- `CLR`, bit 4 (R50, R53). -/
def fieldClr (c : Byte) : Bool := c.getLsbD 4

/-- `RSV`, bits 7:5 (R50, R54). -/
def fieldRsv (c : Byte) : BitVec 3 := c.extractLsb' 5 3

/-- A command word from its fields, `RSV` 0 (R50). -/
def commandWord (op wc : BitVec 2) (clr : Bool) : Byte :=
  0b000#3 ++ BitVec.ofBool clr ++ wc ++ op

/-! ## Decoding -/

/-- Why a command word is illegal: one name for each clause of 30_encoding.md R56. -/
inductive DecodeError
  /-- `RSV` is not 0 (R54). -/
  | reservedBits
  /-- `OP` is 0b11 (R51). -/
  | reservedOp
  /-- `CLR` is 1 in a radian or turns command (R53). -/
  | clearOnSine
  /-- `WC` is 0b11 in a radian or turns command (R52). -/
  | reservedWidth
  /-- `WC` is not 0b00 in a status command (R52). -/
  | widthOnStatus
deriving DecidableEq, Repr

/-- A radian or turns word: `CLR` must be 0 and `WC` a lane count (R52, R53). -/
def kindOfSine (mk : LaneCount → Kind) (c : Byte) : Except DecodeError Kind :=
  if fieldClr c then .error .clearOnSine
  else match LaneCount.ofCode (fieldWc c) with
    | some W => .ok (mk W)
    | none => .error .reservedWidth

/-- A status word: `WC` must be 0b00, and `CLR` selects RDSTAT or RDCLRSTAT (R52, R53). -/
def kindOfStatus (c : Byte) : Except DecodeError Kind :=
  if fieldWc c = 0b00#2 then
    if fieldClr c then .ok .rdclrstat else .ok .rdstat
  else .error .widthOnStatus

/-- The command word decoded, "a full match of all 8 bits" (R50 to R56). -/
def kindOf (c : Byte) : Except DecodeError Kind :=
  if fieldRsv c = 0b000#3 then
    if fieldOp c = 0b00#2 then kindOfSine .sin c
    else if fieldOp c = 0b01#2 then kindOfSine .sint c
    else if fieldOp c = 0b10#2 then kindOfStatus c
    else .error .reservedOp
  else .error .reservedBits

/-- The command of a kind on the lanes of the operand bus: lanes 0 .. W-1 only (R57). -/
def Kind.onLanes (k : Kind) (v : Lanes) : Instr :=
  match k with
  | .sin .one => .sinW1 v.l0
  | .sin .two => .sinW2 v.l0 v.l1
  | .sin .four => .sinW4 v.l0 v.l1 v.l2 v.l3
  | .sint .one => .sintW1 v.l0
  | .sint .two => .sintW2 v.l0 v.l1
  | .sint .four => .sintW4 v.l0 v.l1 v.l2 v.l3
  | .rdstat => .rdstat
  | .rdclrstat => .rdclrstat

/-- The decoder, total on every request (30_encoding.md R50 to R57). -/
def decode (r : Request) : Except DecodeError Instr :=
  match kindOf r.cmd with
  | .ok k => .ok (k.onLanes (Lanes.ofBus r.x))
  | .error e => .error e

/-! ## Encoding -/

/-- The lanes a command puts on the bus, 0x00000000 on the unused ones (30_encoding.md R62). -/
def Instr.operands : Instr → Lanes
  | .sinW1 x0 => ⟨x0, 0, 0, 0⟩
  | .sinW2 x0 x1 => ⟨x0, x1, 0, 0⟩
  | .sinW4 x0 x1 x2 x3 => ⟨x0, x1, x2, x3⟩
  | .sintW1 x0 => ⟨x0, 0, 0, 0⟩
  | .sintW2 x0 x1 => ⟨x0, x1, 0, 0⟩
  | .sintW4 x0 x1 x2 x3 => ⟨x0, x1, x2, x3⟩
  | .rdstat => ⟨0, 0, 0, 0⟩
  | .rdclrstat => ⟨0, 0, 0, 0⟩

/-- The kind of a command. -/
def Instr.kind : Instr → Kind
  | .sinW1 _ => .sin .one
  | .sinW2 _ _ => .sin .two
  | .sinW4 _ _ _ _ => .sin .four
  | .sintW1 _ => .sint .one
  | .sintW2 _ _ => .sint .two
  | .sintW4 _ _ _ _ => .sint .four
  | .rdstat => .rdstat
  | .rdclrstat => .rdclrstat

/-- The command word of a kind, from the table of 30_encoding.md R55 (`OP`, `WC`, `CLR`). -/
def Kind.word : Kind → Byte
  | .sin W => commandWord 0b00#2 W.code false
  | .sint W => commandWord 0b01#2 W.code false
  | .rdstat => commandWord 0b10#2 0b00#2 false
  | .rdclrstat => commandWord 0b10#2 0b00#2 true

/-- The command word of a command. -/
def Instr.word (i : Instr) : Byte := i.kind.word

/-- The encoder: the request that carries a command. -/
def encode (i : Instr) : Request := { cmd := i.word, x := i.operands.toBus }

/-- How many operand lanes a command reads: W for a radian or turns command, none for a status
command (30_encoding.md R57). -/
def Instr.lanesRead : Instr → Nat
  | .sinW1 _ => 1
  | .sinW2 _ _ => 2
  | .sinW4 _ _ _ _ => 4
  | .sintW1 _ => 1
  | .sintW2 _ _ => 2
  | .sintW4 _ _ _ _ => 4
  | .rdstat => 0
  | .rdclrstat => 0

/-! ## The host's question about one table word -/

/-- What the decoder reads from a row of spec/opcode_table.json: the rows have 8 bits, the command
word, and the operand bus above them is 0. -/
def decodeTableWord (nbits w : Nat) : Option Instr :=
  if nbits = 8 ∧ w < 2 ^ 8 then
    match decode { cmd := BitVec.ofNat 8 w, x := 0 } with
    | .ok i => some i
    | .error _ => none
  else none

end Sys2Proof
end

