-- ==== Sys2Proof/Machine/State.lean ====
section
/-! DEFINITION. State: everything 10_state.md R10 gives the block, the parameters of 00_scope.md R3, the
host's side of the two channels, and the reasons a step can stop.

A step is one rising edge of `clk` ("every transfer and every state change happens at a rising edge of
`clk`", 10_state.md R21). What the host drives on the input wires at the coming edges, and what the spec
leaves to the block in each cycle, stand in `State.edges` as plain data (log 1, log 2): a
statement about every state holds whatever they are. -/

namespace Sys2Proof.Machine

/-- A response record `{y[0..3], nf[3:0], ill, cmd}` (30_encoding.md R58). -/
structure Response where
  /-- `y[0..3]`, the result lanes; bit image `rsp_y`. -/
  y : Lanes
  /-- `nf[3:0]`, bit k for lane k; `rsp_nf`. -/
  nf : BitVec 4
  /-- `ill`, the command was illegal; `rsp_ill`. -/
  ill : Bool
  /-- `cmd`, a copy of the command word answered; `rsp_cmd`. -/
  cmd : Byte
deriving DecidableEq, Repr

/-- What the spec leaves unspecified in one cycle. FREE: "a model treats them as arbitrary (any value; `Q` any
contents of at most `DEPTH` records)" (70_reset_and_hazards.md R133; log 15). Read before the first reset, and
`reqReady` during reset too (10_state.md R23). -/
structure Unspecified where
  /-- The wire `req_ready`. -/
  reqReady : Bool
  /-- The wire `rsp_valid`. -/
  rspValid : Bool
  /-- The wires `rsp_y`, `rsp_nf`, `rsp_ill` and `rsp_cmd`. -/
  rsp : Response
  /-- `STATUS.NF` after the edge. -/
  nf : Bool
  /-- `STATUS.ILL` after the edge. -/
  ill : Bool
  /-- `Q` after the edge, of which a model keeps the first `DEPTH` records. -/
  queue : List Response
deriving DecidableEq, Repr

/-- One coming rising edge of `clk`: the levels of the input wires (10_state.md R19 to R21), the block's free
choices in that cycle (log 2), and what the spec leaves unspecified in it (log 1). -/
structure Edge where
  /-- `rst`, synchronous and active high (70_reset_and_hazards.md R130). -/
  rst : Bool
  /-- `req_valid`: the host offers a command. -/
  reqValid : Bool
  /-- `req_cmd` and `req_x`. -/
  req : Request
  /-- `rsp_ready`: the host takes the offered response. -/
  rspReady : Bool
  /-- FREE: the block is willing to accept in this cycle if there is room; "the block's choice in
  each cycle" (70_reset_and_hazards.md R135). -/
  blockReady : Bool
  /-- FREE: the block begins to offer the head of `Q` in this cycle; "The block may delay this
  step" (10_state.md R25). -/
  blockOffer : Bool
  /-- FREE: if the block begins to keep `req_ready` 0 at this edge although there is room, at how many edges
  in a row it may: `req_ready` "does not stay 0 forever while room exists" (70_reset_and_hazards.md R135). -/
  readyWithin : Nat
  /-- FREE: if the block begins to withhold the head of `Q` at this edge from a host that takes, at how many
  edges in a row it may: "never forever" (10_state.md R25). -/
  offerWithin : Nat
  /-- FREE: what the spec leaves unspecified at this edge. -/
  unspecified : Unspecified
deriving DecidableEq, Repr

/-- The faults of the machine: none. "The block never traps, never stops, and never refuses a
command" (60_exceptions.md R110; log 17). -/
inductive Fault
deriving DecidableEq, Repr

/-- Why a step has no meaning. -/
inductive Refusal
  /-- An instruction without a meaning yet. Raised by `exec`'s arms only; no arm raises it. Safe. -/
  | notModelled (mnemonic : String)
  /-- The host dropped or changed a request it had offered before it was accepted. Raised by `step`
  only: "A model refuses a program that breaks this rule" (70_reset_and_hazards.md R136). Safe. -/
  | requestChanged
deriving DecidableEq, Repr

/-- The state of the machine (10_state.md R10, R22). -/
structure State where
  /-- `rst` has been 1 at some edge since power-up. Until then "`STATUS.NF`, `STATUS.ILL`, `Q` and the channel
  outputs are unspecified" (70_reset_and_hazards.md R133). -/
  wasReset : Bool
  /-- The implementation parameters; `STATUS.LANES` is the code of `cfg.lanes` (10_state.md R15). -/
  cfg : Config
  /-- `STATUS.NF` (10_state.md R13). -/
  nf : Bool
  /-- `STATUS.ILL` (10_state.md R14). -/
  ill : Bool
  /-- `Q`, head first, with the in-flight commands as records not offered yet (10_state.md R16, R22). -/
  queue : List Response
  /-- The head of `Q` was offered at an earlier edge and not taken, so `rsp_valid` stays 1
  (70_reset_and_hazards.md R137). -/
  offered : Bool
  /-- While the block withholds the head of `Q` from a host that keeps `rsp_ready` 1: at how many more edges it
  may (10_state.md R25; log 2). -/
  offerWithin : Option Nat
  /-- While the block keeps `req_ready` 0 although there is room: at how many more edges it may
  (70_reset_and_hazards.md R135; log 2). -/
  readyWithin : Option Nat
  /-- The request offered at the last edge and not accepted, which the host must hold
  (70_reset_and_hazards.md R136). -/
  held : Option Request
  /-- The coming edges, next first (log 1). -/
  edges : List Edge
  /-- The responses handed to the host, oldest first (10_state.md R25; log 8). -/
  taken : List Response
deriving DecidableEq, Repr

/-- What one step answers. -/
abbrev Result := Host.Outcome State Fault Refusal

/-- The machine right after reset (10_state.md R23): flags 0, `Q` empty, nothing in flight, nothing
offered, and the block not waiting. `cfg` has the defaults of 00_scope.md R3 (log 4). DESIGN CHOICE: no edge is to come and
nothing has been taken (log 21). -/
def State.reset : State :=
  { wasReset := true
    cfg := Config.standard
    nf := false
    ill := false
    queue := []
    offered := false
    offerWithin := none
    readyWithin := none
    held := none
    edges := []
    taken := [] }

end Sys2Proof.Machine
end

