-- ==== Sys2Proof/Machine/Operands.lean ====
section
/-! DEFINITION. The one operand form, the "binary32 lane value" (30_encoding.md R57, R60): the fields and the
exact value of a binary32 word (00_scope.md R5), and lane selection (40_sine.md R70). -/

namespace Sys2Proof.Machine

/-! ## The fields of a binary32 word (00_scope.md R5) -/

/-- The sign, `w[31]`. -/
def signBit (w : Word) : Bool := w.getLsbD 31

/-- The biased exponent, `w[30:23]`. -/
def expField (w : Word) : BitVec 8 := w.extractLsb' 23 8

/-- The fraction, `w[22:0]`. -/
def fracField (w : Word) : BitVec 23 := w.extractLsb' 0 23

/-- `isfinite(w)`: the exponent field is not 0xFF. -/
def isFinite (w : Word) : Bool := expField w != 0xFF#8

/-- The 31 bits below the sign, `w[30:0]`. -/
def lowBits (w : Word) : BitVec 31 := w.extractLsb' 0 31

/-- `{s, m}`: the sign s over 31 lower bits (00_scope.md R4). -/
def withSign (s : Bool) (m : BitVec 31) : Word := BitVec.ofBool s ++ m

/-- `|val(w)|` of a finite word, in units of 2^-149: every finite binary32 value is a whole number of
them (R5; log 12). A subnormal is F * 2^-149; a normal word is (2^23 + F) * 2^(E-1) * 2^-149. -/
def mag (w : Word) : Nat :=
  if expField w = 0 then (fracField w).toNat
  else (2 ^ 23 + (fracField w).toNat) * 2 ^ ((expField w).toNat - 1)

/-- `val(w)` of a finite word, in units of 2^-149 (R5). -/
def units (w : Word) : Int := if signBit w then -(mag w : Int) else (mag w : Int)

/-- `-w`: the sign bit flipped. -/
def negate (w : Word) : Word := w ^^^ 0x80000000#32

/-! ## Lane selection (40_sine.md R70) -/

/-- What a lane gives: its result word and its `nf` flag. -/
structure LaneResult where
  y : Word
  nf : Bool
deriving DecidableEq, Repr

/-- Lane k of a command of lane count W: the lane function on `X[k]` alone if k < W, else
0x00000000 and no flag, "whatever `X[k]` holds" (R70). -/
def selectLane (W : LaneCount) (f : Word → LaneResult) (k : Nat) (x : Word) : LaneResult :=
  if k < W.count then f x else { y := 0, nf := false }

end Sys2Proof.Machine
end

