-- ==== Sys2Proof/Machine/Float.lean ====
section
/-! DEFINITION. `RNE` and the four rounded operations (00_scope.md R6, R8): round to nearest, ties to even,
gradual underflow, nothing fused, no other mode.

A nonnegative real is given as the fraction n / d of units of 2^-149, so that every rounding is integer
arithmetic on exact numbers (log 12). -/

namespace Sys2Proof.Machine

/-- The integer nearest n / d, ties to the even one. -/
def roundHalfEven (n d : Nat) : Nat :=
  if 2 * (n % d) > d ∨ (2 * (n % d) = d ∧ n / d % 2 = 1) then n / d + 1 else n / d

/-- How many bits of n / d (in units of 2^-149) lie below a 24-bit significand: 0 for a subnormal
value and for the first normal binade, where the spacing of binary32 words is one unit. -/
def droppedBits (n d : Nat) : Nat := Nat.log2 (n / d) - 23

/-- `RNE` of the nonnegative value n / d (units of 2^-149), as the 31 bits below the sign. The
rounded significand m at shift b has the bits b * 2^23 + m: a normal m has its hidden bit in the
exponent field, and a subnormal one has b = 0. -/
def rneMag (n d : Nat) : BitVec 31 :=
  let b := droppedBits n d
  BitVec.ofNat 31 (b * 2 ^ 23 + roundHalfEven n (d * 2 ^ b))

/-- `RNE(val(a) + val(b))`: an exact sum of 0 is -0 only when both operands are negative zeros,
and +0 otherwise (00_scope.md R6). -/
def rneSum (a b : Word) : Word :=
  if units a + units b = 0 then withSign (signBit a && signBit b) 0
  else withSign (decide (units a + units b < 0)) (rneMag (units a + units b).natAbs 1)

/-- `RNE(val(a) - val(b))`, the sum of a and -b. -/
def rneDiff (a b : Word) : Word := rneSum a (negate b)

/-- `RNE(num / den × val(b))` for a nonnegative real num / den; a zero result has the sign of b
(00_scope.md R6: the sign of a zero product is the exclusive or of the signs). -/
def rneScale (num den : Nat) (b : Word) : Word := withSign (signBit b) (rneMag (num * mag b) den)

/-- `RNE(val(a) / val(b))` for a nonzero b; the sign of the result, a zero one included, is the
exclusive or of the signs (00_scope.md R6). -/
def rneQuot (a b : Word) : Word :=
  withSign (signBit a ^^ signBit b) (rneMag (mag a * 2 ^ 149) (mag b))

/-- The binary32 word nearest pi (00_scope.md R8). -/
def piF32 : Word := 0x40490FDB#32

/-- The binary32 word 2 * `piF32` (00_scope.md R8). -/
def tauF32 : Word := 0x40C90FDB#32

end Sys2Proof.Machine
end

