-- ==== Sys2Proof/Machine/Flags.lean ====
section
/-! DEFINITION. The flags: the per-response `nf[3:0]` and the sticky bits of the STATUS register
(10_state.md R12 to R15, R18; 60_exceptions.md R111). -/

namespace Sys2Proof.Machine

/-- `nf[3:0]` from the four lanes' flags, bit k for lane k (30_encoding.md R58). -/
def nfBits (f0 f1 f2 f3 : Bool) : BitVec 4 :=
  BitVec.ofBool f3 ++ BitVec.ofBool f2 ++ BitVec.ofBool f1 ++ BitVec.ofBool f0

/-- The STATUS word `{26'b0, STATUS.LANES, 2'b00, STATUS.ILL, STATUS.NF}` (10_state.md R12;
41_status.md R100). -/
def State.statusWord (s : State) : Word :=
  0#26 ++ s.cfg.lanes.code ++ 0b00#2 ++ BitVec.ofBool s.ill ++ BitVec.ofBool s.nf

/-- `if nf[0] | nf[1] | nf[2] | nf[3]: STATUS.NF <- 1` (40_sine.md R92, R93). -/
def State.raiseNf (s : State) (nf : BitVec 4) : State := { s with nf := s.nf || nf != 0#4 }

/-- `STATUS.ILL <- 1` (60_exceptions.md R112). -/
def State.raiseIll (s : State) : State := { s with ill := true }

/-- `STATUS.NF <- 0` and `STATUS.ILL <- 0` (41_status.md R101). -/
def State.clearFlags (s : State) : State := { s with nf := false, ill := false }

end Sys2Proof.Machine
end

