-- ==== Sys2Proof/Machine/Rom.lean ====
section
/-! DEFINITION. The sine ROM: 1025 binary32 words, the normative listing of 20_memory.md R33, row for row.

Each number below is one row of that listing: eight words in index order, the first in the most significant
place. The ROM is a constant, unaffected by reset and written by nothing (20_memory.md R30, R34;
70_reset_and_hazards.md R132; log 13). -/

namespace Sys2Proof.Machine

/-- Rows 0 to 120 of the listing. -/
def romRows0 : List Nat := [
  0x00000000_3B490FC6_3BC90F88_3C16CB58_3C490E90_3C7B514B_3C96C9B6_3CAFEA69,
  0x3CC90AB0_3CE22A7A_3CFB49BA_3D0A342F_3D16C32C_3D2351CB_3D2FE007_3D3C6DD5,
  0x3D48FB30_3D55880E_3D621469_3D6EA038_3D7B2B74_3D83DB0A_3D8A200A_3D9064B4,
  0x3D96A905_3D9CECF9_3DA3308C_3DA973BA_3DAFB680_3DB5F8DA_3DBC3AC3_3DC27C39,
  0x3DC8BD36_3DCEFDB7_3DD53DB9_3DDB7D37_3DE1BC2E_3DE7FA9A_3DEE3876_3DF475C0,
  0x3DFAB273_3E007745_3E039502_3E06B26E_3E09CF86_3E0CEC4A_3E1008B7_3E1324CA,
  0x3E164083_3E195BE0_3E1C76DE_3E1F917B_3E22ABB6_3E25C58C_3E28DEFC_3E2BF804,
  0x3E2F10A2_3E3228D4_3E354098_3E3857EC_3E3B6ECF_3E3E853E_3E419B37_3E44B0B9,
  0x3E47C5C2_3E4ADA4F_3E4DEE60_3E5101F1_3E541501_3E57278F_3E5A3997_3E5D4B1A,
  0x3E605C13_3E636C83_3E667C66_3E698BBA_3E6C9A7F_3E6FA8B2_3E72B651_3E75C35A,
  0x3E78CFCC_3E7BDBA4_3E7EE6E1_3E80F8C0_3E827DC0_3E840270_3E8586CE_3E870ADA,
  0x3E888E93_3E8A11F7_3E8B9507_3E8D17C0_3E8E9A22_3E901C2C_3E919DDD_3E931F35,
  0x3E94A031_3E9620D2_3E97A117_3E9920FE_3E9AA086_3E9C1FAF_3E9D9E78_3E9F1CDF,
  0x3EA09AE5_3EA21887_3EA395C5_3EA5129F_3EA68F12_3EA80B1F_3EA986C4_3EAB0201,
  0x3EAC7CD4_3EADF73C_3EAF713A_3EB0EACB_3EB263EF_3EB3DCA5_3EB554EC_3EB6CCC3,
  0x3EB8442A_3EB9BB1E_3EBB31A0_3EBCA7AF_3EBE1D4A_3EBF926F_3EC1071E_3EC27B55]

/-- Rows 128 to 248 of the listing. -/
def romRows1 : List Nat := [
  0x3EC3EF15_3EC5625C_3EC6D529_3EC8477C_3EC9B953_3ECB2AAE_3ECC9B8B_3ECE0BEA,
  0x3ECF7BCA_3ED0EB2A_3ED25A09_3ED3C867_3ED53641_3ED6A399_3ED8106B_3ED97CB9,
  0x3EDAE880_3EDC53C1_3EDDBE79_3EDF28A9_3EE0924F_3EE1FB6A_3EE363FA_3EE4CBFE,
  0x3EE63375_3EE79A5D_3EE900B7_3EEA6681_3EEBCBBB_3EED3063_3EEE9479_3EEFF7FB,
  0x3EF15AEA_3EF2BD43_3EF41F07_3EF58035_3EF6E0CB_3EF840C8_3EF9A02D_3EFAFEF7,
  0x3EFC5D27_3EFDBABB_3EFF17B2_3F003A06_3F00E7E4_3F019573_3F0242B1_3F02EF9F,
  0x3F039C3D_3F044889_3F04F484_3F05A02C_3F064B82_3F06F686_3F07A136_3F084B92,
  0x3F08F59B_3F099F4E_3F0A48AD_3F0AF1B7_3F0B9A6B_3F0C42C9_3F0CEAD0_3F0D9281,
  0x3F0E39DA_3F0EE0DB_3F0F8784_3F102DD5_3F10D3CD_3F11796B_3F121EB0_3F12C39A,
  0x3F13682A_3F140C5F_3F14B039_3F1553B7_3F15F6D9_3F16999F_3F173C07_3F17DE12,
  0x3F187FC0_3F19210F_3F19C200_3F1A6293_3F1B02C6_3F1BA299_3F1C420C_3F1CE11F,
  0x3F1D7FD1_3F1E1E22_3F1EBC12_3F1F599F_3F1FF6CB_3F209393_3F212FF9_3F21CBFB,
  0x3F226799_3F2302D3_3F239DA9_3F24381A_3F24D225_3F256BCB_3F26050A_3F269DE3,
  0x3F273656_3F27CE61_3F286605_3F28FD41_3F299415_3F2A2A80_3F2AC082_3F2B561B,
  0x3F2BEB4A_3F2C800F_3F2D1469_3F2DA859_3F2E3BDE_3F2ECEF7_3F2F61A5_3F2FF3E6,
  0x3F3085BB_3F311722_3F31A81D_3F3238AA_3F32C8C9_3F33587A_3F33E7BC_3F34768F]

/-- Rows 256 to 376 of the listing. -/
def romRows2 : List Nat := [
  0x3F3504F3_3F3592E7_3F36206C_3F36AD7F_3F373A23_3F37C655_3F385216_3F38DD65,
  0x3F396842_3F39F2AC_3F3A7CA4_3F3B0629_3F3B8F3B_3F3C17D9_3F3CA003_3F3D27B8,
  0x3F3DAEF9_3F3E35C5_3F3EBC1B_3F3F41FC_3F3FC767_3F404C5C_3F40D0DA_3F4154E1,
  0x3F41D870_3F425B89_3F42DE29_3F436051_3F43E200_3F446337_3F44E3F5_3F456439,
  0x3F45E403_3F466354_3F46E22A_3F476085_3F47DE65_3F485BCA_3F48D8B3_3F495521,
  0x3F49D112_3F4A4C87_3F4AC77F_3F4B41FA_3F4BBBF8_3F4C3578_3F4CAE79_3F4D26FD,
  0x3F4D9F02_3F4E1689_3F4E8D90_3F4F0417_3F4F7A1F_3F4FEFA8_3F5064AF_3F50D937,
  0x3F514D3D_3F51C0C2_3F5233C6_3F52A649_3F531849_3F5389C7_3F53FAC3_3F546B3B,
  0x3F54DB31_3F554AA4_3F55B993_3F5627FE_3F5695E5_3F570348_3F577026_3F57DC7F,
  0x3F584853_3F58B3A1_3F591E6A_3F5988AD_3F59F26A_3F5A5BA0_3F5AC450_3F5B2C79,
  0x3F5B941A_3F5BFB34_3F5C61C7_3F5CC7D1_3F5D2D53_3F5D924D_3F5DF6BE_3F5E5AA6,
  0x3F5EBE05_3F5F20DB_3F5F8327_3F5FE4E9_3F604621_3F60A6CF_3F6106F2_3F61668A,
  0x3F61C598_3F62241A_3F628210_3F62DF7B_3F633C5A_3F6398AC_3F63F473_3F644FAC,
  0x3F64AA59_3F650479_3F655E0B_3F65B710_3F660F88_3F666771_3F66BECC_3F671599,
  0x3F676BD8_3F67C187_3F6816A8_3F686B39_3F68BF3C_3F6912AE_3F696591_3F69B7E4,
  0x3F6A09A7_3F6A5AD9_3F6AAB7B_3F6AFB8C_3F6B4B0C_3F6B99FB_3F6BE858_3F6C3624]

/-- Rows 384 to 504 of the listing. -/
def romRows3 : List Nat := [
  0x3F6C835E_3F6CD007_3F6D1C1D_3F6D67A1_3F6DB293_3F6DFCF2_3F6E46BE_3F6E8FF8,
  0x3F6ED89E_3F6F20B0_3F6F6830_3F6FAF1B_3F6FF573_3F703B37_3F708066_3F70C501,
  0x3F710908_3F714C7A_3F718F57_3F71D19F_3F721352_3F725470_3F7294F8_3F72D4EB,
  0x3F731447_3F73530E_3F73913F_3F73CED9_3F740BDD_3F74484B_3F748422_3F74BF62,
  0x3F74FA0B_3F75341D_3F756D97_3F75A67B_3F75DEC6_3F76167A_3F764D97_3F76841B,
  0x3F76BA07_3F76EF5B_3F772417_3F77583A_3F778BC5_3F77BEB7_3F77F110_3F7822D1,
  0x3F7853F8_3F788486_3F78B47B_3F78E3D6_3F791298_3F7940C0_3F796E4E_3F799B43,
  0x3F79C79D_3F79F35E_3F7A1E84_3F7A4910_3F7A7302_3F7A9C59_3F7AC516_3F7AED37,
  0x3F7B14BE_3F7B3BAB_3F7B61FC_3F7B87B2_3F7BACCD_3F7BD14D_3F7BF531_3F7C187A,
  0x3F7C3B28_3F7C5D3A_3F7C7EB0_3F7C9F8A_3F7CBFC9_3F7CDF6C_3F7CFE73_3F7D1CDD,
  0x3F7D3AAC_3F7D57DE_3F7D7474_3F7D906E_3F7DABCC_3F7DC68C_3F7DE0B1_3F7DFA38,
  0x3F7E1324_3F7E2B72_3F7E4323_3F7E5A38_3F7E70B0_3F7E868B_3F7E9BC9_3F7EB069,
  0x3F7EC46D_3F7ED7D4_3F7EEA9D_3F7EFCC9_3F7F0E58_3F7F1F49_3F7F2F9D_3F7F3F54,
  0x3F7F4E6D_3F7F5CE9_3F7F6AC7_3F7F7808_3F7F84AB_3F7F90B1_3F7F9C18_3F7FA6E3,
  0x3F7FB10F_3F7FBA9E_3F7FC38F_3F7FCBE2_3F7FD397_3F7FDAAF_3F7FE129_3F7FE705,
  0x3F7FEC43_3F7FF0E3_3F7FF4E6_3F7FF84A_3F7FFB11_3F7FFD39_3F7FFEC4_3F7FFFB1]

/-- Rows 512 to 632 of the listing. -/
def romRows4 : List Nat := [
  0x3F800000_3F7FFFB1_3F7FFEC4_3F7FFD39_3F7FFB11_3F7FF84A_3F7FF4E6_3F7FF0E3,
  0x3F7FEC43_3F7FE705_3F7FE129_3F7FDAAF_3F7FD397_3F7FCBE2_3F7FC38F_3F7FBA9E,
  0x3F7FB10F_3F7FA6E3_3F7F9C18_3F7F90B1_3F7F84AB_3F7F7808_3F7F6AC7_3F7F5CE9,
  0x3F7F4E6D_3F7F3F54_3F7F2F9D_3F7F1F49_3F7F0E58_3F7EFCC9_3F7EEA9D_3F7ED7D4,
  0x3F7EC46D_3F7EB069_3F7E9BC9_3F7E868B_3F7E70B0_3F7E5A38_3F7E4323_3F7E2B72,
  0x3F7E1324_3F7DFA38_3F7DE0B1_3F7DC68C_3F7DABCC_3F7D906E_3F7D7474_3F7D57DE,
  0x3F7D3AAC_3F7D1CDD_3F7CFE73_3F7CDF6C_3F7CBFC9_3F7C9F8A_3F7C7EB0_3F7C5D3A,
  0x3F7C3B28_3F7C187A_3F7BF531_3F7BD14D_3F7BACCD_3F7B87B2_3F7B61FC_3F7B3BAB,
  0x3F7B14BE_3F7AED37_3F7AC516_3F7A9C59_3F7A7302_3F7A4910_3F7A1E84_3F79F35E,
  0x3F79C79D_3F799B43_3F796E4E_3F7940C0_3F791298_3F78E3D6_3F78B47B_3F788486,
  0x3F7853F8_3F7822D1_3F77F110_3F77BEB7_3F778BC5_3F77583A_3F772417_3F76EF5B,
  0x3F76BA07_3F76841B_3F764D97_3F76167A_3F75DEC6_3F75A67B_3F756D97_3F75341D,
  0x3F74FA0B_3F74BF62_3F748422_3F74484B_3F740BDD_3F73CED9_3F73913F_3F73530E,
  0x3F731447_3F72D4EB_3F7294F8_3F725470_3F721352_3F71D19F_3F718F57_3F714C7A,
  0x3F710908_3F70C501_3F708066_3F703B37_3F6FF573_3F6FAF1B_3F6F6830_3F6F20B0,
  0x3F6ED89E_3F6E8FF8_3F6E46BE_3F6DFCF2_3F6DB293_3F6D67A1_3F6D1C1D_3F6CD007]

/-- Rows 640 to 760 of the listing. -/
def romRows5 : List Nat := [
  0x3F6C835E_3F6C3624_3F6BE858_3F6B99FB_3F6B4B0C_3F6AFB8C_3F6AAB7B_3F6A5AD9,
  0x3F6A09A7_3F69B7E4_3F696591_3F6912AE_3F68BF3C_3F686B39_3F6816A8_3F67C187,
  0x3F676BD8_3F671599_3F66BECC_3F666771_3F660F88_3F65B710_3F655E0B_3F650479,
  0x3F64AA59_3F644FAC_3F63F473_3F6398AC_3F633C5A_3F62DF7B_3F628210_3F62241A,
  0x3F61C598_3F61668A_3F6106F2_3F60A6CF_3F604621_3F5FE4E9_3F5F8327_3F5F20DB,
  0x3F5EBE05_3F5E5AA6_3F5DF6BE_3F5D924D_3F5D2D53_3F5CC7D1_3F5C61C7_3F5BFB34,
  0x3F5B941A_3F5B2C79_3F5AC450_3F5A5BA0_3F59F26A_3F5988AD_3F591E6A_3F58B3A1,
  0x3F584853_3F57DC7F_3F577026_3F570348_3F5695E5_3F5627FE_3F55B993_3F554AA4,
  0x3F54DB31_3F546B3B_3F53FAC3_3F5389C7_3F531849_3F52A649_3F5233C6_3F51C0C2,
  0x3F514D3D_3F50D937_3F5064AF_3F4FEFA8_3F4F7A1F_3F4F0417_3F4E8D90_3F4E1689,
  0x3F4D9F02_3F4D26FD_3F4CAE79_3F4C3578_3F4BBBF8_3F4B41FA_3F4AC77F_3F4A4C87,
  0x3F49D112_3F495521_3F48D8B3_3F485BCA_3F47DE65_3F476085_3F46E22A_3F466354,
  0x3F45E403_3F456439_3F44E3F5_3F446337_3F43E200_3F436051_3F42DE29_3F425B89,
  0x3F41D870_3F4154E1_3F40D0DA_3F404C5C_3F3FC767_3F3F41FC_3F3EBC1B_3F3E35C5,
  0x3F3DAEF9_3F3D27B8_3F3CA003_3F3C17D9_3F3B8F3B_3F3B0629_3F3A7CA4_3F39F2AC,
  0x3F396842_3F38DD65_3F385216_3F37C655_3F373A23_3F36AD7F_3F36206C_3F3592E7]

/-- Rows 768 to 888 of the listing. -/
def romRows6 : List Nat := [
  0x3F3504F3_3F34768F_3F33E7BC_3F33587A_3F32C8C9_3F3238AA_3F31A81D_3F311722,
  0x3F3085BB_3F2FF3E6_3F2F61A5_3F2ECEF7_3F2E3BDE_3F2DA859_3F2D1469_3F2C800F,
  0x3F2BEB4A_3F2B561B_3F2AC082_3F2A2A80_3F299415_3F28FD41_3F286605_3F27CE61,
  0x3F273656_3F269DE3_3F26050A_3F256BCB_3F24D225_3F24381A_3F239DA9_3F2302D3,
  0x3F226799_3F21CBFB_3F212FF9_3F209393_3F1FF6CB_3F1F599F_3F1EBC12_3F1E1E22,
  0x3F1D7FD1_3F1CE11F_3F1C420C_3F1BA299_3F1B02C6_3F1A6293_3F19C200_3F19210F,
  0x3F187FC0_3F17DE12_3F173C07_3F16999F_3F15F6D9_3F1553B7_3F14B039_3F140C5F,
  0x3F13682A_3F12C39A_3F121EB0_3F11796B_3F10D3CD_3F102DD5_3F0F8784_3F0EE0DB,
  0x3F0E39DA_3F0D9281_3F0CEAD0_3F0C42C9_3F0B9A6B_3F0AF1B7_3F0A48AD_3F099F4E,
  0x3F08F59B_3F084B92_3F07A136_3F06F686_3F064B82_3F05A02C_3F04F484_3F044889,
  0x3F039C3D_3F02EF9F_3F0242B1_3F019573_3F00E7E4_3F003A06_3EFF17B2_3EFDBABB,
  0x3EFC5D27_3EFAFEF7_3EF9A02D_3EF840C8_3EF6E0CB_3EF58035_3EF41F07_3EF2BD43,
  0x3EF15AEA_3EEFF7FB_3EEE9479_3EED3063_3EEBCBBB_3EEA6681_3EE900B7_3EE79A5D,
  0x3EE63375_3EE4CBFE_3EE363FA_3EE1FB6A_3EE0924F_3EDF28A9_3EDDBE79_3EDC53C1,
  0x3EDAE880_3ED97CB9_3ED8106B_3ED6A399_3ED53641_3ED3C867_3ED25A09_3ED0EB2A,
  0x3ECF7BCA_3ECE0BEA_3ECC9B8B_3ECB2AAE_3EC9B953_3EC8477C_3EC6D529_3EC5625C]

/-- Rows 896 to 1016 of the listing. -/
def romRows7 : List Nat := [
  0x3EC3EF15_3EC27B55_3EC1071E_3EBF926F_3EBE1D4A_3EBCA7AF_3EBB31A0_3EB9BB1E,
  0x3EB8442A_3EB6CCC3_3EB554EC_3EB3DCA5_3EB263EF_3EB0EACB_3EAF713A_3EADF73C,
  0x3EAC7CD4_3EAB0201_3EA986C4_3EA80B1F_3EA68F12_3EA5129F_3EA395C5_3EA21887,
  0x3EA09AE5_3E9F1CDF_3E9D9E78_3E9C1FAF_3E9AA086_3E9920FE_3E97A117_3E9620D2,
  0x3E94A031_3E931F35_3E919DDD_3E901C2C_3E8E9A22_3E8D17C0_3E8B9507_3E8A11F7,
  0x3E888E93_3E870ADA_3E8586CE_3E840270_3E827DC0_3E80F8C0_3E7EE6E1_3E7BDBA4,
  0x3E78CFCC_3E75C35A_3E72B651_3E6FA8B2_3E6C9A7F_3E698BBA_3E667C66_3E636C83,
  0x3E605C13_3E5D4B1A_3E5A3997_3E57278F_3E541501_3E5101F1_3E4DEE60_3E4ADA4F,
  0x3E47C5C2_3E44B0B9_3E419B37_3E3E853E_3E3B6ECF_3E3857EC_3E354098_3E3228D4,
  0x3E2F10A2_3E2BF804_3E28DEFC_3E25C58C_3E22ABB6_3E1F917B_3E1C76DE_3E195BE0,
  0x3E164083_3E1324CA_3E1008B7_3E0CEC4A_3E09CF86_3E06B26E_3E039502_3E007745,
  0x3DFAB273_3DF475C0_3DEE3876_3DE7FA9A_3DE1BC2E_3DDB7D37_3DD53DB9_3DCEFDB7,
  0x3DC8BD36_3DC27C39_3DBC3AC3_3DB5F8DA_3DAFB680_3DA973BA_3DA3308C_3D9CECF9,
  0x3D96A905_3D9064B4_3D8A200A_3D83DB0A_3D7B2B74_3D6EA038_3D621469_3D55880E,
  0x3D48FB30_3D3C6DD5_3D2FE007_3D2351CB_3D16C32C_3D0A342F_3CFB49BA_3CE22A7A,
  0x3CC90AB0_3CAFEA69_3C96C9B6_3C7B514B_3C490E90_3C16CB58_3BC90F88_3B490FC6]

/-- Row j of the listing: the words of index 8j to 8j+7. Row 128 holds the one word `ROM(1024)`, which
is 0x00000000. -/
def romRow (j : Nat) : Nat :=
  (([romRows0, romRows1, romRows2, romRows3, romRows4, romRows5, romRows6, romRows7].getD (j / 16) []).getD
    (j % 16) 0)

/-- `ROM(i)`, the word at index i, 0 <= i <= 1024 (20_memory.md R31, R33). Reading has no side effect
and no rule forms another index (R34). -/
def rom (i : Nat) : Word := BitVec.ofNat 32 (romRow (i / 8) >>> (32 * (7 - i % 8)))

end Sys2Proof.Machine
end

