-- ==== Sys2Proof/Machine/Ops.lean ====
section
/-! DEFINITION. The shared operations: answering a command, executing an illegal one (the one exceptional
entry of this block), the two handshakes and the reset edge. -/

namespace Sys2Proof.Machine

/-! ## Responses -/

/-- `respond(...)`: append one record at the tail of `Q` (10_state.md R16; 00_scope.md R7). -/
def State.respond (s : State) (r : Response) : State := { s with queue := s.queue ++ [r] }

/-- The record that answers an illegal command word c (60_exceptions.md R112; 30_encoding.md R58). -/
def illegalResponse (c : Byte) : Response := { y := ⟨0, 0, 0, 0⟩, nf := 0, ill := true, cmd := c }

/-- The record that answers a status command with the value v (41_status.md R100, R101). -/
def statusResponse (c : Byte) (v : Word) : Response :=
  { y := ⟨v, 0, 0, 0⟩, nf := 0, ill := false, cmd := c }

/-- The bus `rsp_y`: `y[k]` on bits [32k+31:32k] (30_encoding.md R58). -/
def Response.rspY (r : Response) : Bus := r.y.toBus

/-! ## The illegal command -/

/-- ILLEGAL: `STATUS.ILL <- 1` and one zero response with `ill` = 1; "No lane is evaluated"
(60_exceptions.md R112). There is no trap entry: nothing is saved, no mode changes, control does not
move (R115), and there is nothing to return from (R116). -/
def State.takeIllegal (s : State) (c : Byte) : State := s.raiseIll.respond (illegalResponse c)

/-! ## The channels at one edge

The block may keep `req_ready` 0 although there is room, and may withhold the head of `Q`, but neither forever. A
wait draws, at its first edge, at how many edges it may last, and counts down (log 2): every finite wait occurs,
and no endless one. -/

/-- At how many edges, this one included, the block may still keep `req_ready` 0 although there is room. -/
def State.readyBound (s : State) (e : Edge) : Nat := s.readyWithin.getD e.readyWithin

/-- At how many edges, this one included, the block may still withhold the head of `Q` from a host that takes. -/
def State.offerBound (s : State) (e : Edge) : Nat := s.offerWithin.getD e.offerWithin

/-- There is room: fewer than `DEPTH` commands are accepted and undelivered (70_reset_and_hazards.md R135). -/
def State.hasRoom (s : State) : Bool := decide (s.queue.length < s.cfg.depth)

/-- `req_ready`: there is room, and the block is willing or may keep the wire 0 no longer
(70_reset_and_hazards.md R135). It is unspecified before the first reset (R133) and during reset (10_state.md R23). -/
def State.reqReady (s : State) (e : Edge) : Bool :=
  if s.wasReset && !e.rst then s.hasRoom && (e.blockReady || decide (s.readyBound e = 0))
  else e.unspecified.reqReady

/-- A request transfer happens at this edge: `rst = 0`, `req_valid = 1` and `req_ready = 1`
(70_reset_and_hazards.md R130, R135). Before the first reset no rule holds of one (R134; log 15). -/
def State.accepts (s : State) (e : Edge) : Bool := s.wasReset && !e.rst && e.reqValid && s.reqReady e

/-- `rsp_valid`: `rst` is 0, `Q` is non-empty and its head is on offer, because it was offered before and not
taken, or because the block begins to offer it now or may withhold it no longer (10_state.md R20, R25;
70_reset_and_hazards.md R130, R137). It is unspecified before the first reset (R133). -/
def State.rspValid (s : State) (e : Edge) : Bool :=
  !e.rst &&
    if s.wasReset then !s.queue.isEmpty && (s.offered || e.blockOffer || decide (s.offerBound e = 0))
    else e.unspecified.rspValid

/-- A response transfer happens at this edge: `rst = 0`, `rsp_valid = 1` and `rsp_ready = 1`
(70_reset_and_hazards.md R137). Before the first reset no rule holds of one (R134; log 15). -/
def State.delivers (s : State) (e : Edge) : Bool := s.wasReset && s.rspValid e && e.rspReady

/-- What `rsp_y`, `rsp_nf`, `rsp_ill` and `rsp_cmd` show: the head of `Q` while `rsp_valid` is 1
(10_state.md R20), nothing a host may read while it is 0 (log 18), and anything before the first reset
(70_reset_and_hazards.md R133). -/
def State.rspRecord (s : State) (e : Edge) : Option Response :=
  if s.wasReset || e.rst then if s.rspValid e then s.queue.head? else none
  else some e.unspecified.rsp

/-- The host holds the request it offered before (70_reset_and_hazards.md R136). -/
def State.requestStable (s : State) (e : Edge) : Bool :=
  match s.held with
  | none => true
  | some r => e.reqValid && decide (e.req = r)

/-- The deliver step (10_state.md R25), if this edge delivers: the head of `Q` leaves it for the host.
Otherwise an offered head stays on offer (70_reset_and_hazards.md R137). -/
def State.settleResponse (s : State) (e : Edge) : State :=
  if s.delivers e then
    { s with queue := s.queue.tail, taken := s.taken ++ s.queue.take 1, offered := false }
  else { s with offered := s.rspValid e }

/-- The wait for `req_ready` after this edge: one edge less while the block keeps the wire 0 although there is
room, and none otherwise. -/
def State.nextReadyWithin (s : State) (e : Edge) : Option Nat :=
  if s.hasRoom && !s.reqReady e then some (s.readyBound e - 1) else none

/-- The wait for `rsp_valid` after this edge: one edge less while the block withholds the head of `Q` from a host
that takes, and none otherwise; the promise is to a host that "keeps `rsp_ready` at 1" (10_state.md R25). -/
def State.nextOfferWithin (s : State) (e : Edge) : Option Nat :=
  if !s.queue.isEmpty && e.rspReady && !s.rspValid e then some (s.offerBound e - 1) else none

/-- What an edge without reset does to the channels, apart from the command it may accept: the response transfer
and the block's two waits, all judged on the state before the edge (log 9). -/
def State.settleChannels (s : State) (e : Edge) : State :=
  { s.settleResponse e with readyWithin := s.nextReadyWithin e, offerWithin := s.nextOfferWithin e }

/-- The end of an edge: the request that stays on offer, and the edges still to come. -/
def State.closeEdge (s : State) (held : Option Request) (rest : List Edge) : State :=
  { s with held := held, edges := rest }

/-- The request an edge leaves on offer when it is not accepted. -/
def Edge.offer (e : Edge) : Option Request := if e.reqValid then some e.req else none

/-! ## Reset and power-up -/

/-- The reset step: the state becomes that of 10_state.md R23, whatever else is offered (R26;
70_reset_and_hazards.md R131). The parameters stay (R132), and what the host has taken is the host's.
DEDUCED: reset ends the host's duty to hold its request (R141 "if the host keeps offering it"; log 6). -/
def State.resetEdge (s : State) : State :=
  { s with
    wasReset := true
    nf := false
    ill := false
    queue := []
    offered := false
    offerWithin := none
    readyWithin := none
    held := none }

/-- An edge before the first reset: `STATUS.NF`, `STATUS.ILL` and `Q` become anything at all
(70_reset_and_hazards.md R133), whatever the host does, since it may rely on no rule yet (R134; log 15). -/
def State.powerUpEdge (s : State) (e : Edge) : State :=
  { s with
    nf := e.unspecified.nf
    ill := e.unspecified.ill
    queue := e.unspecified.queue.take s.cfg.depth
    offered := false
    offerWithin := none
    readyWithin := none
    held := none }

end Sys2Proof.Machine
end

