-- ==== Sys2Proof/Machine/Sine.lean ====
section
/-! DEFINITION. The radian and turns commands (40_sine.md): the lane datapath of R70 to R80, the common
bodies of R92 and R93, and the six meanings. -/

namespace Sys2Proof.Machine

/-! ## The lane datapath -/

/-- The parity q, the table index i and the fraction f of R74 and R75; f is `frac` / 2^138. -/
structure Reduced where
  q : Bool
  i : Nat
  frac : Nat
deriving DecidableEq, Repr

/-- R74 and R75 on a magnitude a given in units of 2^-149, exactly: h = 2a is a / 2^148, so
k = floor(h) is a / 2^148, r is the remainder over 2^148, q the parity of k, and p = 1024 r has the whole part i
and the fraction f over 2^138. -/
def reduceMag (a : Nat) : Reduced :=
  { q := decide (a / 2 ^ 148 % 2 = 1)
    i := a % 2 ^ 148 / 2 ^ 138
    frac := a % 2 ^ 148 % 2 ^ 138 }

/-- The intermediates d, m, y of R76. -/
structure Interp where
  d : Word
  m : Word
  y : Word
deriving DecidableEq, Repr

/-- R76: three binary32 operations, each rounded, in this order and not fused. -/
def interpolate (i frac : Nat) : Interp :=
  let lo := rom i
  let hi := rom (i + 1)
  let d := rneDiff hi lo
  let m := rneScale frac (2 ^ 138) d
  { d := d, m := m, y := rneSum lo m }

/-- R73 to R77 on a finite turns word: the sign is split off, the magnitude reduced and interpolated,
and the sign `s XOR q` restored over `y[30:0]`. -/
def turnsValue (w : Word) : Word :=
  let red := reduceMag (mag w)
  withSign (signBit w ^^ red.q) (lowBits (interpolate red.i red.frac).y)

/-- SINT_LANE (R79): a non-finite operand gives +0.0 and raises the lane's flag (R71). -/
def sintLane (w : Word) : LaneResult :=
  if isFinite w then { y := turnsValue w, nf := false } else { y := 0, nf := true }

/-- R72: `t = RNE(val(w) / val(TAU_F32))`, the one division of the radian path. -/
def radianToTurns (w : Word) : Word := rneQuot w tauF32

/-- SIN_LANE (R80). -/
def sinLane (w : Word) : LaneResult :=
  if isFinite w then sintLane (radianToTurns w) else { y := 0, nf := true }

/-! ## The common bodies -/

/-- The record of a radian or turns command: lanes k < W evaluated, the others zero (R70, R92, R93;
30_encoding.md R58). -/
def sineResponse (f : Word → LaneResult) (c : Byte) (W : LaneCount) (x : Lanes) : Response :=
  let r0 := selectLane W f 0 x.l0
  let r1 := selectLane W f 1 x.l1
  let r2 := selectLane W f 2 x.l2
  let r3 := selectLane W f 3 x.l3
  { y := ⟨r0.y, r1.y, r2.y, r3.y⟩
    nf := nfBits r0.nf r1.nf r2.nf r3.nf
    ill := false
    cmd := c }

/-- SIN_CMD(W) and SINT_CMD(W) (R92, R93) with their lane function f: NF is raised if a lane's flag
is, and the record appended; a W above `LANES` is ILLEGAL and evaluates no lane (30_encoding.md R55,
R59; 60_exceptions.md R113). -/
def sineCommand (f : Word → LaneResult) (c : Byte) (W : LaneCount) (x : Lanes) (s : State) : Result :=
  if W.count ≤ s.cfg.lanes.count then
    .next ((s.raiseNf (sineResponse f c W x).nf).respond (sineResponse f c W x))
  else .next (s.takeIllegal c)

/-! ## The six meanings -/

/-- SIN.W1, command word 0x00 (R81). -/
def execSinW1 (x0 : Word) (s : State) : Result := sineCommand sinLane 0x00 .one ⟨x0, 0, 0, 0⟩ s

/-- SIN.W2, command word 0x04 (R82). -/
def execSinW2 (x0 x1 : Word) (s : State) : Result := sineCommand sinLane 0x04 .two ⟨x0, x1, 0, 0⟩ s

/-- SIN.W4, command word 0x08 (R83). -/
def execSinW4 (x0 x1 x2 x3 : Word) (s : State) : Result :=
  sineCommand sinLane 0x08 .four ⟨x0, x1, x2, x3⟩ s

/-- SINT.W1, command word 0x01 (R84). -/
def execSintW1 (x0 : Word) (s : State) : Result := sineCommand sintLane 0x01 .one ⟨x0, 0, 0, 0⟩ s

/-- SINT.W2, command word 0x05 (R85). -/
def execSintW2 (x0 x1 : Word) (s : State) : Result := sineCommand sintLane 0x05 .two ⟨x0, x1, 0, 0⟩ s

/-- SINT.W4, command word 0x09 (R86). -/
def execSintW4 (x0 x1 x2 x3 : Word) (s : State) : Result :=
  sineCommand sintLane 0x09 .four ⟨x0, x1, x2, x3⟩ s

end Sys2Proof.Machine
end

