-- ==== Sys2Proof/Machine/Status.lean ====
section
/-! DEFINITION. The status commands RDSTAT and RDCLRSTAT (41_status.md). -/

namespace Sys2Proof.Machine

/-- RDSTAT, command word 0x02: answer STATUS and change no flag (R100). -/
def execRdstat (s : State) : Result := .next (s.respond (statusResponse 0x02 s.statusWord))

/-- RDCLRSTAT, command word 0x12: answer STATUS as it was, and clear NF and ILL, as one step (R101;
20_memory.md R42). -/
def execRdclrstat (s : State) : Result :=
  .next (s.clearFlags.respond (statusResponse 0x12 s.statusWord))

end Sys2Proof.Machine
end

