-- ==== Sys2Proof/Machine/Dispatch.lean ====
section
/-! DEFINITION. Dispatch: one arm per command (30_encoding.md R55). -/

namespace Sys2Proof.Machine

def exec (i : Instr) (s : State) : Host.Outcome State Fault Refusal :=
  match i with
  | .sinW1 x0 => Sys2Proof.Machine.execSinW1 x0 s
  | .sinW2 x0 x1 => Sys2Proof.Machine.execSinW2 x0 x1 s
  | .sinW4 x0 x1 x2 x3 => Sys2Proof.Machine.execSinW4 x0 x1 x2 x3 s
  | .sintW1 x0 => Sys2Proof.Machine.execSintW1 x0 s
  | .sintW2 x0 x1 => Sys2Proof.Machine.execSintW2 x0 x1 s
  | .sintW4 x0 x1 x2 x3 => Sys2Proof.Machine.execSintW4 x0 x1 x2 x3 s
  | .rdstat => Sys2Proof.Machine.execRdstat s
  | .rdclrstat => Sys2Proof.Machine.execRdclrstat s

end Sys2Proof.Machine
end

