-- ==== Sys2Proof/Machine/Step.lean ====
section
/-! DEFINITION. The step: one rising edge of `clk` (10_state.md R21, R24 to R26). -/

namespace Sys2Proof.Machine

/-- EXEC(c, X, STATUS) with its effect on `Q` (10_state.md R24; 30_encoding.md R55): a legal command has its
meaning, any other word is ILLEGAL. That there is room in `Q` is `step`'s to check (log 10). -/
def executeRequest (r : Request) (s : State) : Result :=
  match decode r with
  | .ok i => exec i s
  | .error _ => .next (s.takeIllegal r.cmd)

/-- Go on from a next state, and keep a fault or a refusal as it is. -/
def andThen (o : Result) (f : State → State) : Result :=
  match o with
  | .next t => .next (f t)
  | .fault r => .fault r
  | .refused r => .refused r

/-- One rising edge of `clk`. With `rst` 1 the block resets and nothing else happens (10_state.md R26).
Before the first reset the state is unspecified (70_reset_and_hazards.md R133). Otherwise the edge may deliver a
response and may accept a command, both judged on the state before the edge (10_state.md R24, R25;
70_reset_and_hazards.md R135, R137; log 9). A host that changed an offered request is refused (R136). When no edge
is to come, nothing changes (10_state.md R21; log 3). -/
def step (s : State) : Host.Outcome State Fault Refusal :=
  match s.edges with
  | [] => .next s
  | e :: rest =>
    if e.rst then .next { s.resetEdge with edges := rest }
    else if s.wasReset then
      if s.requestStable e then
        if s.accepts e then
          andThen (executeRequest e.req (s.settleChannels e)) fun t => t.closeEdge none rest
        else .next ((s.settleChannels e).closeEdge e.offer rest)
      else .refused .requestChanged
    else .next { s.powerUpEdge e with edges := rest }

/-- Unspecified wires and state that happen to be all zero. -/
def Unspecified.zero : Unspecified :=
  { reqReady := false
    rspValid := false
    rsp := { y := ⟨0, 0, 0, 0⟩, nf := 0, ill := false, cmd := 0 }
    nf := false
    ill := false
    queue := [] }

/-- The edge at which a host offers the command word w on an operand bus of zeros, and the block is
willing. The host takes no response at it, and the block begins to offer none. -/
def fetchEdge (w : Nat) : Edge :=
  { rst := false
    reqValid := true
    req := { cmd := BitVec.ofNat 8 w, x := 0 }
    rspReady := false
    blockReady := true
    blockOffer := false
    readyWithin := 1
    offerWithin := 1
    unspecified := .zero }

/-- s with the command word w offered at its very next edge (log 16). The block loads no program: the
host offers each command (10_state.md R17), after a reset (70_reset_and_hazards.md R134). The edge is put before
those to come, no other request is left on offer, the block is in no wait, and when `Q` is full the oldest records
go to the host, so that there is room. -/
def State.withFetchWord (s : State) (nbits w : Nat) : State :=
  let surplus := s.queue.length + 1 - s.cfg.depth
  { s with
    wasReset := true
    queue := s.queue.drop surplus
    taken := s.taken ++ s.queue.take surplus
    offered := s.offered && decide (surplus = 0)
    offerWithin := none
    readyWithin := none
    held := none
    edges := fetchEdge (w % 2 ^ nbits) :: s.edges }

end Sys2Proof.Machine
end

