-- ==== Sys2Proof/Machine/Assembler.lean ====
section
/-! DEFINITION. The assembler of 30_encoding.md R62 and R63 on parsed lines: one line is one command
(log 20). -/

namespace Sys2Proof.Machine

/-- The word an operand puts on its lane: a bit pattern as it stands, or `RNE` of a decimal literal
(R62; 00_scope.md R6). -/
def operandWord (o : AsmOperand) : Word :=
  match o with
  | .pattern w => w
  | .decimal negative num den => withSign negative (rneMag (num * 2 ^ 149) den)

/-- The lanes of a `.cmd` line: missing operands are 0x00000000 (R62). -/
def lanesOfOperands (xs : List AsmOperand) : Lanes :=
  let word (k : Nat) : Word := (xs.map operandWord).getD k 0
  ⟨word 0, word 1, word 2, word 3⟩

/-- The command a line stands for, if it is not a `.cmd` line: the mnemonics of R62 and the
pseudo-instructions of R63. -/
def instrOfLine (l : AsmLine) : Option Instr :=
  match l with
  | .sinW1 a => some (.sinW1 (operandWord a))
  | .sinW2 a b => some (.sinW2 (operandWord a) (operandWord b))
  | .sinW4 a b c d => some (.sinW4 (operandWord a) (operandWord b) (operandWord c) (operandWord d))
  | .sintW1 a => some (.sintW1 (operandWord a))
  | .sintW2 a b => some (.sintW2 (operandWord a) (operandWord b))
  | .sintW4 a b c d => some (.sintW4 (operandWord a) (operandWord b) (operandWord c) (operandWord d))
  | .rdstat => some .rdstat
  | .rdclrstat => some .rdclrstat
  | .cmd _ _ => none
  | .sin a => some (.sinW1 (operandWord a))
  | .sint a => some (.sintW1 (operandWord a))
  | .nop => some .rdstat

/-- The request a line assembles to (R62, R63). -/
def assemble (l : AsmLine) : Request :=
  match l with
  | .cmd c xs => { cmd := c, x := (lanesOfOperands xs).toBus }
  | .sinW1 a => encode (.sinW1 (operandWord a))
  | .sinW2 a b => encode (.sinW2 (operandWord a) (operandWord b))
  | .sinW4 a b c d => encode (.sinW4 (operandWord a) (operandWord b) (operandWord c) (operandWord d))
  | .sintW1 a => encode (.sintW1 (operandWord a))
  | .sintW2 a b => encode (.sintW2 (operandWord a) (operandWord b))
  | .sintW4 a b c d => encode (.sintW4 (operandWord a) (operandWord b) (operandWord c) (operandWord d))
  | .rdstat => encode .rdstat
  | .rdclrstat => encode .rdclrstat
  | .sin a => encode (.sinW1 (operandWord a))
  | .sint a => encode (.sintW1 (operandWord a))
  | .nop => encode .rdstat

end Sys2Proof.Machine
end

