-- ==== Sys2Proof/Safety.lean ====
section
/-! DEFINITION. Safety: what a safe state and a safe run are, and the terms the statements use: the real value
of a word and correct rounding as 00_scope.md R5 and R6 say them, the integer formulation of 40_sine.md R91, runs,
and EXEC over a stream of commands (20_memory.md R40) written apart from the machine. -/

namespace Sys2Proof.Machine

/-! ## Values and rounding, over the rationals -/

/-- `val(w)`, the number a finite word denotes, word for word as 00_scope.md R5 gives it. -/
def valQ (w : Word) : ℚ :=
  (if signBit w then -1 else 1) *
    (if (expField w).toNat = 0 then (2 : ℚ) ^ (-126 : ℤ) * ((fracField w).toNat / 2 ^ 23)
     else (2 : ℚ) ^ (((expField w).toNat : ℤ) - 127) * (1 + (fracField w).toNat / 2 ^ 23))

/-- The largest finite word. -/
def maxFinite : Word := 0x7F7FFFFF#32

/-- w is `RNE(v)`: a finite word nearest v, and on a tie with a word of another value, the one whose
fraction is even (00_scope.md R6). The sign of a zero result is not said here. -/
def NearestEven (v : ℚ) (w : Word) : Prop :=
  isFinite w = true ∧
    ∀ w' : Word, isFinite w' = true →
      |valQ w - v| < |valQ w' - v| ∨
        (|valQ w - v| = |valQ w' - v| ∧ (valQ w' = valQ w ∨ w.getLsbD 0 = false))

/-- The spacing of the binary32 words at t, `ulp(t)` of 40_sine.md R88: 2^(E - 150), and 2^-149 at a subnormal or
zero t. -/
def ulp (t : Word) : ℚ := (2 : ℚ) ^ (((max (expField t).toNat 1 : Nat) : ℤ) - 150)

/-- q, i and f by the integer formulation of 40_sine.md R91, step for step. -/
def reduceByBits (w : Word) : Nat × Nat × ℚ :=
  let E := (expField w).toNat
  let F := (fracField w).toNat
  let M := if E = 0 then F else F + 2 ^ 23
  let e : Int := if E = 0 then -149 else (E : Int) - 150
  let n : Int := -(e + 1)
  if n ≤ 0 then (if n = 0 then M % 2 else 0, 0, 0)
  else
    let k := n.toNat
    let R := M % 2 ^ k
    if k ≤ 10 then ((M >>> k) % 2, R <<< (10 - k), 0)
    else ((M >>> k) % 2, R >>> (k - 10), (R % 2 ^ (k - 10) : Nat) / (2 : ℚ) ^ (k - 10))

/-! ## Safe states -/

/-- "a finite binary32 word with |val(result)| <= 1" (40_sine.md R78): 1 is 2^149 units. -/
def tameWord (w : Word) : Bool := isFinite w && decide (mag w ≤ 2 ^ 149)

/-- A well-formed response: tame lanes, and "`ill` and `nf` are never both nonzero in one response"
(60_exceptions.md R113); an illegal command answers zeros (R112). -/
def Response.wf (r : Response) : Bool :=
  tameWord r.y.l0 && tameWord r.y.l1 && tameWord r.y.l2 && tameWord r.y.l3 &&
    (!r.ill || (decide (r.nf = 0) && decide (r.y = ⟨0, 0, 0, 0⟩)))

/-- The invariant of the machine: legal parameters (00_scope.md R3), at most `DEPTH` records in `Q`
(10_state.md R16), a response on offer only from a non-empty `Q` (10_state.md R25), and every response handed over,
and every one waiting after the first reset (70_reset_and_hazards.md R133), well formed. -/
structure State.Inv (s : State) : Prop where
  params : s.cfg.wf = true
  room : s.queue.length ≤ s.cfg.depth
  offer : s.offered = true → s.queue ≠ []
  waiting : s.wasReset = true → ∀ r ∈ s.queue, r.wf = true
  handed : ∀ r ∈ s.taken, r.wf = true

/-! ## Runs -/

/-- n rising edges, stopping at the first fault or refusal. -/
def stepN : Nat → State → Result
  | 0, s => .next s
  | n + 1, s =>
    match step s with
    | .next t => stepN n t
    | .fault r => .fault r
    | .refused r => .refused r

/-- The request the next edge transfers, if it transfers one (70_reset_and_hazards.md R135). -/
def acceptedAt (s : State) : List Request :=
  match s.edges with
  | [] => []
  | e :: _ => if s.requestStable e && s.accepts e then [e.req] else []

/-- The requests accepted in the next n edges, in order. -/
def acceptedIn : Nat → State → List Request
  | 0, _ => []
  | n + 1, s =>
    acceptedAt s ++
      match step s with
      | .next t => acceptedIn n t
      | .fault _ => []
      | .refused _ => []

/-- No reset at the next n edges. -/
def NoReset (n : Nat) (s : State) : Prop := ∀ e ∈ s.edges.take n, e.rst = false

/-- All the responses an observer knows of, in order: those handed over, then those waiting. -/
def State.responses (s : State) : List Response := s.taken ++ s.queue

/-! ## EXEC as a function of the command and STATUS alone (10_state.md R24; 30_encoding.md R55) -/

/-- The two sticky bits of STATUS. -/
structure Sticky where
  nf : Bool
  ill : Bool
deriving DecidableEq, Repr

/-- The value of STATUS as a number: bit 0 NF, bit 1 ILL, bits 5:4 LANES (10_state.md R12). -/
def statusValue (lanes : LaneCount) (st : Sticky) : Word :=
  BitVec.ofNat 32 (st.nf.toNat + 2 * st.ill.toNat + 16 * lanes.code.toNat)

/-- The word of `y[k]`: the lane's result below W and 0x00000000 from W on (40_sine.md R70). -/
def laneY (f : Word → LaneResult) (W k : Nat) (x : Bus) : Word := if k < W then (f (laneOfBus x k)).y else 0

/-- `nf[k]`: 1 iff k < W and `X[k]` is non-finite (30_encoding.md R58). -/
def laneNf (W k : Nat) (x : Bus) : Bool := decide (k < W) && !isFinite (laneOfBus x k)

/-- The four `nf` bits as a number, bit k for lane k. -/
def nfNumber (W : Nat) (x : Bus) : Nat :=
  (laneNf W 0 x).toNat + 2 * (laneNf W 1 x).toNat + 4 * (laneNf W 2 x).toNat + 8 * (laneNf W 3 x).toNat

/-- ILLEGAL (60_exceptions.md R112). -/
def specIllegal (r : Request) (st : Sticky) : Response × Sticky :=
  ({ y := ⟨0, 0, 0, 0⟩, nf := 0, ill := true, cmd := r.cmd }, { st with ill := true })

/-- SIN_CMD(W) or SINT_CMD(W), ILLEGAL if W > LANES (40_sine.md R92, R93; 30_encoding.md R59). -/
def specSine (f : Word → LaneResult) (W : Nat) (lanes : LaneCount) (r : Request) (st : Sticky) :
    Response × Sticky :=
  if W > lanes.count then specIllegal r st
  else
    ({ y := ⟨laneY f W 0 r.x, laneY f W 1 r.x, laneY f W 2 r.x, laneY f W 3 r.x⟩
       nf := BitVec.ofNat 4 (nfNumber W r.x)
       ill := false
       cmd := r.cmd },
     { st with nf := st.nf || decide (nfNumber W r.x ≠ 0) })

/-- RDSTAT and RDCLRSTAT answer the value of STATUS before the command (41_status.md R100, R101). -/
def specStatus (lanes : LaneCount) (r : Request) (st after : Sticky) : Response × Sticky :=
  ({ y := ⟨statusValue lanes st, 0, 0, 0⟩, nf := 0, ill := false, cmd := r.cmd }, after)

/-- `EXEC(c, X, STATUS)` case by case, as 30_encoding.md R55 writes it. -/
def specExec (lanes : LaneCount) (r : Request) (st : Sticky) : Response × Sticky :=
  if r.cmd = 0x00 then specSine sinLane 1 lanes r st
  else if r.cmd = 0x04 then specSine sinLane 2 lanes r st
  else if r.cmd = 0x08 then specSine sinLane 4 lanes r st
  else if r.cmd = 0x01 then specSine sintLane 1 lanes r st
  else if r.cmd = 0x05 then specSine sintLane 2 lanes r st
  else if r.cmd = 0x09 then specSine sintLane 4 lanes r st
  else if r.cmd = 0x02 then specStatus lanes r st st
  else if r.cmd = 0x12 then specStatus lanes r st { nf := false, ill := false }
  else specIllegal r st

/-- A stream of commands executed one at a time, each seeing the STATUS all earlier ones left
(20_memory.md R40): the responses in order, and the STATUS at the end. -/
def specStream (lanes : LaneCount) : Sticky → List Request → List Response × Sticky
  | st, [] => ([], st)
  | st, r :: rs =>
    let (p, st') := specExec lanes r st
    let (ps, last) := specStream lanes st' rs
    (p :: ps, last)

/-- The requests of a list executed one after another. -/
def executeAll : List Request → State → Result
  | [], s => .next s
  | r :: rs, s =>
    match executeRequest r s with
    | .next t => executeAll rs t
    | .fault c => .fault c
    | .refused c => .refused c

/-- The sticky bits of a state. -/
def State.sticky (s : State) : Sticky := { nf := s.nf, ill := s.ill }

/-- The eight legal command words (30_encoding.md R55). -/
def legalWords : List Byte := [0x00, 0x04, 0x08, 0x01, 0x05, 0x09, 0x02, 0x12]

end Sys2Proof.Machine

namespace Sys2Proof

open Machine in
/-- The lane function of a command: SIN_LANE for a radian command, SINT_LANE for a turns command (40_sine.md
R70); a status command reads no lane. -/
def Instr.laneFunction (i : Instr) : Word → LaneResult :=
  match i with
  | .sinW1 _ => sinLane
  | .sinW2 _ _ => sinLane
  | .sinW4 _ _ _ _ => sinLane
  | .sintW1 _ => sintLane
  | .sintW2 _ _ => sintLane
  | .sintW4 _ _ _ _ => sintLane
  | .rdstat => fun _ => { y := 0, nf := false }
  | .rdclrstat => fun _ => { y := 0, nf := false }

open Machine in
/-- A lane the command reads holds a non-finite word (10_state.md R13). -/
def Instr.hasNonFinite (i : Instr) : Bool :=
  (List.finRange 4).any fun k => decide (k.val < i.lanesRead) && !isFinite (i.operands.get k)

/-- A radian or turns command: one that reads a lane (30_encoding.md R57). -/
def Instr.isSine (i : Instr) : Bool := decide (0 < i.lanesRead)

end Sys2Proof
end

