-- ==== Sys2Proof/Certificates/Slice0/Obligations.lean ====
section
/-! DEFINITION. The statements about sine_lut_interp r1 for the provers. Each docstring names the rule of
spec/ it formalises. -/

open Sys2Proof Sys2Proof.Machine

/-! ## Encoding (30_encoding.md) -/

/-- 30_encoding.md R55, R57: each of the eight legal words decodes to its command on the lanes it reads,
and no other word decodes. -/
def Obligations.LegalWordsDecodeAsTabled : Prop :=
  (∀ x : Bus,
    decode ⟨0x00, x⟩ = .ok (.sinW1 (laneOfBus x 0)) ∧
    decode ⟨0x04, x⟩ = .ok (.sinW2 (laneOfBus x 0) (laneOfBus x 1)) ∧
    decode ⟨0x08, x⟩ = .ok (.sinW4 (laneOfBus x 0) (laneOfBus x 1) (laneOfBus x 2) (laneOfBus x 3)) ∧
    decode ⟨0x01, x⟩ = .ok (.sintW1 (laneOfBus x 0)) ∧
    decode ⟨0x05, x⟩ = .ok (.sintW2 (laneOfBus x 0) (laneOfBus x 1)) ∧
    decode ⟨0x09, x⟩ = .ok (.sintW4 (laneOfBus x 0) (laneOfBus x 1) (laneOfBus x 2) (laneOfBus x 3)) ∧
    decode ⟨0x02, x⟩ = .ok .rdstat ∧
    decode ⟨0x12, x⟩ = .ok .rdclrstat) ∧
  ∀ r : Request, (∃ i, decode r = .ok i) ↔ r.cmd ∈ legalWords

/-- 30_encoding.md R56, R51 to R54: the decoder rejects exactly the classes of words R56 lists, read off the
command word's number c: `RSV` = c / 32, `CLR` = c / 16 mod 2, `WC` = c / 4 mod 4, `OP` = c mod 4. -/
def Obligations.RejectedWordClasses : Prop :=
  ∀ (r : Request) (c : Nat), c = r.cmd.toNat →
    ((∃ e, decode r = .error e) ↔
      (c / 32 ≠ 0 ∨ c % 4 = 3 ∨
        ((c % 4 = 0 ∨ c % 4 = 1) ∧ (c / 16 % 2 = 1 ∨ c / 4 % 4 = 3)) ∨
        (c % 4 = 2 ∧ c / 4 % 4 ≠ 0)))

/-- 30_encoding.md R50, R57, R62: decoding the request that carries a command gives the command back, with
every operand lane at every value. -/
def Obligations.DecodeOfEncode : Prop := ∀ i : Instr, decode (encode i) = .ok i

/-- 30_encoding.md R57, R62: a request that decodes to i is carried again by `encode i`, its command word and
the lanes it reads unchanged and the lanes it ignores 0x00000000. -/
def Obligations.EncodeOfDecode : Prop :=
  ∀ (r : Request) (i : Instr), decode r = .ok i →
    (encode i).cmd = r.cmd ∧
    ∀ k : Fin 4, laneOfBus (encode i).x k = if k.val < i.lanesRead then laneOfBus r.x k else 0

/-- 95_test_vectors.md sections 2.4 and 2.6 (30_encoding.md R55, R57): a few words written out bit by bit. The
names `widthOnStatus` and `reservedWidth` of the last two clauses are the model's choice (log 22). -/
def Obligations.WrittenOutWordsDecode : Prop :=
  decode ⟨0b00000100#8, 0x000000000000000040490FDB3FC90FDB#128⟩ =
    .ok (.sinW2 0x3FC90FDB 0x40490FDB) ∧
  decode ⟨0b00001001#8, 0x4A800001C01000003EFFFFFF3DCCCCCD#128⟩ =
    .ok (.sintW4 0x3DCCCCCD 0x3EFFFFFF 0xC0100000 0x4A800001) ∧
  decode ⟨0b00000000#8, 0x7F8000007FC00000FF8000003F800000#128⟩ = .ok (.sinW1 0x3F800000) ∧
  decode ⟨0b00010010#8, 0#128⟩ = .ok .rdclrstat ∧
  decode ⟨0b00010110#8, 0#128⟩ = .error .widthOnStatus ∧
  decode ⟨0b00001100#8, 0#128⟩ = .error .reservedWidth

/-- 30_encoding.md R63, and R62: a pseudo-instruction assembles as the command it stands for, every line that is
not a `.cmd` assembles to a request that decodes to its command, and `nop` changes no state but the queue. -/
def Obligations.AssembledLinesDecode : Prop :=
  (∀ x, assemble (.sin x) = assemble (.sinW1 x)) ∧
  (∀ x, assemble (.sint x) = assemble (.sintW1 x)) ∧
  assemble .nop = assemble .rdstat ∧
  (∀ l i, instrOfLine l = some i → decode (assemble l) = .ok i) ∧
  (∀ c xs, (assemble (.cmd c xs)).cmd = c ∧
    ∀ k : Fin 4, laneOfBus (assemble (.cmd c xs)).x k = ((xs.map operandWord)[k.val]?).getD 0) ∧
  ∀ s : State, ∃ p, executeRequest (assemble .nop) s = .next { s with queue := s.queue ++ [p] }

/-! ## The common bodies and what each command answers -/

/-- 40_sine.md R92: SIN_CMD(W) for W = 1, 2, 4, W <= LANES, with everything it leaves unchanged. -/
def Obligations.RadianCommandsAnswer : Prop :=
  ∀ (s : State) (x0 x1 x2 x3 : Word) (a0 a1 a2 a3 : LaneResult),
    a0 = sinLane x0 → a1 = sinLane x1 → a2 = sinLane x2 → a3 = sinLane x3 →
    exec (.sinW1 x0) s = .next { s with
      nf := s.nf || a0.nf
      queue := s.queue ++ [{ y := ⟨a0.y, 0, 0, 0⟩, nf := BitVec.ofNat 4 a0.nf.toNat, ill := false, cmd := 0x00 }] } ∧
    (2 ≤ s.cfg.lanes.count → exec (.sinW2 x0 x1) s = .next { s with
      nf := s.nf || a0.nf || a1.nf
      queue := s.queue ++ [{ y := ⟨a0.y, a1.y, 0, 0⟩, nf := BitVec.ofNat 4 (a0.nf.toNat + 2 * a1.nf.toNat),
                             ill := false, cmd := 0x04 }] }) ∧
    (4 ≤ s.cfg.lanes.count → exec (.sinW4 x0 x1 x2 x3) s = .next { s with
      nf := s.nf || a0.nf || a1.nf || a2.nf || a3.nf
      queue := s.queue ++ [{ y := ⟨a0.y, a1.y, a2.y, a3.y⟩,
                             nf := BitVec.ofNat 4 (a0.nf.toNat + 2 * a1.nf.toNat + 4 * a2.nf.toNat + 8 * a3.nf.toNat),
                             ill := false, cmd := 0x08 }] })

/-- 40_sine.md R93: SINT_CMD(W) for W = 1, 2, 4, W <= LANES, with everything it leaves unchanged. -/
def Obligations.TurnsCommandsAnswer : Prop :=
  ∀ (s : State) (x0 x1 x2 x3 : Word) (a0 a1 a2 a3 : LaneResult),
    a0 = sintLane x0 → a1 = sintLane x1 → a2 = sintLane x2 → a3 = sintLane x3 →
    exec (.sintW1 x0) s = .next { s with
      nf := s.nf || a0.nf
      queue := s.queue ++ [{ y := ⟨a0.y, 0, 0, 0⟩, nf := BitVec.ofNat 4 a0.nf.toNat, ill := false, cmd := 0x01 }] } ∧
    (2 ≤ s.cfg.lanes.count → exec (.sintW2 x0 x1) s = .next { s with
      nf := s.nf || a0.nf || a1.nf
      queue := s.queue ++ [{ y := ⟨a0.y, a1.y, 0, 0⟩, nf := BitVec.ofNat 4 (a0.nf.toNat + 2 * a1.nf.toNat),
                             ill := false, cmd := 0x05 }] }) ∧
    (4 ≤ s.cfg.lanes.count → exec (.sintW4 x0 x1 x2 x3) s = .next { s with
      nf := s.nf || a0.nf || a1.nf || a2.nf || a3.nf
      queue := s.queue ++ [{ y := ⟨a0.y, a1.y, a2.y, a3.y⟩,
                             nf := BitVec.ofNat 4 (a0.nf.toNat + 2 * a1.nf.toNat + 4 * a2.nf.toNat + 8 * a3.nf.toNat),
                             ill := false, cmd := 0x09 }] })

/-- 41_status.md R100: RDSTAT, on any operands, answers the value of STATUS and changes no flag; after any list of
commands the value includes the effect of each of them; right after reset it is the LANES code alone; two RDSTATs
with no command between them return the same value; the worked example. -/
def Obligations.RdstatAnswersStatus : Prop :=
  (∀ x : Bus, decode ⟨0x02, x⟩ = .ok .rdstat) ∧
  (∀ s : State, exec .rdstat s = .next { s with
    queue := s.queue ++ [{ y := ⟨statusValue s.cfg.lanes s.sticky, 0, 0, 0⟩, nf := 0, ill := false, cmd := 0x02 }] }) ∧
  (∀ (rs : List Request) (s t : State), executeAll rs s = .next t → ∃ u p, exec .rdstat t = .next u ∧
    u.queue = t.queue ++ [p] ∧ p.y.l0 = statusValue s.cfg.lanes (specStream s.cfg.lanes s.sticky rs).2) ∧
  (∀ s : State, s.nf = false → s.ill = false → ∃ t p, exec .rdstat s = .next t ∧ t.queue = s.queue ++ [p] ∧
    p.y.l0 = BitVec.ofNat 32 (16 * s.cfg.lanes.code.toNat)) ∧
  (∀ s t u : State, exec .rdstat s = .next t → exec .rdstat t = .next u →
    ∃ p, u.queue = s.queue ++ [p, p]) ∧
  (∀ s t : State, s.cfg.lanes = .four → s.nf = false → s.ill = false → exec (.sinW1 0x7F800000) s = .next t →
    ∃ u p, exec .rdstat t = .next u ∧ u.queue = t.queue ++ [p] ∧ p.y.l0 = 0x00000021)

/-- 41_status.md R101: RDCLRSTAT, on any operands, answers STATUS as it was before the clear, clears NF and ILL in
the same step, and leaves LANES; a flag that a later command sets is not lost; with both flags 0 it changes none; a
word that resembles it, 0x16, clears nothing and sets ILL; the worked example. -/
def Obligations.RdclrstatAnswersAndClears : Prop :=
  (∀ x : Bus, decode ⟨0x12, x⟩ = .ok .rdclrstat) ∧
  (∀ s : State, exec .rdclrstat s = .next { s with
    nf := false
    ill := false
    queue := s.queue ++ [{ y := ⟨statusValue s.cfg.lanes s.sticky, 0, 0, 0⟩, nf := 0, ill := false, cmd := 0x12 }] }) ∧
  (∀ (s t u : State) (r : Request), exec .rdclrstat s = .next t → executeRequest r t = .next u →
    u.sticky = (specExec s.cfg.lanes r { nf := false, ill := false }).2) ∧
  (∀ s : State, s.nf = false → s.ill = false → ∃ t p, exec .rdclrstat s = .next t ∧ t.sticky = s.sticky ∧
    t.queue = s.queue ++ [p] ∧ p.y.l0.getLsbD 0 = false ∧ p.y.l0.getLsbD 1 = false) ∧
  (∀ (x : Bus) (s : State), ∃ t, executeRequest ⟨0x16, x⟩ s = .next t ∧ t.nf = s.nf ∧ t.ill = true) ∧
  (∀ s : State, s.cfg.lanes = .four → s.nf = true → s.ill = true → ∃ t p, exec .rdclrstat s = .next t ∧
    t.queue = s.queue ++ [p] ∧ p.y.l0 = 0x00000023 ∧ t.statusWord = 0x00000020)

/-- 30_encoding.md R59: a radian or turns command wider than LANES is illegal; which ones these are; and what
an illegal command does (60_exceptions.md R112). -/
def Obligations.TooWideCommandIllegal : Prop :=
  (∀ i : Instr, i.fits .four = true) ∧
  (∀ i : Instr, i.fits .two = false ↔ (i.word = 0x08 ∨ i.word = 0x09)) ∧
  (∀ i : Instr, i.fits .one = false ↔ (i.word = 0x04 ∨ i.word = 0x05 ∨ i.word = 0x08 ∨ i.word = 0x09)) ∧
  ∀ (i : Instr) (s : State), i.fits s.cfg.lanes = false → exec i s = .next { s with
    ill := true
    queue := s.queue ++ [{ y := ⟨0, 0, 0, 0⟩, nf := 0, ill := true, cmd := i.word }] }

/-- 30_encoding.md R56 (and 60_exceptions.md R112, on words outside the table): there are 248 words outside the
table, every word of the classes R56 lists among them, and each is answered by one response with `ill` = 1, sets
STATUS.ILL, evaluates no lane and changes nothing else. -/
def Obligations.IllegalWordExecuted : Prop :=
  ((List.range 256).filter fun c => !legalWords.contains (BitVec.ofNat 8 c)).length = 248 ∧
  (∀ c : Byte, c.extractLsb' 0 2 = 0b11 ∨ c.extractLsb' 2 2 = 0b11 ∨ c.extractLsb' 5 3 ≠ 0 ∨
    (c.getLsbD 4 = true ∧ (c.extractLsb' 0 2 = 0b00 ∨ c.extractLsb' 0 2 = 0b01)) ∨
    (c.extractLsb' 0 2 = 0b10 ∧ c.extractLsb' 2 2 ≠ 0b00) → c ∉ legalWords) ∧
  ∀ (r : Request) (s : State), r.cmd ∉ legalWords → executeRequest r s = .next { s with
    ill := true
    queue := s.queue ++ [{ y := ⟨0, 0, 0, 0⟩, nf := 0, ill := true, cmd := r.cmd }] }

/-- 30_encoding.md R55 (with the bodies it dispatches to, 40_sine.md R92, R93, and 60_exceptions.md R112): on
every request and in every state, executing it has the effect of the pseudocode `EXEC(c, X, STATUS)`, and no
other. -/
def Obligations.ExecMatchesPseudocode : Prop :=
  ∀ (r : Request) (s : State), executeRequest r s = .next { s with
    nf := (specExec s.cfg.lanes r s.sticky).2.nf
    ill := (specExec s.cfg.lanes r s.sticky).2.ill
    queue := s.queue ++ [(specExec s.cfg.lanes r s.sticky).1] }

/-- 10_state.md R13, R14, R16, R22; 60_exceptions.md R110: the frame of every command. Parameters, both
channels, the coming edges and the responses handed over are unchanged; `Q` gains exactly one record at its
tail; NF and ILL change only as the rules name. -/
def Obligations.FrameOfEveryCommand : Prop :=
  ∀ (i : Instr) (s t : State), exec i s = .next t →
    t.wasReset = s.wasReset ∧ t.cfg = s.cfg ∧ t.offered = s.offered ∧ t.offerWithin = s.offerWithin ∧
    t.readyWithin = s.readyWithin ∧ t.held = s.held ∧ t.edges = s.edges ∧ t.taken = s.taken ∧
    (∃ p, t.queue = s.queue ++ [p] ∧ p.cmd = i.word) ∧
    (i.fits s.cfg.lanes = true → i ≠ .rdclrstat → t.ill = s.ill) ∧
    (i.fits s.cfg.lanes = false ∨ i = .rdstat ∨ (i ≠ .rdclrstat ∧ i.hasNonFinite = false) → t.nf = s.nf)

/-- 30_encoding.md R58: every field of the response to a radian or turns command that fits, to a status command
and to an illegal one, and the place of each field on the response wires. -/
def Obligations.ResponseRecordFields : Prop :=
  (∀ (r : Request) (i : Instr) (s t : State), decode r = .ok i → i.fits s.cfg.lanes = true →
    executeRequest r s = .next t → ∃ p, t.queue = s.queue ++ [p] ∧ p.ill = false ∧ p.cmd = r.cmd ∧
      (i.isSine = true → ∀ k : Fin 4,
        p.y.get k = (if k.val < i.lanesRead then (i.laneFunction (laneOfBus r.x k)).y else 0) ∧
        p.nf.getLsbD k = (decide (k.val < i.lanesRead) && !isFinite (laneOfBus r.x k))) ∧
      (i.isSine = false → p.y = ⟨s.statusWord, 0, 0, 0⟩ ∧ p.nf = 0)) ∧
  (∀ (r : Request) (s t : State), (∀ i, decode r = .ok i → i.fits s.cfg.lanes = false) →
    executeRequest r s = .next t → t.queue = s.queue ++ [{ y := ⟨0, 0, 0, 0⟩, nf := 0, ill := true, cmd := r.cmd }]) ∧
  ∀ (p : Response) (k : Fin 4), laneOfBus p.rspY k = p.y.get k

/-- 60_exceptions.md R110: every accepted command completes and appends exactly one response, and no step
faults. -/
def Obligations.EveryCommandAnswersOnce : Prop :=
  (∀ (r : Request) (s : State), ∃ t p, executeRequest r s = .next t ∧ t.queue = s.queue ++ [p] ∧ p.cmd = r.cmd) ∧
  ∀ (s : State) (f : Fault), step s ≠ .fault f

/-! ## Lanes (40_sine.md R70, R71; 30_encoding.md R57) -/

/-- 40_sine.md R71: a lane whose operand has exponent field 0xFF gives +0.0 and its flag, and a finite one gives
no flag. -/
def Obligations.NonFiniteLaneGivesZero : Prop :=
  ∀ w : Word,
    (w.extractLsb' 23 8 = 0xFF → sinLane w = ⟨0x00000000, true⟩ ∧ sintLane w = ⟨0x00000000, true⟩) ∧
    (w.extractLsb' 23 8 ≠ 0xFF → (sinLane w).nf = false ∧ (sintLane w).nf = false)

/-- 40_sine.md R70: lane k of the response to a radian or turns command is the lane function of `X[k]` alone for
k < W, and 0x00000000 with no flag for k >= W. -/
def Obligations.LanesAreIndependent : Prop :=
  ∀ (r r' : Request) (i : Instr) (s s' t t' : State) (k : Fin 4), decode r = .ok i → i.isSine = true →
    i.fits s.cfg.lanes = true → r'.cmd = r.cmd → s'.cfg = s.cfg →
    executeRequest r s = .next t → executeRequest r' s' = .next t' →
    ∃ p p', t.queue = s.queue ++ [p] ∧ t'.queue = s'.queue ++ [p'] ∧
      (k.val < i.lanesRead →
        p.y.get k = (i.laneFunction (laneOfBus r.x k)).y ∧
        (laneOfBus r'.x k = laneOfBus r.x k →
          p'.y.get k = p.y.get k ∧ p'.nf.getLsbD k = p.nf.getLsbD k)) ∧
      (i.lanesRead ≤ k.val →
        p.y.get k = 0 ∧ p.nf.getLsbD k = false ∧ p'.y.get k = 0 ∧ p'.nf.getLsbD k = false)

/-- 30_encoding.md R57: lane k is bits 32k+31 to 32k of the bus, used unchanged; lanes W .. 3 "are ignored,
whatever they hold, and affect no result and no flag", and status and illegal commands read no lane. -/
def Obligations.OperandLanes : Prop :=
  (∀ (x : Bus) (k j : Nat), j < 32 → (laneOfBus x k).getLsbD j = x.getLsbD (32 * k + j)) ∧
  (∀ (r : Request) (i : Instr) (k : Fin 4), decode r = .ok i → k.val < i.lanesRead →
    i.operands.get k = laneOfBus r.x k) ∧
  (∀ (r r' : Request) (i : Instr) (s : State), decode r = .ok i → r'.cmd = r.cmd →
    (∀ k : Fin 4, k.val < i.lanesRead → laneOfBus r'.x k = laneOfBus r.x k) →
    executeRequest r' s = executeRequest r s) ∧
  (∀ (r r' : Request) (s : State), r'.cmd = r.cmd →
    (∀ i, decode r = .ok i → i.isSine = false ∨ i.fits s.cfg.lanes = false) →
    executeRequest r' s = executeRequest r s)

/-! ## The lane datapath (40_sine.md R72 to R78, R87 to R91; 00_scope.md R5, R6) -/

/-- 00_scope.md R6: each of the four rounded operations gives the nearest word, ties to even, with gradual
underflow, whenever the exact result is within the binary32 range. -/
def Obligations.RoundingIsNearestEven : Prop :=
  (∀ a b : Word, isFinite a = true → isFinite b = true → |valQ a + valQ b| ≤ valQ maxFinite →
    NearestEven (valQ a + valQ b) (rneSum a b)) ∧
  (∀ a b : Word, isFinite a = true → isFinite b = true → |valQ a - valQ b| ≤ valQ maxFinite →
    NearestEven (valQ a - valQ b) (rneDiff a b)) ∧
  (∀ (num den : Nat) (b : Word), 0 < den → isFinite b = true → |(num / den : ℚ) * valQ b| ≤ valQ maxFinite →
    NearestEven ((num / den : ℚ) * valQ b) (rneScale num den b)) ∧
  (∀ a b : Word, isFinite a = true → isFinite b = true → valQ b ≠ 0 → |valQ a / valQ b| ≤ valQ maxFinite →
    NearestEven (valQ a / valQ b) (rneQuot a b))

/-- 00_scope.md R6: the sign of a zero result. An exact sum of 0 of operands of opposite sign is +0, two zeros
of one sign keep it, and a zero product or quotient has the exclusive or of the signs (the factor num / den is
not negative). -/
def Obligations.ZeroResultSigns : Prop :=
  (∀ a b : Word, isFinite a = true → isFinite b = true → valQ a + valQ b = 0 → signBit a ≠ signBit b →
    rneSum a b = 0x00000000) ∧
  (∀ a b : Word, valQ a = 0 → valQ b = 0 → isFinite a = true → isFinite b = true → signBit a = signBit b →
    rneSum a b = withSign (signBit a) 0) ∧
  (∀ (num den : Nat) (b : Word), lowBits (rneScale num den b) = 0 → signBit (rneScale num den b) = signBit b) ∧
  (∀ a b : Word, lowBits (rneQuot a b) = 0 → signBit (rneQuot a b) = (signBit a ^^ signBit b))

/-- 40_sine.md R72: the radian lane continues with t, the quotient by TAU_F32 rounded to nearest (subnormal words used
as they are); t is finite, smaller in magnitude than w or both are 0, and a zero t has the sign of w. -/
def Obligations.RadianLaneDividesByTau : Prop :=
  ∀ w : Word, isFinite w = true →
    NearestEven (valQ w / valQ 0x40C90FDB) (radianToTurns w) ∧
    isFinite (radianToTurns w) = true ∧
    sinLane w = sintLane (radianToTurns w) ∧
    (|valQ (radianToTurns w)| < |valQ w| ∨ (valQ (radianToTurns w) = 0 ∧ valQ w = 0)) ∧
    (valQ (radianToTurns w) = 0 → signBit (radianToTurns w) = signBit w)

/-- 40_sine.md R73, R74, R75: the parity, the table index and the fraction are those of exact arithmetic on the
real magnitude a = |val(w)|, and r and f are binary32 numbers. -/
def Obligations.ReductionIsExact : Prop :=
  ∀ (w : Word) (a h r p f : ℚ) (k i : ℤ), isFinite w = true →
    a = |valQ w| → h = 2 * a → k = ⌊h⌋ → r = h - k → p = r * 1024 → i = ⌊p⌋ → f = p - i →
    0 ≤ k ∧ 0 ≤ r ∧ r < 1 ∧ 0 ≤ i ∧ i ≤ 1023 ∧ 0 ≤ f ∧ f < 1 ∧
    ((reduceMag (mag w)).q = true ↔ k % 2 = 1) ∧
    ((reduceMag (mag w)).i : ℤ) = i ∧
    ((reduceMag (mag w)).frac : ℚ) / 2 ^ 138 = f ∧
    (∃ v : Word, isFinite v = true ∧ valQ v = r) ∧
    (∃ v : Word, isFinite v = true ∧ valQ v = f)

/-- 40_sine.md R73, R74: the reduction keeps the sine, `sin(2π val(w)) = (-1)^(s + q) sin(π r)`, with r the
fraction of 2 |val(w)|. -/
def Obligations.ReductionKeepsSine : Prop :=
  ∀ w : Word, isFinite w = true →
    Real.sin (2 * Real.pi * (valQ w : ℝ)) =
      (if (signBit w ^^ (reduceMag (mag w)).q) then -1 else 1) *
        Real.sin (Real.pi * (Int.fract (2 * |valQ w|) : ℚ))

/-- 40_sine.md R91: the integer formulation computes exactly the parity, the index and the fraction. -/
def Obligations.IntegerFormulationAgrees : Prop :=
  ∀ w : Word, isFinite w = true →
    reduceByBits w =
      ((reduceMag (mag w)).q.toNat, (reduceMag (mag w)).i, ((reduceMag (mag w)).frac : ℚ) / 2 ^ 138)

/-- 40_sine.md R76: d, m and y are each the exact difference, product and sum rounded to nearest, ties to even,
in this order; d is in fact exact, since neighbouring entries are within a factor of 2 of each other or one of
them is 0. -/
def Obligations.InterpolationRoundsEachStep : Prop :=
  ∀ i frac : Nat, i ≤ 1023 → frac < 2 ^ 138 →
    ((valQ (rom (i + 1)) ≤ 2 * valQ (rom i) ∧ valQ (rom i) ≤ 2 * valQ (rom (i + 1))) ∨
      valQ (rom i) = 0 ∨ valQ (rom (i + 1)) = 0) ∧
    NearestEven (valQ (rom (i + 1)) - valQ (rom i)) (interpolate i frac).d ∧
    valQ (interpolate i frac).d = valQ (rom (i + 1)) - valQ (rom i) ∧
    NearestEven ((frac : ℚ) / 2 ^ 138 * valQ (interpolate i frac).d) (interpolate i frac).m ∧
    NearestEven (valQ (rom i) + valQ (interpolate i frac).m) (interpolate i frac).y

/-- 40_sine.md R77: the result of a finite turns lane is `{ s XOR q, y[30:0] }`; `y[31]` is always 0, so the
magnitude is `val(y)`; a zero y gives +0.0 or -0.0 by `s XOR q`. -/
def Obligations.SignIsRestored : Prop :=
  ∀ (w : Word) (red : Reduced) (y : Word), isFinite w = true → red = reduceMag (mag w) →
    y = (interpolate red.i red.frac).y →
    (sintLane w).y.getLsbD 31 = (w.getLsbD 31 ^^ red.q) ∧
    (∀ j, j < 31 → (sintLane w).y.getLsbD j = y.getLsbD j) ∧
    y.getLsbD 31 = false ∧
    |valQ (sintLane w).y| = valQ y ∧
    (valQ y = 0 → (sintLane w).y = if (w.getLsbD 31 ^^ red.q) then 0x80000000 else 0x00000000)

/-- 40_sine.md R78: every lane result is finite and at most 1 in magnitude, it may be subnormal (the example), and
the operands and results of the three rounded operations are at most 1 in magnitude; the quotient of R72 is smaller
in magnitude than its dividend. -/
def Obligations.LaneResultsAreTame : Prop :=
  (∀ w : Word, isFinite (sinLane w).y = true ∧ |valQ (sinLane w).y| ≤ 1 ∧
    isFinite (sintLane w).y = true ∧ |valQ (sintLane w).y| ≤ 1) ∧
  (sinLane 0x00800000).y = 0x007FFFF0 ∧
  (∀ w : Word, isFinite w = true → valQ w ≠ 0 → |valQ (radianToTurns w)| < |valQ w|) ∧
  (∀ i frac : Nat, i ≤ 1023 → frac < 2 ^ 138 →
    |valQ (rom i)| ≤ 1 ∧ |valQ (rom (i + 1))| ≤ 1 ∧ (frac : ℚ) / 2 ^ 138 < 1 ∧ |valQ (interpolate i frac).d| ≤ 1 ∧
    |valQ (interpolate i frac).m| ≤ 1 ∧ |valQ (interpolate i frac).y| ≤ 1)

/-- 40_sine.md R87: a turns word whose magnitude is j/2048 gives a signed table entry exactly; the exact values
at 0, π/2 and π (−0.0, which is 0), and the two exact quotients behind them, on entry 0 of the odd half-period and on
entry 512. -/
def Obligations.GridPointsAreExact : Prop :=
  (∀ (w : Word) (j : Nat), isFinite w = true → |valQ w| = (j : ℚ) / 2048 →
    (reduceMag (mag w)).frac = 0 ∧
    (sintLane w).y = withSign (signBit w ^^ decide (j / 1024 % 2 = 1)) (lowBits (rom (j % 1024)))) ∧
  (sinLane 0x00000000).y = 0x00000000 ∧
  (sinLane 0x3FC90FDB).y = 0x3F800000 ∧
  (sinLane 0x40490FDB).y = 0x80000000 ∧ valQ 0x80000000 = 0 ∧
  valQ (radianToTurns 0x40490FDB) = 1 / 2 ∧ reduceMag (mag (radianToTurns 0x40490FDB)) = ⟨true, 0, 0⟩ ∧
  valQ (radianToTurns 0x3FC90FDB) = 1 / 4 ∧ reduceMag (mag (radianToTurns 0x3FC90FDB)) = ⟨false, 512, 0⟩

/-- 40_sine.md R81, R84: a turns word of magnitude at least 2^22, and a radian word whose t is one, gives a zero,
signed by s and the parity of the half-period. -/
def Obligations.LargeAnglesGiveZero : Prop :=
  (∀ w : Word, isFinite w = true → 2 ^ 22 ≤ |valQ w| →
    (sintLane w).y = withSign (signBit w ^^ decide (⌊2 * |valQ w|⌋ % 2 = 1)) 0) ∧
  (∀ w : Word, isFinite w = true → 2 ^ 22 ≤ |valQ (radianToTurns w)| →
    (sinLane w).y = 0x00000000 ∨ (sinLane w).y = 0x80000000)

/-- 40_sine.md R89, first sentence: both lane functions are exactly odd on finite words, zero included. -/
def Obligations.LaneFunctionsAreOdd : Prop :=
  ∀ w : Word, isFinite w = true →
    (sintLane (w ^^^ 0x80000000)).y = (sintLane w).y ^^^ 0x80000000 ∧
    (sinLane (w ^^^ 0x80000000)).y = (sinLane w).y ^^^ 0x80000000

/-- 40_sine.md R89, second sentence, on words of sign bit 0: the turns function has period 1 and changes sign at
a half period. (At -0 the rule's sentence does not hold of R77: log 14.) -/
def Obligations.TurnsFunctionIsPeriodic : Prop :=
  ∀ w v : Word, isFinite w = true → isFinite v = true → signBit w = false →
    (valQ v = valQ w + 1 → (sintLane v).y = (sintLane w).y) ∧
    (valQ v = valQ w + 1 / 2 → (sintLane v).y = (sintLane w).y ^^^ 0x80000000)

/-- 40_sine.md R81 to R86, the worked examples: the response of each command. -/
def Obligations.WorkedExamplesHold : Prop :=
  ∀ s : State, s.cfg.lanes = .four → s.nf = false →
    exec (.sinW1 0x3F800000) s =
      .next { s with queue := s.queue ++ [⟨⟨0x3F576AA1, 0, 0, 0⟩, 0b0000, false, 0x00⟩] } ∧
    exec (.sinW2 0x3FC90FDB 0x40490FDB) s =
      .next { s with queue := s.queue ++ [⟨⟨0x3F800000, 0x80000000, 0, 0⟩, 0b0000, false, 0x04⟩] } ∧
    exec (.sinW4 0x00000000 0x80000000 0x4096CBE4 0x7FC00000) s =
      .next { s with nf := true, queue := s.queue ++
        [⟨⟨0x00000000, 0x80000000, 0xBF800000, 0x00000000⟩, 0b1000, false, 0x08⟩] } ∧
    exec (.sintW1 0x3E000000) s =
      .next { s with queue := s.queue ++ [⟨⟨0x3F3504F3, 0, 0, 0⟩, 0b0000, false, 0x01⟩] } ∧
    exec (.sintW2 0x3E800000 0x3F400000) s =
      .next { s with queue := s.queue ++ [⟨⟨0x3F800000, 0xBF800000, 0, 0⟩, 0b0000, false, 0x05⟩] } ∧
    exec (.sintW4 0x3DCCCCCD 0x3EFFFFFF 0xC0100000 0x4A800001) s =
      .next { s with queue := s.queue ++
        [⟨⟨0x3F167911, 0x34490000, 0xBF800000, 0x80000000⟩, 0b0000, false, 0x09⟩] }

/-! ## The ROM (20_memory.md) -/

/-- 20_memory.md R32: symmetry, the named entries, sign bit 0 and values between 0 and 1, the two monotone
halves, normal words between the ends, and the sum of the listing. -/
def Obligations.RomListingProperties : Prop :=
  (∀ i, i ≤ 1024 → rom i = rom (1024 - i)) ∧
  rom 512 = 0x3F800000 ∧ rom 256 = 0x3F3504F3 ∧ rom 768 = 0x3F3504F3 ∧ rom 1 = 0x3B490FC6 ∧ rom 0 = 0 ∧
  (∀ i, i ≤ 1024 → signBit (rom i) = false ∧ 0 ≤ valQ (rom i) ∧ valQ (rom i) ≤ 1) ∧
  (∀ i, i < 512 → valQ (rom i) ≤ valQ (rom (i + 1))) ∧
  (∀ i, 512 ≤ i → i < 1024 → valQ (rom (i + 1)) ≤ valQ (rom i)) ∧
  (∀ i, 1 ≤ i → i ≤ 1023 → expField (rom i) ≠ 0 ∧ isFinite (rom i) = true) ∧
  ((List.range 1025).foldl (fun acc i => acc + (rom i).toNat) 0) % 2 ^ 32 = 0xACD1EC76

/-- 20_memory.md R31: every entry of the listing is the word nearest sin(iπ/1024), sin exact and π the real
number; the ends are +0.0. -/
def Obligations.RomHoldsTheSine : Prop :=
  rom 0 = 0x00000000 ∧ rom 1024 = 0x00000000 ∧
  ∀ i, 1 ≤ i → i ≤ 1023 → isFinite (rom i) = true ∧
    ∀ w : Word, isFinite w = true → valQ w ≠ valQ (rom i) →
      |(valQ (rom i) : ℝ) - Real.sin (i * Real.pi / 1024)| < |(valQ w : ℝ) - Real.sin (i * Real.pi / 1024)|

/-- 40_sine.md R88: the accuracy of the two lane functions against the real sine, and the source's 3e-6 for
radian words below 8π. -/
def Obligations.SineIsAccurate : Prop :=
  (∀ w : Word, isFinite w = true →
    |(valQ (sintLane w).y : ℝ) - Real.sin (2 * Real.pi * (valQ w : ℝ))| ≤ 1.24e-6) ∧
  (∀ w : Word, isFinite w = true →
    |(valQ (sinLane w).y : ℝ) - Real.sin (valQ w : ℝ)| ≤
      1.24e-6 + 2 * Real.pi * ((ulp (radianToTurns w) : ℝ) / 2) + |(valQ w : ℝ)| * 2.783e-8) ∧
  (∀ w : Word, isFinite w = true → |(valQ w : ℝ)| < 8 * Real.pi →
    |(valQ (sinLane w).y : ℝ) - Real.sin (valQ w : ℝ)| ≤ 3e-6)

/-! ## STATUS (10_state.md R12 to R15; 60_exceptions.md R111, R113, R116) -/

/-- 10_state.md R15, and the layout of R12: STATUS in every state; LANES is the code of the parameter, the same code
as the `WC` field, and never 0b11. -/
def Obligations.StatusLayout : Prop :=
  ∀ s : State,
    s.statusWord.getLsbD 0 = s.nf ∧
    s.statusWord.getLsbD 1 = s.ill ∧
    s.statusWord.extractLsb' 2 2 = 0 ∧
    s.statusWord.extractLsb' 4 2 = (match s.cfg.lanes with | .one => 0b00 | .two => 0b01 | .four => 0b10) ∧
    LaneCount.ofCode (s.statusWord.extractLsb' 4 2) = some s.cfg.lanes ∧
    s.statusWord.extractLsb' 4 2 ≠ 0b11 ∧
    s.statusWord.extractLsb' 6 26 = 0

/-- 60_exceptions.md R111: a legal radian or turns command reports NF for each evaluated lane with a non-finite
operand, answers +0.0 there, sets STATUS.NF, and computes the other lanes normally. -/
def Obligations.NonFiniteIsRecorded : Prop :=
  ∀ (i : Instr) (s t : State), i.isSine = true → i.fits s.cfg.lanes = true → exec i s = .next t →
    t.nf = (s.nf || i.hasNonFinite) ∧ t.statusWord.getLsbD 0 = t.nf ∧ t.ill = s.ill ∧
    ∃ p, t.queue = s.queue ++ [p] ∧ p.cmd = i.word ∧ ∀ k : Fin 4, k.val < i.lanesRead →
      (isFinite (i.operands.get k) = false → p.nf.getLsbD k = true ∧ p.y.get k = 0x00000000) ∧
      (isFinite (i.operands.get k) = true → p.nf.getLsbD k = false ∧
        p.y.get k = (i.laneFunction (i.operands.get k)).y)

/-- 60_exceptions.md R113: an illegal command reports ILL and no other condition, whatever its lanes hold; a legal
radian or turns command reports NF for each evaluated lane on its own; a status command reports none; and `ill` and
`nf` are never both nonzero in one response. -/
def Obligations.IllegalComesFirst : Prop :=
  ∀ (r : Request) (s t : State), executeRequest r s = .next t →
    ∃ p, t.queue = s.queue ++ [p] ∧ (p.ill = true → p.nf = 0 ∧ t.nf = s.nf ∧ t.ill = true) ∧
      (∀ i, decode r = .ok i → i.isSine = true → i.fits s.cfg.lanes = true → ∀ k : Fin 4,
        p.nf.getLsbD k = (decide (k.val < i.lanesRead) && !isFinite (laneOfBus r.x k))) ∧
      (∀ i, decode r = .ok i → i.isSine = false → p.ill = false ∧ p.nf = 0 ∧ t.ill = (s.ill && t.ill) ∧
        t.nf = (s.nf && t.nf)) ∧
      (p.ill = true ↔ ∀ i, decode r = .ok i → i.fits s.cfg.lanes = false)

/-- 10_state.md R13, after the first reset: NF is set at an edge exactly when a legal radian or turns command with
a non-finite evaluated lane is executed; once 1 it stays 1 until an RDCLRSTAT executes or the block is reset. -/
def Obligations.NfIsSticky : Prop :=
  ∀ (s t : State) (e : Edge) (rest : List Edge), s.wasReset = true → s.edges = e :: rest →
    step s = .next t →
    (s.nf = false → (t.nf = true ↔
      ∃ i, acceptedAt s = [e.req] ∧ decode e.req = .ok i ∧ i.fits s.cfg.lanes = true ∧ i.hasNonFinite = true)) ∧
    (s.nf = true → (t.nf = false ↔
      e.rst = true ∨ (acceptedAt s = [e.req] ∧ decode e.req = .ok .rdclrstat)))

/-- 10_state.md R14, after the first reset: ILL is set at an edge exactly when an illegal command is executed;
once 1 it stays 1 until an RDCLRSTAT executes or the block is reset. -/
def Obligations.IllIsSticky : Prop :=
  ∀ (s t : State) (e : Edge) (rest : List Edge), s.wasReset = true → s.edges = e :: rest →
    step s = .next t →
    (s.ill = false → (t.ill = true ↔
      acceptedAt s = [e.req] ∧ ∀ i, decode e.req = .ok i → i.fits s.cfg.lanes = false)) ∧
    (s.ill = true → (t.ill = false ↔
      e.rst = true ∨ (acceptedAt s = [e.req] ∧ decode e.req = .ok .rdclrstat)))

/-- 20_memory.md R37: a radian or turns command executed twice gives the same response, and the second
execution changes no flag. -/
def Obligations.SineCommandsAreIdempotent : Prop :=
  ∀ (i : Instr) (s t u : State), i.isSine = true → exec i s = .next t → exec i t = .next u →
    u.nf = t.nf ∧ u.ill = t.ill ∧ ∃ p, u.queue = s.queue ++ [p, p]

/-! ## One edge (10_state.md R24 to R26; 70_reset_and_hazards.md R135 to R137, R141) -/

/-- 10_state.md R24; 30_encoding.md R55: when an edge accepts a request that decodes to i, the step is `exec i`
after the response transfer of the same edge and its effect on the block's waits, and then no request is on offer
and the edge is gone. -/
def Obligations.StepRunsDecodedCommand : Prop :=
  ∀ (s t : State) (e : Edge) (rest : List Edge) (i : Instr), s.edges = e :: rest → e.rst = false →
    s.requestStable e = true → s.accepts e = true → decode e.req = .ok i →
    exec i (s.settleChannels e) = .next t → step s = .next { t with held := none, edges := rest }

/-- 30_encoding.md R56: when an edge accepts a request that does not decode, the step executes the illegal
command after the response transfer of the same edge. -/
def Obligations.StepRunsIllegalCommand : Prop :=
  ∀ (s : State) (e : Edge) (rest : List Edge) (err : DecodeError), s.edges = e :: rest → e.rst = false →
    s.requestStable e = true → s.accepts e = true → decode e.req = .error err →
    step s = .next { (s.settleChannels e).takeIllegal e.req.cmd with held := none, edges := rest }

/-- 10_state.md R24: the accept step. With `rst` 0, a request on offer and held, room in `Q` and `req_ready` 1
because the block is willing or may wait no longer (log 2), `(resp, STATUS') = EXEC(c, X, STATUS)` is computed from
the STATUS before the edge, STATUS becomes STATUS' and resp is appended to `Q`. -/
def Obligations.AcceptStepExecutes : Prop :=
  ∀ (s : State) (e : Edge) (rest : List Edge), s.wasReset = true → s.edges = e :: rest → e.rst = false →
    s.requestStable e = true → e.reqValid = true → (e.blockReady = true ∨ s.readyBound e = 0) →
    s.queue.length < s.cfg.depth →
    ∃ t, step s = .next t ∧
      t.sticky = (specExec s.cfg.lanes e.req s.sticky).2 ∧
      t.responses = s.responses ++ [(specExec s.cfg.lanes e.req s.sticky).1] ∧
      t.queue.getLast? = some (specExec s.cfg.lanes e.req s.sticky).1 ∧
      t.cfg = s.cfg ∧ t.edges = rest

/-- 70_reset_and_hazards.md R135: a command is accepted exactly when `req_valid` and `req_ready` are 1 with `rst`
0; `req_ready` = 1 implies fewer than `DEPTH` outstanding; with room it is the block's choice in each cycle, but
it does not stay 0 for more edges than the number drawn when the wait began (log 2). An edge that accepts nothing
appends nothing and changes no flag. -/
def Obligations.RequestTransferRule : Prop :=
  (∀ (s : State) (e : Edge), s.wasReset = true → e.rst = false → s.reqReady e = true →
    s.queue.length < s.cfg.depth) ∧
  (∀ (s : State) (e : Edge), s.wasReset = true → e.rst = false → s.queue.length < s.cfg.depth →
    (0 < s.readyBound e → s.reqReady e = e.blockReady) ∧ (s.readyBound e = 0 → s.reqReady e = true)) ∧
  (∀ (s u : State) (e : Edge) (rest : List Edge), s.wasReset = true → s.edges = e :: rest →
    s.queue.length < s.cfg.depth → s.readyBound e < s.edges.length → NoReset (s.readyBound e + 1) s →
    stepN (s.readyBound e) s = .next u →
    ∃ (k : Nat) (t : State) (e' : Edge) (rest' : List Edge), k ≤ s.readyBound e ∧ stepN k s = .next t ∧
      t.edges = e' :: rest' ∧ t.reqReady e' = true) ∧
  ∀ (s t : State) (e : Edge) (rest : List Edge), s.wasReset = true → s.edges = e :: rest → e.rst = false →
    step s = .next t →
    ((e.reqValid = true ∧ s.reqReady e = true) →
      ∃ p, t.responses = s.responses ++ [p] ∧ p.cmd = e.req.cmd) ∧
    (¬(e.reqValid = true ∧ s.reqReady e = true) →
      t.responses = s.responses ∧ t.nf = s.nf ∧ t.ill = s.ill)

/-- 70_reset_and_hazards.md R136: a host that drops or changes a request it offered and that was not accepted is
refused. The model's own: that nothing else is refused, the name of the refusal (log 7), and that a reset edge is
not checked and ends the host's duty (log 6). -/
def Obligations.ChangedRequestRefused : Prop :=
  (∀ (s : State) (e : Edge) (rest : List Edge) (r : Request), s.wasReset = true → s.edges = e :: rest →
    e.rst = false → s.held = some r → (e.reqValid = false ∨ e.req ≠ r) → step s = .refused .requestChanged) ∧
  (∀ (s : State) (c : Refusal), step s = .refused c →
    c = .requestChanged ∧ s.wasReset = true ∧ ∃ e rest r, s.edges = e :: rest ∧ e.rst = false ∧ s.held = some r ∧
      (e.reqValid = false ∨ e.req ≠ r)) ∧
  (∀ (s t : State) (e : Edge) (rest : List Edge), s.edges = e :: rest → e.rst = true → step s = .next t →
    t.held = none) ∧
  (∀ (s t : State) (e : Edge) (rest : List Edge), s.wasReset = true → s.edges = e :: rest → e.rst = false →
    step s = .next t → t.held = if e.reqValid && !s.reqReady e then some e.req else none)

/-- 70_reset_and_hazards.md R137: a response transfer removes the head of `Q` and hands it over; without one, the
response on offer stays on offer with its fields unchanged at every next edge. Nothing is handed over from an empty
queue, when the host takes nothing, in reset, or while the block may and does delay the response (10_state.md R25;
how long it may is log 2). -/
def Obligations.ResponseTransferRule : Prop :=
  (∀ (s t : State) (e : Edge) (rest : List Edge) (h : Response) (q : List Response), s.wasReset = true →
    s.edges = e :: rest → e.rst = false → s.queue = h :: q → s.rspValid e = true → step s = .next t →
    s.rspRecord e = some h ∧
    (e.rspReady = true → t.taken = s.taken ++ [h] ∧ ∃ added, t.queue = q ++ added) ∧
    (e.rspReady = false → t.taken = s.taken ∧
      ∀ e' : Edge, e'.rst = false → t.rspValid e' = true ∧ t.rspRecord e' = some h)) ∧
  (∀ (s t : State) (e : Edge) (rest : List Edge), s.edges = e :: rest →
    (s.queue = [] ∨ e.rspReady = false ∨ e.rst = true ∨
      (s.offered = false ∧ e.blockOffer = false ∧ 0 < s.offerBound e)) →
    step s = .next t → t.taken = s.taken)

/-- 10_state.md R16: `Q` is first in, first out, empty at reset, holds at most `DEPTH` records; executing a
command appends exactly one record at the tail; and no record changes while it waits: after the first reset and
without another, an edge leaves the responses of before, in order, and adds at most one behind them, and a
delivery removes the head. -/
def Obligations.QueueIsFifo : Prop :=
  State.reset.queue = [] ∧
  (∀ (r : Request) (s t : State), executeRequest r s = .next t → ∃ p, t.queue = s.queue ++ [p]) ∧
  ∀ (s t : State) (e : Edge) (rest : List Edge), s.edges = e :: rest → step s = .next t →
    (s.queue.length ≤ s.cfg.depth → t.queue.length ≤ t.cfg.depth) ∧
    (s.wasReset = true → e.rst = false →
      (∃ added, t.responses = s.responses ++ added ∧ added.length ≤ 1) ∧
      (t.taken = s.taken ∨ ∃ h, s.queue.head? = some h ∧ t.taken = s.taken ++ [h]))

/-- 10_state.md R26; 70_reset_and_hazards.md R130, R131: at a reset edge no command is accepted and no response
offered; any number of reset edges from any state, whatever is offered at them, clears both flags, empties `Q`,
discards every response not delivered, offers none, and leaves the parameters. -/
def Obligations.ResetEdgesClear : Prop :=
  (∀ (s : State) (e : Edge), e.rst = true →
    s.accepts e = false ∧ s.rspValid e = false ∧ s.rspRecord e = none ∧ s.delivers e = false) ∧
  ∀ (n : Nat) (s : State), 1 ≤ n → n ≤ s.edges.length → (∀ e ∈ s.edges.take n, e.rst = true) →
    ∃ t, stepN n s = .next t ∧ t.wasReset = true ∧ t.nf = false ∧ t.ill = false ∧ t.queue = [] ∧
      t.offered = false ∧ t.taken = s.taken ∧ t.cfg = s.cfg ∧ t.edges = s.edges.drop n ∧
      t.statusWord = BitVec.ofNat 32 (16 * s.cfg.lanes.code.toNat) ∧
      ∀ e : Edge, t.rspValid e = false

/-- 70_reset_and_hazards.md R141, from any state: a command offered during reset is not accepted, a response
pending then is lost, and a host that keeps offering the command has it accepted after reset under R135. -/
def Obligations.OfferedDuringReset : Prop :=
  ∀ (s : State) (e e' : Edge) (rest : List Edge), s.edges = e :: e' :: rest → e.rst = true →
    e.reqValid = true → e'.rst = false → e'.reqValid = true → e'.req = e.req → e'.blockReady = true →
    1 ≤ s.cfg.depth →
    ∃ t u p, step s = .next t ∧ t.queue = [] ∧ t.taken = s.taken ∧
      step t = .next u ∧ u.queue = [p] ∧ p.cmd = e.req.cmd ∧ u.taken = s.taken

/-- 10_state.md R23, the reset state; 70_reset_and_hazards.md R133: before the first reset the channel outputs,
the flags and `Q` (up to `DEPTH` records) can be anything at all; and `req_ready` is unspecified at a reset edge
and may be 0 after it at any number of edges. -/
def Obligations.ResetStateValues : Prop :=
  (State.reset.nf = false ∧ State.reset.ill = false ∧ State.reset.queue = [] ∧
    State.reset.statusWord.extractLsb' 2 2 = 0 ∧ State.reset.statusWord.extractLsb' 6 26 = 0 ∧
    ∀ e : Edge, State.reset.rspValid e = false) ∧
  (∀ (s t : State) (e : Edge) (rest : List Edge), s.edges = e :: rest → e.rst = true → step s = .next t →
    t.wasReset = State.reset.wasReset ∧ t.nf = State.reset.nf ∧ t.ill = State.reset.ill ∧
    t.queue = State.reset.queue ∧ t.offered = State.reset.offered ∧ t.offerWithin = State.reset.offerWithin ∧
    t.readyWithin = State.reset.readyWithin ∧ t.held = State.reset.held ∧ t.cfg = s.cfg) ∧
  (∀ (s : State) (ready valid nf ill : Bool) (p : Response) (q : List Response), s.wasReset = false →
    q.length ≤ s.cfg.depth →
    ∃ e : Edge, e.rst = false ∧ s.reqReady e = ready ∧ s.rspValid e = valid ∧ s.rspRecord e = some p ∧
      ∀ rest : List Edge, ∃ t, step { s with edges := e :: rest } = .next t ∧ t.wasReset = false ∧ t.nf = nf ∧
        t.ill = ill ∧ t.queue = q ∧ t.cfg = s.cfg ∧ t.edges = rest) ∧
  (∀ (s : State) (b : Bool), ∃ e : Edge, e.rst = true ∧ s.reqReady e = b) ∧
  ∀ (s : State) (e : Edge) (n : Nat), e.rst = true →
    ∃ es : List Edge, es.length = n ∧ (∀ e' ∈ es, e'.rst = false) ∧
      ∀ (k : Nat), k < n → ∃ (t : State) (e' : Edge) (rest' : List Edge),
        stepN (k + 1) { s with edges := e :: es } = .next t ∧ t.edges = e' :: rest' ∧ t.reqReady e' = false

/-! ## Runs (60_exceptions.md R122; 70_reset_and_hazards.md R138, R139; 20_memory.md R40) -/

/-- 60_exceptions.md R122, after the first reset: with no command offered and nothing taken, the block keeps
STATUS and `Q` indefinitely. -/
def Obligations.IdleKeepsState : Prop :=
  ∀ (n : Nat) (s : State), s.wasReset = true → s.held = none →
    (∀ e ∈ s.edges, e.rst = false ∧ e.reqValid = false ∧ e.rspReady = false) →
    ∃ t, stepN n s = .next t ∧ t.statusWord = s.statusWord ∧ t.queue = s.queue ∧ t.taken = s.taken

/-- 70_reset_and_hazards.md R139: a host that takes no response can have at most `DEPTH` outstanding; once `Q` is
full `req_ready` stays 0 and nothing the host offers is accepted, at any number of edges. -/
def Obligations.BackPressureHangs : Prop :=
  ∀ (n : Nat) (s t : State), s.wasReset = true → (∀ e ∈ s.edges, e.rst = false ∧ e.rspReady = false) →
    s.queue.length ≤ s.cfg.depth → stepN n s = .next t →
    t.taken = s.taken ∧
    (acceptedIn n s).length ≤ s.cfg.depth - s.queue.length ∧
    (s.queue.length = s.cfg.depth → t.queue = s.queue ∧ t.nf = s.nf ∧ t.ill = s.ill ∧ acceptedIn n s = [] ∧
      ∀ e : Edge, e.rst = false → t.reqReady e = false)

/-- 10_state.md R25; 70_reset_and_hazards.md R142: once `Q` is non-empty and the host keeps `rsp_ready` at 1, the
head is delivered by the first edge at which the block offers it, and in any case after no more edges of delay
than the number drawn when the delay began (log 2); and that number can be any. -/
def Obligations.DeliveryComes : Prop :=
  (∀ (s t : State) (before : List Edge) (e : Edge) (rest : List Edge) (h : Response) (q : List Response),
    s.wasReset = true → s.edges = before ++ e :: rest → s.queue = h :: q →
    (∀ e' ∈ before ++ [e], e'.rst = false ∧ e'.rspReady = true) → e.blockOffer = true →
    stepN (before.length + 1) s = .next t →
    ∃ more, t.taken = s.taken ++ h :: more) ∧
  (∀ (s t : State) (e : Edge) (rest : List Edge) (h : Response) (q : List Response),
    s.wasReset = true → s.edges = e :: rest → s.queue = h :: q → s.offerBound e < s.edges.length →
    (∀ e' ∈ s.edges.take (s.offerBound e + 1), e'.rst = false ∧ e'.rspReady = true) →
    stepN (s.offerBound e + 1) s = .next t →
    ∃ more, t.taken = s.taken ++ h :: more) ∧
  ∀ (s : State) (n : Nat), s.wasReset = true → s.held = none → s.offered = false → s.offerWithin = none →
    ∃ es : List Edge, es.length = n ∧ (∀ e ∈ es, e.rst = false ∧ e.rspReady = true) ∧
      ∃ t, stepN n { s with edges := es } = .next t ∧ t.taken = s.taken

/-- 20_memory.md R40; 70_reset_and_hazards.md R138: sequential consistency over the single command stream. After
the first reset, at any number of edges without a reset, whatever the host's and the block's delays, the responses
are those of the accepted commands executed one at a time in order, each seeing the STATUS all earlier ones left,
and the STATUS reached is theirs. -/
def Obligations.StreamIsSequential : Prop :=
  ∀ (n : Nat) (s t : State), s.wasReset = true → NoReset n s → stepN n s = .next t →
    t.responses = s.responses ++ (specStream s.cfg.lanes s.sticky (acceptedIn n s)).1 ∧
    t.sticky = (specStream s.cfg.lanes s.sticky (acceptedIn n s)).2

/-! ## Invariants -/

/-- 70_reset_and_hazards.md R132; 00_scope.md R3: no step changes a parameter, so STATUS.LANES reads the same
in every state of a run. -/
def Obligations.ParametersNeverChange : Prop :=
  ∀ (n : Nat) (s t : State), stepN n s = .next t →
    t.cfg = s.cfg ∧ t.statusWord.extractLsb' 4 2 = s.statusWord.extractLsb' 4 2

/-- The invariant holds right after reset. -/
def Obligations.ResetMeetsInvariant : Prop := State.reset.Inv

/-- Every step keeps the invariant: `Q` never exceeds `DEPTH` (10_state.md R16), a response is on offer only from
a non-empty `Q` (R25), and no response after the first reset ever holds a NaN, an infinity or a value above 1, nor
`ill` and `nf` together (40_sine.md R78; 60_exceptions.md R113). -/
def Obligations.StepKeepsInvariant : Prop :=
  ∀ s t : State, s.Inv → step s = .next t → t.Inv

/-! ## The host's entry -/

/-- The model's own convention (log 16): in a state that meets the invariant, the word the host places is the one
the very next step runs, on an operand bus of zeros. -/
def Obligations.FetchedWordRuns : Prop :=
  ∀ (s : State) (w : Nat) (i : Instr), s.Inv → decodeTableWord 8 w = some i →
    ∃ t, exec i { s.withFetchWord 8 w with edges := s.edges } = .next t ∧ step (s.withFetchWord 8 w) = .next t
end

