-- ==== Sys2Proof/Laws/Bits.lean ====
section
/-! SUPPORT. The lanes of a bus and the fields of a word. -/

namespace Sys2Proof

/-- Bit j of a bus image: bit j mod 32 of lane j / 32 (30_encoding.md R57, R58). -/
theorem getLsbD_toBus (v : Lanes) (j : Nat) :
    v.toBus.getLsbD j =
      if j < 32 then v.l0.getLsbD j
      else if j < 64 then v.l1.getLsbD (j - 32)
      else if j < 96 then v.l2.getLsbD (j - 64)
      else v.l3.getLsbD (j - 96) := by
  have h1 := BitVec.getLsbD_append (x := (v.l3 ++ v.l2 ++ v.l1 : BitVec (32 + 32 + 32))) (y := v.l0) (i := j)
  have h2 := BitVec.getLsbD_append (x := (v.l3 ++ v.l2 : BitVec (32 + 32))) (y := v.l1) (i := j - 32)
  have h3 := BitVec.getLsbD_append (x := v.l3) (y := v.l2) (i := j - 32 - 32)
  have e : v.toBus.getLsbD j = ((v.l3 ++ v.l2 ++ v.l1 : BitVec (32 + 32 + 32)) ++ v.l0).getLsbD j := rfl
  rw [e, h1, h2, h3]
  by_cases a : j < 32
  · simp [a]
  · by_cases b : j < 64
    · simp [a, b, show j - 32 < 32 by omega]
    · by_cases c : j < 96
      · simp [a, b, c, show ¬ j - 32 < 32 by omega, show j - 32 - 32 = j - 64 by omega,
          show j - 64 < 32 by omega]
      · simp [a, b, c, show ¬ j - 32 < 32 by omega, show j - 32 - 32 = j - 64 by omega,
          show ¬ j - 64 < 32 by omega, show j - 64 - 32 = j - 96 by omega]

/-- Each lane of a bus image is the lane put there (30_encoding.md R57, R58). -/
@[simp] theorem laneOfBus_toBus (v : Lanes) (k : Fin 4) : laneOfBus v.toBus k = v.get k := by
  apply BitVec.eq_of_getLsbD_eq
  intro j hj
  rw [laneOfBus, BitVec.getLsbD_extractLsb', getLsbD_toBus]
  fin_cases k
  · simp [Lanes.get, hj]
  · simp [Lanes.get, hj, show 32 + j < 64 by omega]
  · simp [Lanes.get, hj, show ¬ 64 + j < 32 by omega, show 64 + j < 96 by omega]
  · simp [Lanes.get, hj, show ¬ 96 + j < 32 by omega, show ¬ 96 + j < 64 by omega]

@[simp] theorem laneOfBus_toBus_zero (v : Lanes) : laneOfBus v.toBus 0 = v.l0 := laneOfBus_toBus v 0
@[simp] theorem laneOfBus_toBus_one (v : Lanes) : laneOfBus v.toBus 1 = v.l1 := laneOfBus_toBus v 1
@[simp] theorem laneOfBus_toBus_two (v : Lanes) : laneOfBus v.toBus 2 = v.l2 := laneOfBus_toBus v 2
@[simp] theorem laneOfBus_toBus_three (v : Lanes) : laneOfBus v.toBus 3 = v.l3 := laneOfBus_toBus v 3

/-- The lanes of a bus image are the lanes it was made from. -/
@[simp] theorem ofBus_toBus (v : Lanes) : Lanes.ofBus v.toBus = v := by
  simp [Lanes.ofBus]

/-- Lane k of the lanes of a bus. -/
@[simp] theorem get_ofBus (x : Bus) (k : Fin 4) : (Lanes.ofBus x).get k = laneOfBus x k := by
  fin_cases k <;> rfl

namespace Machine

theorem getLsbD_withSign (s : Bool) (m : BitVec 31) (j : Nat) :
    (withSign s m).getLsbD j = if j < 31 then m.getLsbD j else (decide (j = 31) && s) := by
  have h := BitVec.getLsbD_append (x := BitVec.ofBool s) (y := m) (i := j)
  have e : (withSign s m).getLsbD j = (BitVec.ofBool s ++ m).getLsbD j := rfl
  rw [e, h]
  by_cases a : j < 31
  · simp [a]
  · by_cases b : j = 31
    · simp [b]
    · simp [a, b, show j - 31 ≠ 0 by omega]

@[simp] theorem signBit_withSign (s : Bool) (m : BitVec 31) : signBit (withSign s m) = s := by
  rw [signBit, getLsbD_withSign]
  simp

@[simp] theorem lowBits_withSign (s : Bool) (m : BitVec 31) : lowBits (withSign s m) = m := by
  apply BitVec.eq_of_getLsbD_eq
  intro j hj
  simp [lowBits, getLsbD_withSign, hj]

/-- A word is its sign over its lower bits. -/
theorem withSign_parts (w : Word) : withSign (signBit w) (lowBits w) = w := by
  apply BitVec.eq_of_getLsbD_eq
  intro j hj
  rw [getLsbD_withSign]
  by_cases h : j < 31
  · simp [lowBits, h]
  · simp [signBit, show j = 31 by omega]

/-- Two words are equal when their signs and their lower bits are. -/
theorem word_ext {v w : Word} (hs : signBit v = signBit w) (hl : lowBits v = lowBits w) : v = w := by
  rw [← withSign_parts v, ← withSign_parts w, hs, hl]

@[simp] theorem signBit_negate (w : Word) : signBit (negate w) = !signBit w := by
  simp [signBit, negate]

@[simp] theorem lowBits_negate (w : Word) : lowBits (negate w) = lowBits w := by
  apply BitVec.eq_of_getLsbD_eq
  intro j hj
  have h : (0x80000000#32).getLsbD j = false := by
    rw [show (0x80000000#32) = BitVec.twoPow 32 31 from rfl, BitVec.getLsbD_twoPow]
    simp
    omega
  simp only [lowBits, negate, BitVec.getLsbD_extractLsb', BitVec.getLsbD_xor, Nat.zero_add, h]
  simp

/-- The exponent and the fraction are read from the lower bits. -/
theorem expField_eq (w : Word) : (expField w).toNat = (lowBits w).toNat / 2 ^ 23 := by
  simp only [expField, lowBits, BitVec.extractLsb'_toNat, Nat.shiftRight_eq_div_pow]
  omega

theorem fracField_eq (w : Word) : (fracField w).toNat = (lowBits w).toNat % 2 ^ 23 := by
  simp only [fracField, lowBits, BitVec.extractLsb'_toNat, Nat.shiftRight_eq_div_pow]
  omega

end Machine

end Sys2Proof
end

