-- ==== Sys2Proof/Laws/Decode.lean ====
section
/-! SUPPORT. The decoder, said once: what each command word decodes to, and that a decoded command has the word
and the lanes of its request. -/

namespace Sys2Proof

/-- The word of each kind decodes to it. -/
@[simp] theorem kindOf_word (k : Kind) : kindOf k.word = .ok k := by
  cases k with
  | sin W => cases W <;> rfl
  | sint W => cases W <;> rfl
  | rdstat => rfl
  | rdclrstat => rfl

/-- A decoded command word is the word of its kind. -/
theorem word_of_kindOf {c : Byte} {k : Kind} (h : kindOf c = .ok k) : k.word = c := by
  have key : ∀ c : Byte, (match kindOf c with | .ok k => decide (k.word = c) | .error _ => true) = true := by
    decide +kernel
  have := key c
  rw [h] at this
  simpa using this

/-- The word of a kind is legal (30_encoding.md R55). -/
theorem word_mem (k : Kind) : k.word ∈ Machine.legalWords := by
  cases k with
  | sin W => cases W <;> decide
  | sint W => cases W <;> decide
  | rdstat => decide
  | rdclrstat => decide

/-- A legal word is the word of a kind. -/
theorem kind_of_mem {c : Byte} (h : c ∈ Machine.legalWords) : ∃ k : Kind, k.word = c := by
  have key : ∀ c ∈ Machine.legalWords,
      (match kindOf c with | .ok k => decide (k.word = c) | .error _ => false) = true := by decide
  have := key c h
  cases hk : kindOf c with
  | ok k => exact ⟨k, word_of_kindOf hk⟩
  | error e => simp [hk] at this

@[simp] theorem kind_onLanes (k : Kind) (v : Lanes) : (k.onLanes v).kind = k := by
  cases k with
  | sin W => cases W <;> rfl
  | sint W => cases W <;> rfl
  | rdstat => rfl
  | rdclrstat => rfl

theorem onLanes_operands (i : Instr) : i.kind.onLanes i.operands = i := by
  cases i <;> rfl

/-- A request that decodes, read backwards. -/
theorem decode_ok_iff {r : Request} {i : Instr} :
    decode r = .ok i ↔ i.word = r.cmd ∧ i = i.kind.onLanes (Lanes.ofBus r.x) := by
  unfold decode Instr.word
  constructor
  · intro h
    cases hk : kindOf r.cmd with
    | ok k =>
      simp only [hk, Except.ok.injEq] at h
      subst h
      simpa using word_of_kindOf hk
    | error e => simp [hk] at h
  · rintro ⟨hw, hi⟩
    rw [← hw, kindOf_word]
    exact congrArg _ hi.symm

/-- A request with the word of a kind decodes to that kind's command on its lanes. -/
theorem decode_of_word {r : Request} (k : Kind) (h : r.cmd = k.word) :
    decode r = .ok (k.onLanes (Lanes.ofBus r.x)) := by
  simp [decode, h]

/-- A request that decodes carries the command's lanes. -/
theorem operands_of_decode {r : Request} {i : Instr} (h : decode r = .ok i) (k : Fin 4) :
    i.operands.get k = if k.val < i.lanesRead then laneOfBus r.x k else 0 := by
  rw [(decode_ok_iff.1 h).2]
  cases i <;> fin_cases k <;> rfl

/-- Requests with one command word decode to commands of one kind. -/
theorem decode_same_word {r r' : Request} {i : Instr} (h : decode r = .ok i) (hc : r'.cmd = r.cmd) :
    ∃ i', decode r' = .ok i' ∧ i'.kind = i.kind :=
  ⟨_, decode_of_word i.kind (hc.trans (decode_ok_iff.1 h).1.symm), kind_onLanes _ _⟩

/-- The lanes a command does not read play no part in decoding it (30_encoding.md R57). -/
theorem decode_congr {r r' : Request} {i : Instr} (h : decode r = .ok i) (hc : r'.cmd = r.cmd)
    (hx : ∀ k : Fin 4, k.val < i.lanesRead → laneOfBus r'.x k = laneOfBus r.x k) : decode r' = .ok i := by
  have hi := decode_ok_iff.1 h
  refine decode_ok_iff.2 ⟨hi.1.trans hc.symm, hi.2.trans ?_⟩
  have h0 := hx 0
  have h1 := hx 1
  have h2 := hx 2
  have h3 := hx 3
  clear h hi hx
  cases i <;> simp_all [Instr.kind, Kind.onLanes, Lanes.ofBus, Instr.lanesRead]

/-- A word that is no command's does not decode. -/
theorem decode_error_iff {r : Request} : (∃ e, decode r = .error e) ↔ r.cmd ∉ Machine.legalWords := by
  constructor
  · rintro ⟨e, he⟩ hm
    obtain ⟨k, hk⟩ := kind_of_mem hm
    simp [decode, ← hk] at he
  · intro h
    unfold decode
    cases hk : kindOf r.cmd with
    | ok k => exact absurd (word_of_kindOf hk ▸ word_mem k) h
    | error e => exact ⟨e, rfl⟩

end Sys2Proof
end

