-- ==== Sys2Proof/Laws/State.lean ====
section
/-! SUPPORT. What each update of State leaves and writes, one lemma per field, so that no proof unfolds a
record update. -/

namespace Sys2Proof.Machine

section Respond
variable (s : State) (r : Response)

@[simp] theorem respond_wasReset : (s.respond r).wasReset = s.wasReset := rfl
@[simp] theorem respond_cfg : (s.respond r).cfg = s.cfg := rfl
@[simp] theorem respond_nf : (s.respond r).nf = s.nf := rfl
@[simp] theorem respond_ill : (s.respond r).ill = s.ill := rfl
@[simp] theorem respond_queue : (s.respond r).queue = s.queue ++ [r] := rfl
@[simp] theorem respond_offered : (s.respond r).offered = s.offered := rfl
@[simp] theorem respond_offerWithin : (s.respond r).offerWithin = s.offerWithin := rfl
@[simp] theorem respond_readyWithin : (s.respond r).readyWithin = s.readyWithin := rfl
@[simp] theorem respond_held : (s.respond r).held = s.held := rfl
@[simp] theorem respond_edges : (s.respond r).edges = s.edges := rfl
@[simp] theorem respond_taken : (s.respond r).taken = s.taken := rfl

end Respond

section Flags
variable (s : State) (v : BitVec 4)

@[simp] theorem raiseNf_wasReset : (s.raiseNf v).wasReset = s.wasReset := rfl
@[simp] theorem raiseNf_cfg : (s.raiseNf v).cfg = s.cfg := rfl
@[simp] theorem raiseNf_nf : (s.raiseNf v).nf = (s.nf || v != 0#4) := rfl
@[simp] theorem raiseNf_ill : (s.raiseNf v).ill = s.ill := rfl
@[simp] theorem raiseNf_queue : (s.raiseNf v).queue = s.queue := rfl
@[simp] theorem raiseNf_offered : (s.raiseNf v).offered = s.offered := rfl
@[simp] theorem raiseNf_offerWithin : (s.raiseNf v).offerWithin = s.offerWithin := rfl
@[simp] theorem raiseNf_readyWithin : (s.raiseNf v).readyWithin = s.readyWithin := rfl
@[simp] theorem raiseNf_held : (s.raiseNf v).held = s.held := rfl
@[simp] theorem raiseNf_edges : (s.raiseNf v).edges = s.edges := rfl
@[simp] theorem raiseNf_taken : (s.raiseNf v).taken = s.taken := rfl

@[simp] theorem raiseIll_wasReset : s.raiseIll.wasReset = s.wasReset := rfl
@[simp] theorem raiseIll_cfg : s.raiseIll.cfg = s.cfg := rfl
@[simp] theorem raiseIll_nf : s.raiseIll.nf = s.nf := rfl
@[simp] theorem raiseIll_ill : s.raiseIll.ill = true := rfl
@[simp] theorem raiseIll_queue : s.raiseIll.queue = s.queue := rfl
@[simp] theorem raiseIll_offered : s.raiseIll.offered = s.offered := rfl
@[simp] theorem raiseIll_offerWithin : s.raiseIll.offerWithin = s.offerWithin := rfl
@[simp] theorem raiseIll_readyWithin : s.raiseIll.readyWithin = s.readyWithin := rfl
@[simp] theorem raiseIll_held : s.raiseIll.held = s.held := rfl
@[simp] theorem raiseIll_edges : s.raiseIll.edges = s.edges := rfl
@[simp] theorem raiseIll_taken : s.raiseIll.taken = s.taken := rfl

@[simp] theorem clearFlags_wasReset : s.clearFlags.wasReset = s.wasReset := rfl
@[simp] theorem clearFlags_cfg : s.clearFlags.cfg = s.cfg := rfl
@[simp] theorem clearFlags_nf : s.clearFlags.nf = false := rfl
@[simp] theorem clearFlags_ill : s.clearFlags.ill = false := rfl
@[simp] theorem clearFlags_queue : s.clearFlags.queue = s.queue := rfl
@[simp] theorem clearFlags_offered : s.clearFlags.offered = s.offered := rfl
@[simp] theorem clearFlags_offerWithin : s.clearFlags.offerWithin = s.offerWithin := rfl
@[simp] theorem clearFlags_readyWithin : s.clearFlags.readyWithin = s.readyWithin := rfl
@[simp] theorem clearFlags_held : s.clearFlags.held = s.held := rfl
@[simp] theorem clearFlags_edges : s.clearFlags.edges = s.edges := rfl
@[simp] theorem clearFlags_taken : s.clearFlags.taken = s.taken := rfl

end Flags

section Illegal
variable (s : State) (c : Byte)

@[simp] theorem takeIllegal_wasReset : (s.takeIllegal c).wasReset = s.wasReset := rfl
@[simp] theorem takeIllegal_cfg : (s.takeIllegal c).cfg = s.cfg := rfl
@[simp] theorem takeIllegal_nf : (s.takeIllegal c).nf = s.nf := rfl
@[simp] theorem takeIllegal_ill : (s.takeIllegal c).ill = true := rfl
@[simp] theorem takeIllegal_queue : (s.takeIllegal c).queue = s.queue ++ [illegalResponse c] := rfl
@[simp] theorem takeIllegal_offered : (s.takeIllegal c).offered = s.offered := rfl
@[simp] theorem takeIllegal_offerWithin : (s.takeIllegal c).offerWithin = s.offerWithin := rfl
@[simp] theorem takeIllegal_readyWithin : (s.takeIllegal c).readyWithin = s.readyWithin := rfl
@[simp] theorem takeIllegal_held : (s.takeIllegal c).held = s.held := rfl
@[simp] theorem takeIllegal_edges : (s.takeIllegal c).edges = s.edges := rfl
@[simp] theorem takeIllegal_taken : (s.takeIllegal c).taken = s.taken := rfl

end Illegal

section Edges
variable (s : State) (h : Option Request) (rest : List Edge)

@[simp] theorem closeEdge_wasReset : (s.closeEdge h rest).wasReset = s.wasReset := rfl
@[simp] theorem closeEdge_cfg : (s.closeEdge h rest).cfg = s.cfg := rfl
@[simp] theorem closeEdge_nf : (s.closeEdge h rest).nf = s.nf := rfl
@[simp] theorem closeEdge_ill : (s.closeEdge h rest).ill = s.ill := rfl
@[simp] theorem closeEdge_queue : (s.closeEdge h rest).queue = s.queue := rfl
@[simp] theorem closeEdge_offered : (s.closeEdge h rest).offered = s.offered := rfl
@[simp] theorem closeEdge_offerWithin : (s.closeEdge h rest).offerWithin = s.offerWithin := rfl
@[simp] theorem closeEdge_readyWithin : (s.closeEdge h rest).readyWithin = s.readyWithin := rfl
@[simp] theorem closeEdge_held : (s.closeEdge h rest).held = h := rfl
@[simp] theorem closeEdge_edges : (s.closeEdge h rest).edges = rest := rfl
@[simp] theorem closeEdge_taken : (s.closeEdge h rest).taken = s.taken := rfl

@[simp] theorem resetEdge_wasReset : s.resetEdge.wasReset = true := rfl
@[simp] theorem resetEdge_cfg : s.resetEdge.cfg = s.cfg := rfl
@[simp] theorem resetEdge_nf : s.resetEdge.nf = false := rfl
@[simp] theorem resetEdge_ill : s.resetEdge.ill = false := rfl
@[simp] theorem resetEdge_queue : s.resetEdge.queue = [] := rfl
@[simp] theorem resetEdge_offered : s.resetEdge.offered = false := rfl
@[simp] theorem resetEdge_offerWithin : s.resetEdge.offerWithin = none := rfl
@[simp] theorem resetEdge_readyWithin : s.resetEdge.readyWithin = none := rfl
@[simp] theorem resetEdge_held : s.resetEdge.held = none := rfl
@[simp] theorem resetEdge_edges : s.resetEdge.edges = s.edges := rfl
@[simp] theorem resetEdge_taken : s.resetEdge.taken = s.taken := rfl

variable (e : Edge)

@[simp] theorem powerUpEdge_wasReset : (s.powerUpEdge e).wasReset = s.wasReset := rfl
@[simp] theorem powerUpEdge_cfg : (s.powerUpEdge e).cfg = s.cfg := rfl
@[simp] theorem powerUpEdge_nf : (s.powerUpEdge e).nf = e.unspecified.nf := rfl
@[simp] theorem powerUpEdge_ill : (s.powerUpEdge e).ill = e.unspecified.ill := rfl
@[simp] theorem powerUpEdge_queue : (s.powerUpEdge e).queue = e.unspecified.queue.take s.cfg.depth := rfl
@[simp] theorem powerUpEdge_offered : (s.powerUpEdge e).offered = false := rfl
@[simp] theorem powerUpEdge_offerWithin : (s.powerUpEdge e).offerWithin = none := rfl
@[simp] theorem powerUpEdge_readyWithin : (s.powerUpEdge e).readyWithin = none := rfl
@[simp] theorem powerUpEdge_held : (s.powerUpEdge e).held = none := rfl
@[simp] theorem powerUpEdge_edges : (s.powerUpEdge e).edges = s.edges := rfl
@[simp] theorem powerUpEdge_taken : (s.powerUpEdge e).taken = s.taken := rfl

end Edges

section Settle
variable (s : State) (e : Edge)

@[simp] theorem settleResponse_wasReset : (s.settleResponse e).wasReset = s.wasReset := by
  unfold State.settleResponse; split <;> rfl
@[simp] theorem settleResponse_cfg : (s.settleResponse e).cfg = s.cfg := by
  unfold State.settleResponse; split <;> rfl
@[simp] theorem settleResponse_nf : (s.settleResponse e).nf = s.nf := by
  unfold State.settleResponse; split <;> rfl
@[simp] theorem settleResponse_ill : (s.settleResponse e).ill = s.ill := by
  unfold State.settleResponse; split <;> rfl
@[simp] theorem settleResponse_held : (s.settleResponse e).held = s.held := by
  unfold State.settleResponse; split <;> rfl
@[simp] theorem settleResponse_edges : (s.settleResponse e).edges = s.edges := by
  unfold State.settleResponse; split <;> rfl

@[simp] theorem settleChannels_wasReset : (s.settleChannels e).wasReset = s.wasReset := settleResponse_wasReset s e
@[simp] theorem settleChannels_cfg : (s.settleChannels e).cfg = s.cfg := settleResponse_cfg s e
@[simp] theorem settleChannels_nf : (s.settleChannels e).nf = s.nf := settleResponse_nf s e
@[simp] theorem settleChannels_ill : (s.settleChannels e).ill = s.ill := settleResponse_ill s e
@[simp] theorem settleChannels_held : (s.settleChannels e).held = s.held := settleResponse_held s e
@[simp] theorem settleChannels_edges : (s.settleChannels e).edges = s.edges := settleResponse_edges s e
@[simp] theorem settleChannels_offerWithin : (s.settleChannels e).offerWithin = s.nextOfferWithin e := rfl
@[simp] theorem settleChannels_readyWithin : (s.settleChannels e).readyWithin = s.nextReadyWithin e := rfl

theorem settleChannels_queue :
    (s.settleChannels e).queue = if s.delivers e then s.queue.tail else s.queue := by
  unfold State.settleChannels State.settleResponse; split <;> rfl

theorem settleChannels_taken :
    (s.settleChannels e).taken = if s.delivers e then s.taken ++ s.queue.take 1 else s.taken := by
  unfold State.settleChannels State.settleResponse; split <;> rfl

theorem settleChannels_offered :
    (s.settleChannels e).offered = if s.delivers e then false else s.rspValid e := by
  unfold State.settleChannels State.settleResponse; split <;> rfl

/-- A delivery moves the head of `Q` to the host and loses nothing. -/
@[simp] theorem settleChannels_responses : (s.settleChannels e).responses = s.responses := by
  unfold State.responses
  rw [settleChannels_queue, settleChannels_taken]
  split
  · cases h : s.queue <;> simp
  · rfl

end Settle

end Sys2Proof.Machine
end

