-- ==== Sys2Proof/Laws/Ops.lean ====
section
/-! SUPPORT. What the shared operations can do, said once: executing a command, one edge, and the channel
conditions. -/

namespace Sys2Proof.Machine

/-- A sine command either answers its lanes and may raise NF, or is ILLEGAL. -/
theorem sineCommand_cases (f : Word → LaneResult) (c : Byte) (W : LaneCount) (x : Lanes) (s : State) :
    (W.count ≤ s.cfg.lanes.count ∧ sineCommand f c W x s =
      .next ((s.raiseNf (sineResponse f c W x).nf).respond (sineResponse f c W x))) ∨
    (s.cfg.lanes.count < W.count ∧ sineCommand f c W x s = .next (s.takeIllegal c)) := by
  unfold sineCommand
  by_cases h : W.count ≤ s.cfg.lanes.count
  · exact .inl ⟨h, by simp [h]⟩
  · exact .inr ⟨by omega, by simp [h]⟩

/-- Every command goes on, and all it can do is set the two flags and append one record that carries its
command word. -/
theorem exec_cases (i : Instr) (s : State) :
    ∃ (nf ill : Bool) (p : Response), p.cmd = i.word ∧
      exec i s = .next { s with nf := nf, ill := ill, queue := s.queue ++ [p] } := by
  have sine (f : Word → LaneResult) (c : Byte) (W : LaneCount) (x : Lanes) (h : c = i.word) :
      ∃ (nf ill : Bool) (p : Response), p.cmd = i.word ∧
        sineCommand f c W x s = .next { s with nf := nf, ill := ill, queue := s.queue ++ [p] } := by
    obtain ⟨-, he⟩ | ⟨-, he⟩ := sineCommand_cases f c W x s
    · exact ⟨s.nf || (sineResponse f c W x).nf != 0#4, s.ill, sineResponse f c W x, h, he⟩
    · exact ⟨s.nf, true, illegalResponse c, h, he⟩
  cases i with
  | sinW1 x0 => exact sine sinLane 0x00 .one _ rfl
  | sinW2 x0 x1 => exact sine sinLane 0x04 .two _ rfl
  | sinW4 x0 x1 x2 x3 => exact sine sinLane 0x08 .four _ rfl
  | sintW1 x0 => exact sine sintLane 0x01 .one _ rfl
  | sintW2 x0 x1 => exact sine sintLane 0x05 .two _ rfl
  | sintW4 x0 x1 x2 x3 => exact sine sintLane 0x09 .four _ rfl
  | rdstat => exact ⟨s.nf, s.ill, statusResponse 0x02 s.statusWord, rfl, rfl⟩
  | rdclrstat => exact ⟨false, false, statusResponse 0x12 s.statusWord, rfl, rfl⟩

/-- A command reads and writes neither the channels nor the coming edges. -/
theorem exec_withEdges {i : Instr} {s t : State} (es : List Edge) (h : exec i s = .next t) :
    exec i { s with edges := es } = .next { t with edges := es } := by
  have sine (f : Word → LaneResult) (c : Byte) (W : LaneCount) (x : Lanes) (h : sineCommand f c W x s = .next t) :
      sineCommand f c W x { s with edges := es } = .next { t with edges := es } := by
    unfold sineCommand at h ⊢
    split at h <;> rename_i hl
    · rw [if_pos hl, ← Host.Outcome.next.inj h]
      rfl
    · rw [if_neg hl, ← Host.Outcome.next.inj h]
      rfl
  cases i with
  | sinW1 x0 => exact sine _ _ _ _ h
  | sinW2 x0 x1 => exact sine _ _ _ _ h
  | sinW4 x0 x1 x2 x3 => exact sine _ _ _ _ h
  | sintW1 x0 => exact sine _ _ _ _ h
  | sintW2 x0 x1 => exact sine _ _ _ _ h
  | sintW4 x0 x1 x2 x3 => exact sine _ _ _ _ h
  | rdstat =>
    rw [← Host.Outcome.next.inj h]
    rfl
  | rdclrstat =>
    rw [← Host.Outcome.next.inj h]
    rfl

/-- One edge, every case: no edge to come, a reset, an edge before the first reset, a request transfer, no request
transfer, or a host that changed its request. -/
theorem step_cases (s : State) :
    (s.edges = [] ∧ step s = .next s) ∨
    ∃ e rest, s.edges = e :: rest ∧
      ((e.rst = true ∧ step s = .next { s.resetEdge with edges := rest }) ∨
       (e.rst = false ∧ s.wasReset = false ∧ step s = .next { s.powerUpEdge e with edges := rest }) ∨
       (e.rst = false ∧ s.wasReset = true ∧ s.requestStable e = true ∧ s.accepts e = true ∧
          step s = andThen (executeRequest e.req (s.settleChannels e)) (·.closeEdge none rest)) ∨
       (e.rst = false ∧ s.wasReset = true ∧ s.requestStable e = true ∧ s.accepts e = false ∧
          step s = .next ((s.settleChannels e).closeEdge e.offer rest)) ∨
       (e.rst = false ∧ s.wasReset = true ∧ s.requestStable e = false ∧ step s = .refused .requestChanged)) := by
  unfold step
  cases hE : s.edges with
  | nil => exact .inl ⟨rfl, rfl⟩
  | cons e rest =>
    refine .inr ⟨e, rest, rfl, ?_⟩
    cases hr : e.rst <;> cases hw : s.wasReset <;> cases hs : s.requestStable e <;> cases ha : s.accepts e <;>
      simp [hr, hw, hs, ha]

/-! ## The channel conditions -/

/-- No transfer and no response on offer in reset (70_reset_and_hazards.md R130). -/
theorem reset_quiet {e : Edge} (h : e.rst = true) (s : State) :
    s.accepts e = false ∧ s.rspValid e = false ∧ s.delivers e = false := by
  simp [State.accepts, State.rspValid, State.delivers, h]

/-- No transfer before the first reset (70_reset_and_hazards.md R134). -/
theorem powerUp_quiet {s : State} (h : s.wasReset = false) (e : Edge) :
    s.accepts e = false ∧ s.delivers e = false := by
  simp [State.accepts, State.delivers, h]

/-- `req_ready` after the first reset (70_reset_and_hazards.md R135). -/
theorem reqReady_eq {s : State} {e : Edge} (hw : s.wasReset = true) (hr : e.rst = false) :
    s.reqReady e = (s.hasRoom && (e.blockReady || decide (s.readyBound e = 0))) := by
  simp [State.reqReady, hw, hr]

/-- `rsp_valid` after the first reset (10_state.md R25; 70_reset_and_hazards.md R137). -/
theorem rspValid_eq {s : State} {e : Edge} (hw : s.wasReset = true) (hr : e.rst = false) :
    s.rspValid e = (!s.queue.isEmpty && (s.offered || e.blockOffer || decide (s.offerBound e = 0))) := by
  simp [State.rspValid, hw, hr]

/-- A request transfer needs a state after the first reset, an edge without reset, and room in `Q`. -/
theorem accepts_room {s : State} {e : Edge} (h : s.accepts e = true) : s.queue.length < s.cfg.depth := by
  simp only [State.accepts, Bool.and_eq_true, Bool.not_eq_true'] at h
  have hr := h.2
  rw [reqReady_eq h.1.1.1 h.1.1.2, Bool.and_eq_true] at hr
  simpa [State.hasRoom] using hr.1

/-- After the first reset, a response on offer comes from a non-empty queue. -/
theorem rspValid_nonempty {s : State} {e : Edge} (hw : s.wasReset = true) (h : s.rspValid e = true) :
    s.queue ≠ [] := by
  intro hq
  simp [State.rspValid, hw, hq] at h

/-- A delivery comes from a non-empty queue. -/
theorem delivers_nonempty {s : State} {e : Edge} (h : s.delivers e = true) : s.queue ≠ [] := by
  simp only [State.delivers, Bool.and_eq_true] at h
  exact rspValid_nonempty h.1.1 h.1.2

/-- A wait for `req_ready` counts down: while there is room and the wire is 0, its bound is not 0, and the next
edge's is one less (70_reset_and_hazards.md R135). -/
theorem readyBound_countdown {s : State} {e : Edge} (hw : s.wasReset = true) (hr : e.rst = false)
    (hroom : s.hasRoom = true) (h : s.reqReady e = false) :
    0 < s.readyBound e ∧ s.nextReadyWithin e = some (s.readyBound e - 1) := by
  refine ⟨?_, by simp [State.nextReadyWithin, hroom, h]⟩
  rw [reqReady_eq hw hr, hroom] at h
  simp at h
  omega

/-- A wait for `rsp_valid` counts down: while the head of `Q` is withheld from a host that takes, its bound is not
0, and the next edge's is one less (10_state.md R25). -/
theorem offerBound_countdown {s : State} {e : Edge} (hw : s.wasReset = true) (hr : e.rst = false)
    (hq : s.queue ≠ []) (ht : e.rspReady = true) (h : s.rspValid e = false) :
    0 < s.offerBound e ∧ s.nextOfferWithin e = some (s.offerBound e - 1) := by
  have hq' : s.queue.isEmpty = false := by simpa using hq
  refine ⟨?_, by simp [State.nextOfferWithin, hq', ht, h]⟩
  rw [rspValid_eq hw hr, hq'] at h
  simp at h
  omega

@[simp] theorem andThen_next (t : State) (f : State → State) : andThen (.next t) f = .next (f t) := rfl

@[simp] theorem stepN_zero (s : State) : stepN 0 s = .next s := rfl

/-- A run of n + 1 edges that goes on begins with an edge that goes on. -/
theorem stepN_succ {n : Nat} {s u : State} (h : stepN (n + 1) s = .next u) :
    ∃ t, step s = .next t ∧ stepN n t = .next u := by
  unfold stepN at h
  cases hs : step s with
  | next t => exact ⟨t, rfl, by simpa [hs] using h⟩
  | fault r => simp [hs] at h
  | refused r => simp [hs] at h

end Sys2Proof.Machine
end

