-- ==== Sys2Proof/Laws/Float.lean ====
section
/-! SUPPORT. Rounding: `roundHalfEven` is the nearest integer, ties to even, and `rneMag` is the nearest
binary32 magnitude, ties to the even word (00_scope.md R6). Magnitudes are in units of 2^-149, and a magnitude is
named by its code, the 31 bits below the sign. -/

namespace Sys2Proof.Machine

/-- The magnitude, in units of 2^-149, of the 31 bits c below the sign (00_scope.md R5). -/
def codeMag (c : Nat) : Nat :=
  if c / 2 ^ 23 = 0 then c % 2 ^ 23 else (2 ^ 23 + c % 2 ^ 23) * 2 ^ (c / 2 ^ 23 - 1)

/-- The least code that is no finite word's. -/
abbrev infCode : Nat := 255 * 2 ^ 23

theorem mag_eq_codeMag (w : Word) : mag w = codeMag (lowBits w).toNat := by
  have h : expField w = 0 ↔ (lowBits w).toNat / 2 ^ 23 = 0 := by
    rw [← expField_eq, BitVec.toNat_eq]
    rfl
  simp only [mag, codeMag, h, expField_eq, fracField_eq]

theorem isFinite_iff (w : Word) : isFinite w = true ↔ (lowBits w).toNat < infCode := by
  have h : isFinite w = true ↔ (expField w).toNat ≠ 255 := by
    simp [isFinite, BitVec.toNat_eq]
  have hl := (lowBits w).isLt
  rw [h, expField_eq]
  unfold infCode
  omega

/-- A significand m of at most 24 bits at shift b has the code b * 2^23 + m. -/
theorem codeMag_compose {b m : Nat} (hm : m ≤ 2 ^ 24) (hb : b = 0 ∨ 2 ^ 23 ≤ m) :
    codeMag (b * 2 ^ 23 + m) = m * 2 ^ b := by
  unfold codeMag
  by_cases h0 : m < 2 ^ 23
  · have : b = 0 := by omega
    subst this
    rw [Nat.zero_mul, Nat.zero_add, if_pos (by omega), pow_zero, Nat.mul_one]
    omega
  · by_cases h1 : m < 2 ^ 24
    · rw [show (b * 2 ^ 23 + m) / 2 ^ 23 = b + 1 by omega, show (b * 2 ^ 23 + m) % 2 ^ 23 = m - 2 ^ 23 by omega,
        if_neg (by omega), show 2 ^ 23 + (m - 2 ^ 23) = m by omega, Nat.add_sub_cancel]
    · have : m = 2 ^ 24 := by omega
      subst this
      rw [show (b * 2 ^ 23 + 2 ^ 24) / 2 ^ 23 = b + 2 by omega,
        show (b * 2 ^ 23 + 2 ^ 24) % 2 ^ 23 = 0 by omega, if_neg (by omega)]
      rw [show b + 2 - 1 = b + 1 by omega, pow_succ]
      ring

/-- The code of a magnitude grows with it. -/
theorem codeMag_lt_succ (c : Nat) : codeMag c < codeMag (c + 1) := by
  unfold codeMag
  by_cases h : (c + 1) % 2 ^ 23 = 0
  · by_cases h0 : c / 2 ^ 23 = 0
    · simp only [if_pos h0, h]
      rw [show (c + 1) / 2 ^ 23 = 1 by omega]
      simp
      omega
    · obtain ⟨e, he⟩ : ∃ e, c / 2 ^ 23 = e + 1 := ⟨c / 2 ^ 23 - 1, by omega⟩
      have hp : 0 < 2 ^ e := by positivity
      rw [if_neg h0, h, show (c + 1) / 2 ^ 23 = e + 2 by omega, he, if_neg (by omega),
        show c % 2 ^ 23 = 2 ^ 23 - 1 by omega, Nat.add_sub_cancel, show e + 2 - 1 = e + 1 by omega, pow_succ 2 e]
      norm_num
      omega
  · have h1 : (c + 1) / 2 ^ 23 = c / 2 ^ 23 := by omega
    have h2 : (c + 1) % 2 ^ 23 = c % 2 ^ 23 + 1 := by omega
    rw [h1, h2]
    split
    · omega
    · have hp : 0 < 2 ^ (c / 2 ^ 23 - 1) := by positivity
      nlinarith

theorem codeMag_strictMono : StrictMono codeMag := strictMono_nat_of_lt_succ codeMag_lt_succ

theorem codeMag_lt_iff {c c' : Nat} : codeMag c < codeMag c' ↔ c < c' := codeMag_strictMono.lt_iff_lt

theorem codeMag_le_iff {c c' : Nat} : codeMag c ≤ codeMag c' ↔ c ≤ c' := codeMag_strictMono.le_iff_le

theorem codeMag_inj {c c' : Nat} : codeMag c = codeMag c' ↔ c = c' := codeMag_strictMono.injective.eq_iff

/-- A code is at most doubled by the next one, from the least subnormal on. -/
theorem codeMag_double {c : Nat} (hc : 1 ≤ c) : codeMag (c + 1) ≤ 2 * codeMag c := by
  unfold codeMag
  by_cases h0 : c / 2 ^ 23 = 0
  · rw [if_pos h0]
    by_cases h1 : (c + 1) / 2 ^ 23 = 0
    · rw [if_pos h1]; omega
    · rw [if_neg h1, show (c + 1) / 2 ^ 23 = 1 by omega]; simp; omega
  · obtain ⟨e, he⟩ : ∃ e, c / 2 ^ 23 = e + 1 := ⟨c / 2 ^ 23 - 1, by omega⟩
    have hp : 0 < 2 ^ e := by positivity
    rw [if_neg h0, he, Nat.add_sub_cancel, if_neg (by omega)]
    by_cases h : (c + 1) % 2 ^ 23 = 0
    · rw [h, show (c + 1) / 2 ^ 23 = e + 2 by omega, show e + 2 - 1 = e + 1 by omega, pow_succ 2 e]
      nlinarith [Nat.zero_le (c % 2 ^ 23 * 2 ^ e)]
    · rw [show (c + 1) / 2 ^ 23 = e + 1 by omega, show (c + 1) % 2 ^ 23 = c % 2 ^ 23 + 1 by omega, Nat.add_sub_cancel]
      nlinarith [Nat.zero_le (c % 2 ^ 23 * 2 ^ e)]

/-- Every significand of at most 24 bits, shifted, is a magnitude. -/
theorem exists_code (b m : Nat) (hm : m < 2 ^ 24) : ∃ c, codeMag c = m * 2 ^ b := by
  induction b generalizing m with
  | zero => exact ⟨0 * 2 ^ 23 + m, codeMag_compose hm.le (.inl rfl)⟩
  | succ b ih =>
    by_cases h : 2 ^ 23 ≤ m
    · exact ⟨_, codeMag_compose hm.le (.inr h)⟩
    · obtain ⟨c, hc⟩ := ih (2 * m) (by omega)
      exact ⟨c, by rw [hc, pow_succ]; ring⟩

/-- The difference of two magnitudes within a factor of 2 is a magnitude. -/
theorem exists_code_sub {c c' : Nat} (h : codeMag c ≤ codeMag c') (h2 : codeMag c' ≤ 2 * codeMag c) :
    ∃ e, codeMag e = codeMag c' - codeMag c := by
  obtain ⟨M, s, hM, hlt, hs⟩ : ∃ M s, codeMag c = M * 2 ^ s ∧ M < 2 ^ 24 ∧ s = c / 2 ^ 23 - 1 := by
    unfold codeMag
    split
    · rename_i h0; exact ⟨_, _, by rw [h0]; simp; rfl, by omega, rfl⟩
    · exact ⟨_, _, rfl, by omega, rfl⟩
  obtain ⟨M', s', hM', hlt', hs'⟩ : ∃ M s, codeMag c' = M * 2 ^ s ∧ M < 2 ^ 24 ∧ s = c' / 2 ^ 23 - 1 := by
    unfold codeMag
    split
    · rename_i h0; exact ⟨_, _, by rw [h0]; simp; rfl, by omega, rfl⟩
    · exact ⟨_, _, rfl, by omega, rfl⟩
  have hcc : c ≤ c' := codeMag_le_iff.1 h
  obtain ⟨k, hk⟩ : ∃ k, s' = k + s := ⟨s' - s, by have := Nat.div_le_div_right (c := 2 ^ 23) hcc; omega⟩
  have hp : 0 < 2 ^ s := by positivity
  have hD : codeMag c' - codeMag c = (M' * 2 ^ k - M) * 2 ^ s := by
    rw [hM, hM', hk, pow_add, ← mul_assoc, Nat.sub_mul]
  rw [hD]
  apply exists_code
  have : M' * 2 ^ k * 2 ^ s ≤ 2 * M * 2 ^ s := by
    rw [hM, hM', hk, pow_add, ← mul_assoc, ← mul_assoc] at h2
    exact h2
  have := Nat.le_of_mul_le_mul_right this hp
  omega

/-- A magnitude below the binade of shift b, or a multiple of that binade's spacing. -/
theorem codeMag_coarse (c b : Nat) : codeMag c < 2 ^ 23 * 2 ^ b ∨ ∃ k, codeMag c = k * 2 ^ b := by
  unfold codeMag
  by_cases h0 : c / 2 ^ 23 = 0
  · left
    rw [if_pos h0]
    have hp : 1 ≤ 2 ^ b := Nat.one_le_two_pow
    have := Nat.mod_lt c (show 0 < 2 ^ 23 by norm_num)
    nlinarith
  · rw [if_neg h0]
    by_cases hb : b ≤ c / 2 ^ 23 - 1
    · right
      obtain ⟨e, he⟩ := Nat.exists_eq_add_of_le hb
      exact ⟨(2 ^ 23 + c % 2 ^ 23) * 2 ^ e, by rw [he, pow_add]; ring⟩
    · left
      have h1 : 2 ^ (c / 2 ^ 23 - 1 + 1) ≤ 2 ^ b := Nat.pow_le_pow_right (by norm_num) (by omega)
      have h2 := Nat.mod_lt c (show 0 < 2 ^ 23 by norm_num)
      have hp : 0 < 2 ^ (c / 2 ^ 23 - 1) := by positivity
      rw [pow_succ] at h1
      nlinarith

/-! ## The nearest integer -/

/-- `roundHalfEven` is an integer nearest n / d, and even if another is as near. -/
theorem roundHalfEven_nearest {n d : Nat} (hd : 0 < d) (u : Nat) :
    |(n : ℤ) - roundHalfEven n d * d| < |(n : ℤ) - u * d| ∨
      (|(n : ℤ) - roundHalfEven n d * d| = |(n : ℤ) - u * d| ∧ (u = roundHalfEven n d ∨ roundHalfEven n d % 2 = 0)) := by
  have hn : (d : ℤ) * (n / d : Nat) + (n % d : Nat) = n := by exact_mod_cast Nat.div_add_mod n d
  have hr : ((n % d : Nat) : ℤ) < d := by exact_mod_cast Nat.mod_lt n hd
  have hr0 : (0 : ℤ) ≤ (n % d : Nat) := by positivity
  have hd' : (0 : ℤ) < d := by exact_mod_cast hd
  unfold roundHalfEven
  generalize n / d = k at *
  generalize n % d = r at *
  have key : ∀ j : ℤ, (n : ℤ) - j * d = r + (k - j) * d := by intro j; rw [← hn]; ring
  have low : ∀ j : ℤ, j ≤ k → |(n : ℤ) - j * d| = r + (k - j) * d := by
    intro j hj
    rw [key, abs_of_nonneg]
    nlinarith
  have high : ∀ j : ℤ, k + 1 ≤ j → |(n : ℤ) - j * d| = (j - k) * d - r := by
    intro j hj
    rw [key, abs_of_neg]
    · ring
    · nlinarith
  split
  · rename_i h
    have hm := high ((k + 1 : Nat) : ℤ) (by push_cast; omega)
    rw [hm]
    push_cast
    by_cases hu : u ≤ k
    · rw [low u (by exact_mod_cast hu)]
      rcases h with h | ⟨h, hk⟩
      · left
        have : (0 : ℤ) ≤ (k - u) * d := mul_nonneg (by omega) hd'.le
        have : (2 : ℤ) * r > d := by exact_mod_cast h
        linarith
      · have h2 : (2 : ℤ) * r = d := by exact_mod_cast h
        by_cases hku : u = k
        · right
          subst hku
          refine ⟨by linarith, .inr (by omega)⟩
        · left
          have : (1 : ℤ) * d ≤ (k - u) * d := mul_le_mul_of_nonneg_right (by omega) hd'.le
          linarith
    · rw [high u (by omega)]
      by_cases hku : u = k + 1
      · right
        subst hku
        push_cast
        exact ⟨by ring, .inl rfl⟩
      · left
        have : (2 : ℤ) * d ≤ (u - k) * d := mul_le_mul_of_nonneg_right (by omega) hd'.le
        linarith
  · rename_i h
    push Not at h
    have hm := low (k : ℤ) le_rfl
    rw [hm]
    have h1 : (2 : ℤ) * r ≤ d := by exact_mod_cast h.1
    by_cases hu : u ≤ k
    · rw [low u (by exact_mod_cast hu)]
      by_cases hku : u = k
      · right
        subst hku
        exact ⟨rfl, .inl rfl⟩
      · left
        have : (1 : ℤ) * d ≤ (k - u) * d := mul_le_mul_of_nonneg_right (by omega) hd'.le
        linarith
    · rw [high u (by omega)]
      by_cases hlt : 2 * (r : ℤ) < d
      · left
        have : (1 : ℤ) * d ≤ (u - k) * d := mul_le_mul_of_nonneg_right (by omega) hd'.le
        linarith
      · have h2 : 2 * (r : ℤ) = d := by omega
        by_cases hku : u = k + 1
        · right
          subst hku
          push_cast
          exact ⟨by linarith, .inr (by have := h.2 (by exact_mod_cast h2); omega)⟩
        · left
          have : (2 : ℤ) * d ≤ (u - k) * d := mul_le_mul_of_nonneg_right (by omega) hd'.le
          linarith

theorem roundHalfEven_bounds (n d : Nat) : n / d ≤ roundHalfEven n d ∧ roundHalfEven n d ≤ n / d + 1 := by
  unfold roundHalfEven
  split <;> omega

theorem roundHalfEven_exact {k d : Nat} (hd : 0 < d) : roundHalfEven (k * d) d = k := by
  unfold roundHalfEven
  have h : k * d % d = 0 := Nat.mul_mod_left k d
  have h' : k * d / d = k := Nat.mul_div_cancel k hd
  rw [h, h']
  split
  · omega
  · rfl

/-! ## The nearest magnitude -/

/-- The significand and the shift `rneMag` uses. -/
theorem rneMag_parts {n d : Nat} (hd : 0 < d) (hr : n ≤ (2 ^ 24 - 1) * 2 ^ 253 * d) :
    ∃ b m, b = droppedBits n d ∧ m = roundHalfEven n (d * 2 ^ b) ∧ m ≤ 2 ^ 24 ∧
      (b = 0 ∨ (2 ^ 23 ≤ m ∧ 2 ^ 23 * 2 ^ b * d ≤ n)) ∧
      (rneMag n d).toNat = b * 2 ^ 23 + m ∧ b * 2 ^ 23 + m < infCode := by
  have hD : 0 < d * 2 ^ droppedBits n d := by positivity
  refine ⟨droppedBits n d, _, rfl, rfl, ?_⟩
  set b := droppedBits n d with hb
  set q := n / d with hq
  have hqn : q * d ≤ n := Nat.div_mul_le_self n d
  have hqd : n / (d * 2 ^ b) = q / 2 ^ b := by rw [hq, Nat.div_div_eq_div_mul]
  have hb' : b = Nat.log2 q - 23 := rfl
  have hqlt : q < 2 ^ 24 * 2 ^ b := by
    have h1 : q < 2 ^ (Nat.log2 q + 1) := Nat.lt_log2_self
    refine h1.trans_le ?_
    rw [← pow_add]
    exact Nat.pow_le_pow_right (by norm_num) (by omega)
  have hk : n / (d * 2 ^ b) < 2 ^ 24 := by
    rw [hqd]
    exact Nat.div_lt_of_lt_mul (by linarith)
  have hm := roundHalfEven_bounds n (d * 2 ^ b)
  have hge : b = 0 ∨ (2 ^ 23 * 2 ^ b ≤ q) := by
    by_cases h0 : b = 0
    · exact .inl h0
    · right
      have hq0 : q ≠ 0 := by rintro h; rw [h] at hb'; simp at hb'; exact h0 hb'
      rw [← pow_add, show 23 + b = Nat.log2 q by omega]
      exact Nat.log2_self_le hq0
  have hge' : b = 0 ∨ (2 ^ 23 ≤ roundHalfEven n (d * 2 ^ b) ∧ 2 ^ 23 * 2 ^ b * d ≤ n) := by
    refine hge.imp id fun h => ⟨?_, ?_⟩
    · refine le_trans ?_ hm.1
      rw [hqd]
      exact (Nat.le_div_iff_mul_le (by positivity)).2 h
    · exact (Nat.mul_le_mul_right d h).trans hqn
  have hb253 : b ≤ 253 := by
    by_contra hc
    have h1 : 2 ^ 23 * 2 ^ 254 ≤ q := by
      rcases hge with h | h
      · omega
      · refine le_trans ?_ h
        exact Nat.mul_le_mul_left _ (Nat.pow_le_pow_right (by norm_num) (by omega))
    have h2 : 2 ^ 23 * 2 ^ 254 * d ≤ (2 ^ 24 - 1) * 2 ^ 253 * d := ((Nat.mul_le_mul_right d h1).trans hqn).trans hr
    have h3 := Nat.le_of_mul_le_mul_right h2 hd
    norm_num at h3
  have hfin : b * 2 ^ 23 + roundHalfEven n (d * 2 ^ b) < infCode := by
    unfold infCode
    by_cases h : b = 253
    · have hle : n ≤ (2 ^ 24 - 1) * (d * 2 ^ b) := by
        rw [h]
        linarith
      have hmle : roundHalfEven n (d * 2 ^ b) ≤ 2 ^ 24 - 1 := by
        by_contra hc
        have h1 := roundHalfEven_nearest (n := n) hD (2 ^ 24 - 1)
        have h2 : ((2 ^ 24 - 1 : ℤ)) * (d * 2 ^ b : Nat) + (d * 2 ^ b : Nat) ≤
            (roundHalfEven n (d * 2 ^ b) : ℤ) * (d * 2 ^ b : Nat) := by
          have : (2 ^ 24 : ℤ) ≤ roundHalfEven n (d * 2 ^ b) := by
            have : 2 ^ 24 ≤ roundHalfEven n (d * 2 ^ b) := by omega
            exact_mod_cast this
          have := mul_le_mul_of_nonneg_right this (show (0 : ℤ) ≤ (d * 2 ^ b : Nat) by positivity)
          linarith
        have h3 : (n : ℤ) ≤ (2 ^ 24 - 1) * (d * 2 ^ b : Nat) := by
          norm_num at hle ⊢
          exact_mod_cast hle
        have hD' : (0 : ℤ) < (d * 2 ^ b : Nat) := by exact_mod_cast hD
        rw [abs_of_nonpos (by linarith), abs_of_nonpos (by push_cast at h3 ⊢; linarith)] at h1
        push_cast at h1 h2 h3 hD'
        rcases h1 with h1 | h1 <;> linarith
      omega
    · have : b ≤ 252 := by omega
      have := hm.2
      omega
  refine ⟨by omega, hge', ?_, hfin⟩
  have : (rneMag n d).toNat = (b * 2 ^ 23 + roundHalfEven n (d * 2 ^ b)) % 2 ^ 31 := by
    simp only [rneMag, BitVec.toNat_ofNat, ← hb]
  rw [this]
  unfold infCode at hfin
  omega

/-- `rneMag n d` is a finite code whose magnitude is nearest n / d, and even if one of another magnitude is as
near (00_scope.md R6). -/
theorem rneMag_nearest {n d : Nat} (hd : 0 < d) (hr : n ≤ (2 ^ 24 - 1) * 2 ^ 253 * d) :
    (rneMag n d).toNat < infCode ∧ ∀ c : Nat,
      |(n : ℤ) - codeMag (rneMag n d).toNat * d| < |(n : ℤ) - codeMag c * d| ∨
      (|(n : ℤ) - codeMag (rneMag n d).toNat * d| = |(n : ℤ) - codeMag c * d| ∧
        (c = (rneMag n d).toNat ∨ (rneMag n d).toNat % 2 = 0)) := by
  obtain ⟨b, m, -, hm, hm24, hb, hc, hfin⟩ := rneMag_parts hd hr
  have hD : 0 < d * 2 ^ b := by positivity
  have hmag : codeMag (b * 2 ^ 23 + m) = m * 2 ^ b := codeMag_compose hm24 (hb.imp id And.left)
  rw [hc]
  refine ⟨hfin, fun c => ?_⟩
  have flip : ∀ k : Nat, ((k * 2 ^ b : Nat) : ℤ) * d = (k : ℤ) * (d * 2 ^ b : Nat) := by
    intro k; push_cast; ring
  have near := fun u => roundHalfEven_nearest (n := n) hD u
  rw [hmag, flip]
  rcases codeMag_coarse c b with hlow | ⟨k, hk⟩
  · by_cases hb0 : b = 0
    · have h := near (codeMag c)
      rw [← hm] at h
      subst hb0
      simp only [pow_zero, mul_one] at h ⊢
      refine h.imp id fun h => ⟨h.1, h.2.imp (fun h => ?_) (fun h => by omega)⟩
      apply codeMag_strictMono.injective
      rw [hmag]
      simpa using h
    · obtain ⟨h23, hn⟩ := hb.resolve_left hb0
      left
      have h := near (2 ^ 23)
      rw [← hm] at h
      have e1 : ((2 ^ 23 : Nat) : ℤ) * (d * 2 ^ b : Nat) ≤ n := by
        have : 2 ^ 23 * (d * 2 ^ b) ≤ n := by linarith
        exact_mod_cast this
      have e2 : (codeMag c : ℤ) * d < ((2 ^ 23 : Nat) : ℤ) * (d * 2 ^ b : Nat) := by
        rw [← flip]
        have hd' : (0 : ℤ) < d := by exact_mod_cast hd
        have : (codeMag c : ℤ) < (2 ^ 23 * 2 ^ b : Nat) := by exact_mod_cast hlow
        exact mul_lt_mul_of_pos_right this hd'
      have e3 : |(n : ℤ) - ((2 ^ 23 : Nat) : ℤ) * (d * 2 ^ b : Nat)| < |(n : ℤ) - codeMag c * d| := by
        rw [abs_of_nonneg (by linarith), abs_of_nonneg (by linarith)]
        linarith
      rcases h with h | h <;> linarith [h]
  · have h := near k
    rw [← hm] at h
    rw [hk, flip]
    refine h.imp id fun h => ⟨h.1, h.2.imp (fun h => ?_) (fun h => by omega)⟩
    apply codeMag_strictMono.injective
    rw [hk, hmag, h]

/-- A value at most a representable magnitude rounds to at most it. -/
theorem rneMag_le {n d c : Nat} (hd : 0 < d) (hc : c < infCode) (h : n ≤ codeMag c * d) :
    (rneMag n d).toNat ≤ c := by
  have hmax : codeMag c ≤ (2 ^ 24 - 1) * 2 ^ 253 := by
    have : codeMag c ≤ codeMag (infCode - 1) := codeMag_le_iff.2 (by omega)
    refine this.trans ?_
    decide +kernel
  by_contra hlt
  obtain ⟨-, hn⟩ := rneMag_nearest hd (h.trans (Nat.mul_le_mul_right d hmax))
  have h1 : codeMag c * d < codeMag (rneMag n d).toNat * d :=
    Nat.mul_lt_mul_of_pos_right (codeMag_lt_iff.2 (by omega)) hd
  have h1' : (codeMag c : ℤ) * d < codeMag (rneMag n d).toNat * d := by exact_mod_cast h1
  have h' : (n : ℤ) ≤ codeMag c * d := by exact_mod_cast h
  have := hn c
  rw [abs_of_neg (by linarith), abs_of_nonpos (by linarith)] at this
  rcases this with h | h <;> linarith

/-- A value at least a representable magnitude, and in range, rounds to at least it. -/
theorem le_rneMag {n d c : Nat} (hd : 0 < d) (hr : n ≤ (2 ^ 24 - 1) * 2 ^ 253 * d) (h : codeMag c * d ≤ n) :
    c ≤ (rneMag n d).toNat := by
  by_contra hlt
  obtain ⟨-, hn⟩ := rneMag_nearest hd hr
  have h1 : codeMag (rneMag n d).toNat * d < codeMag c * d :=
    Nat.mul_lt_mul_of_pos_right (codeMag_lt_iff.2 (by omega)) hd
  have h1' : (codeMag (rneMag n d).toNat : ℤ) * d < codeMag c * d := by exact_mod_cast h1
  have h' : (codeMag c : ℤ) * d ≤ n := by exact_mod_cast h
  have := hn c
  rw [abs_of_nonneg (by linarith), abs_of_nonneg (by linarith)] at this
  rcases this with h | h <;> linarith

/-- A representable magnitude rounds to itself. -/
theorem rneMag_exact {n d c : Nat} (hd : 0 < d) (hc : c < infCode) (h : n = codeMag c * d) :
    (rneMag n d).toNat = c := by
  have hmax : codeMag c ≤ (2 ^ 24 - 1) * 2 ^ 253 := by
    have : codeMag c ≤ codeMag (infCode - 1) := codeMag_le_iff.2 (by omega)
    refine this.trans ?_
    decide +kernel
  exact le_antisymm (rneMag_le hd hc h.le)
    (le_rneMag hd (h.le.trans (Nat.mul_le_mul_right d hmax)) h.ge)

end Sys2Proof.Machine
end

