-- ==== Sys2Proof/Laws/Values.lean ====
section
/-! SUPPORT. The real value of a word and its magnitude in units of 2^-149 (00_scope.md R5), and what the four
rounded operations do to codes and magnitudes. -/

namespace Sys2Proof.Machine

@[simp] theorem mag_withSign (s : Bool) (m : BitVec 31) : mag (withSign s m) = codeMag m.toNat := by
  rw [mag_eq_codeMag, lowBits_withSign]

@[simp] theorem isFinite_withSign (s : Bool) (m : BitVec 31) : isFinite (withSign s m) = true ↔ m.toNat < infCode := by
  rw [isFinite_iff, lowBits_withSign]

@[simp] theorem mag_negate (w : Word) : mag (negate w) = mag w := by
  rw [mag_eq_codeMag, mag_eq_codeMag, lowBits_negate]

theorem isFinite_negate (w : Word) : isFinite (negate w) = isFinite w := by
  rw [Bool.eq_iff_iff, isFinite_iff, isFinite_iff, lowBits_negate]

/-- A finite magnitude is at most the largest one. -/
theorem mag_le_max {w : Word} (h : isFinite w = true) : mag w ≤ (2 ^ 24 - 1) * 2 ^ 253 := by
  rw [isFinite_iff] at h
  rw [mag_eq_codeMag]
  have : codeMag (lowBits w).toNat ≤ codeMag (infCode - 1) := codeMag_le_iff.2 (by omega)
  refine this.trans ?_
  decide +kernel

/-- The magnitude, in units of 2^-149, is `|val(w)|`, sign apart (00_scope.md R5). -/
theorem valQ_eq (w : Word) : valQ w = (if signBit w then -1 else 1) * ((mag w : ℚ) / 2 ^ 149) := by
  have he : expField w = 0 ↔ (expField w).toNat = 0 := by
    rw [BitVec.toNat_eq]
    rfl
  unfold valQ mag
  congr 1
  by_cases h : (expField w).toNat = 0
  · rw [if_pos h, if_pos (he.2 h), zpow_neg, zpow_ofNat]
    field_simp
  · rw [if_neg h, if_neg (fun hc => h (he.1 hc))]
    obtain ⟨e, hE⟩ : ∃ e, (expField w).toNat = e + 1 := ⟨(expField w).toNat - 1, by omega⟩
    rw [hE, Nat.add_sub_cancel]
    have h2 : ((2 : ℚ) ^ (((e + 1 : ℕ) : ℤ) - 127)) = 2 ^ e / 2 ^ 126 := by
      rw [show (((e + 1 : ℕ) : ℤ) - 127) = (e : ℤ) - (126 : ℕ) by push_cast; ring, zpow_sub₀ (by norm_num),
        zpow_natCast, zpow_natCast]
    rw [h2]
    push_cast
    field_simp
    ring

theorem abs_valQ (w : Word) : |valQ w| = (mag w : ℚ) / 2 ^ 149 := by
  have h : (0 : ℚ) ≤ (mag w : ℚ) / 2 ^ 149 := by positivity
  rw [valQ_eq]
  split <;> simp [abs_of_nonneg h]

theorem units_valQ (w : Word) : (units w : ℚ) / 2 ^ 149 = valQ w := by
  rw [valQ_eq, units]
  split <;> push_cast <;> ring

theorem valQ_eq_zero (w : Word) : valQ w = 0 ↔ mag w = 0 := by
  rw [← abs_eq_zero, abs_valQ, div_eq_zero_iff]
  norm_num

theorem codeMag_zero : codeMag 0 = 0 := by decide

theorem mag_eq_zero (w : Word) : mag w = 0 ↔ lowBits w = 0 := by
  rw [mag_eq_codeMag, ← codeMag_zero, codeMag_inj, BitVec.toNat_eq]
  rfl

/-! ## Rounding to nearest, on values -/

theorem valQ_withSign (s : Bool) (m : BitVec 31) :
    valQ (withSign s m) = (if s then -1 else 1) * ((codeMag m.toNat : ℚ) / 2 ^ 149) := by
  rw [valQ_eq, signBit_withSign, mag_withSign]

theorem getLsbD_zero_iff (w : Word) : w.getLsbD 0 = false ↔ (lowBits w).toNat % 2 = 0 := by
  have h : (lowBits w).toNat = w.toNat % 2 ^ 31 := by simp [lowBits]
  rw [h, BitVec.getLsbD, Nat.testBit_zero]
  simp only [decide_eq_false_iff_not]
  omega

/-- The distance between a magnitude and n / d units, as a fraction of whole numbers. -/
theorem abs_units_sub (c n : Nat) {d : Nat} (hd : 0 < d) :
    |(c : ℚ) / 2 ^ 149 - (n : ℚ) / d / 2 ^ 149| = ((|(n : ℤ) - c * d| : ℤ) : ℚ) / (d * 2 ^ 149) := by
  have hdQ : (0 : ℚ) < d := by exact_mod_cast hd
  have hK : (0 : ℚ) < d * 2 ^ 149 := by positivity
  rw [show (c : ℚ) / 2 ^ 149 - (n : ℚ) / d / 2 ^ 149 = (c * d - n) / (d * 2 ^ 149) by field_simp, abs_div,
    abs_of_pos hK, abs_sub_comm]
  push_cast
  rfl

/-- A sign changes no distance. -/
theorem abs_sign (s : Bool) : |(if s then (-1 : ℚ) else 1)| = 1 := by cases s <;> simp

/-- Rounding a magnitude and restoring the sign is rounding to nearest, ties to even (00_scope.md R6). -/
theorem nearestEven_withSign (s : Bool) {n d : Nat} (hd : 0 < d) (hr : n ≤ (2 ^ 24 - 1) * 2 ^ 253 * d) :
    NearestEven ((if s then -1 else 1) * ((n : ℚ) / d / 2 ^ 149)) (withSign s (rneMag n d)) := by
  obtain ⟨hfin, hnear⟩ := rneMag_nearest hd hr
  refine ⟨(isFinite_withSign _ _).2 hfin, fun w' _ => ?_⟩
  have hdQ : (0 : ℚ) < d := by exact_mod_cast hd
  have hK : (0 : ℚ) < d * 2 ^ 149 := by positivity
  -- distances, in units of d * 2^149
  have h1 : |valQ (withSign s (rneMag n d)) - (if s then -1 else 1) * ((n : ℚ) / d / 2 ^ 149)| =
      ((|(n : ℤ) - codeMag (rneMag n d).toNat * d| : ℤ) : ℚ) / (d * 2 ^ 149) := by
    rw [valQ_withSign, ← mul_sub, abs_mul, abs_sign, one_mul, abs_units_sub _ _ hd]
  have h2 : ((|(n : ℤ) - codeMag (lowBits w').toNat * d| : ℤ) : ℚ) / (d * 2 ^ 149) ≤
      |valQ w' - (if s then -1 else 1) * ((n : ℚ) / d / 2 ^ 149)| := by
    have habs : |(if s then -1 else 1) * ((n : ℚ) / d / 2 ^ 149)| = (n : ℚ) / d / 2 ^ 149 := by
      rw [abs_mul, abs_sign, one_mul, abs_of_nonneg (by positivity)]
    have := abs_abs_sub_abs_le (valQ w') ((if s then -1 else 1) * ((n : ℚ) / d / 2 ^ 149))
    refine le_trans (le_of_eq ?_) this
    rw [habs, abs_valQ, mag_eq_codeMag, abs_units_sub _ _ hd]
  rw [h1]
  rcases hnear (lowBits w').toNat with hlt | ⟨heq, hc⟩
  · left
    refine lt_of_lt_of_le ?_ h2
    exact (div_lt_div_iff_of_pos_right hK).2 (by exact_mod_cast hlt)
  · rw [← heq] at h2
    rcases h2.lt_or_eq with hlt | he
    · exact .inl hlt
    · refine .inr ⟨he, ?_⟩
      rcases hc with hc | hc
      · left
        have hsame : |valQ w'| = |valQ (withSign s (rneMag n d))| := by
          rw [abs_valQ, abs_valQ, mag_eq_codeMag, hc, mag_withSign]
        rcases abs_eq_abs.1 hsame with h | h
        · exact h
        · rw [← h1, h] at he
          set a := valQ (withSign s (rneMag n d))
          set v := (if s then (-1 : ℚ) else 1) * ((n : ℚ) / d / 2 ^ 149) with hv
          have h0 : a = 0 ∨ v = 0 := by
            rcases abs_eq_abs.1 he with h' | h'
            · left; linarith
            · right; linarith
          rcases h0 with h0 | h0
          · rw [h, h0]; simp
          · have hn : n = 0 := by
              rw [hv] at h0
              have : (n : ℚ) / d / 2 ^ 149 = 0 := by
                cases s <;> simpa using h0
              have : (n : ℚ) = 0 := by
                rcases div_eq_zero_iff.1 this with h | h
                · rcases div_eq_zero_iff.1 h with h | h
                  · exact h
                  · exact absurd h hdQ.ne'
                · norm_num at h
              exact_mod_cast this
            have : a = 0 := by
              rw [valQ_eq_zero, mag_withSign]
              have : (rneMag n d).toNat = 0 := rneMag_exact hd (by decide) (by rw [hn, codeMag_zero]; simp)
              rw [this, codeMag_zero]
            rw [h, this]; simp
      · right
        rw [getLsbD_zero_iff, lowBits_withSign]; exact hc

theorem valQ_max : valQ maxFinite = (((2 ^ 24 - 1) * 2 ^ 253 : ℕ) : ℚ) / 2 ^ 149 := by
  have h := valQ_eq maxFinite
  rw [show mag maxFinite = (2 ^ 24 - 1) * 2 ^ 253 by decide +kernel, show signBit maxFinite = false by decide] at h
  rw [h]; simp

theorem valQ_negate (w : Word) : valQ (negate w) = - valQ w := by
  rw [valQ_eq, valQ_eq, mag_negate, signBit_negate]
  cases signBit w <;> simp

theorem abs_le_max {w : Word} (h : isFinite w = true) : |valQ w| ≤ valQ maxFinite := by
  rw [abs_valQ, valQ_max, div_le_div_iff_of_pos_right (by positivity)]
  exact_mod_cast mag_le_max h

/-- The rounded sum is the nearest word, ties to even (00_scope.md R6). -/
theorem rneSum_nearest {a b : Word} (h : |valQ a + valQ b| ≤ valQ maxFinite) :
    NearestEven (valQ a + valQ b) (rneSum a b) := by
  have hv : valQ a + valQ b = ((units a + units b : ℤ) : ℚ) / 2 ^ 149 := by
    rw [← units_valQ, ← units_valQ]; push_cast; ring
  rw [hv, valQ_max, abs_div, abs_of_pos (show (0 : ℚ) < 2 ^ 149 by positivity), div_le_div_iff_of_pos_right (by positivity)] at h
  rw [hv, rneSum]
  generalize units a + units b = z at h ⊢
  have hz : z.natAbs ≤ (2 ^ 24 - 1) * 2 ^ 253 := by
    have : |z| ≤ (((2 ^ 24 - 1) * 2 ^ 253 : ℕ) : ℤ) := by exact_mod_cast h
    rw [Int.abs_eq_natAbs] at this
    exact_mod_cast this
  have hzq : (z : ℚ) = (if decide (z < 0) then -1 else 1) * (z.natAbs : ℚ) := by
    have : ((z.natAbs : ℤ) : ℚ) = |(z : ℚ)| := by rw [← Int.cast_abs, Int.abs_eq_natAbs]
    rw [show (z.natAbs : ℚ) = ((z.natAbs : ℤ) : ℚ) by simp, this]
    by_cases hz0 : z < 0
    · simp [hz0, abs_of_neg (show (z : ℚ) < 0 by exact_mod_cast hz0)]
    · simp [hz0, abs_of_nonneg (show (0 : ℚ) ≤ z by exact_mod_cast (by omega : 0 ≤ z))]
  split
  · rename_i h0
    have := nearestEven_withSign (signBit a && signBit b) (n := 0) (d := 1) one_pos (by simp)
    rw [show rneMag 0 1 = 0 by decide] at this
    simpa [h0] using this
  · have := nearestEven_withSign (decide (z < 0)) (n := z.natAbs) (d := 1) one_pos (by simpa using hz)
    rw [hzq, mul_div_assoc]
    simpa using this

/-- The rounded product by a nonnegative fraction is the nearest word, ties to even. -/
theorem rneScale_nearest {num den : Nat} {b : Word} (hd : 0 < den) (h : |(num / den : ℚ) * valQ b| ≤ valQ maxFinite) :
    NearestEven ((num / den : ℚ) * valQ b) (rneScale num den b) := by
  have hdQ : (0 : ℚ) < den := by exact_mod_cast hd
  have hn : num * mag b ≤ (2 ^ 24 - 1) * 2 ^ 253 * den := by
    rw [abs_mul, abs_valQ, abs_of_nonneg (show (0 : ℚ) ≤ num / den by positivity), valQ_max, ← mul_div_assoc,
      div_le_div_iff_of_pos_right (by positivity), div_mul_eq_mul_div, div_le_iff₀ hdQ] at h
    exact_mod_cast h
  have := nearestEven_withSign (signBit b) hd hn
  rw [rneScale]
  convert this using 1
  rw [valQ_eq b]; push_cast; ring

/-- The rounded quotient is the nearest word, ties to even. -/
theorem rneQuot_nearest {a b : Word} (h0 : valQ b ≠ 0) (h : |valQ a / valQ b| ≤ valQ maxFinite) :
    NearestEven (valQ a / valQ b) (rneQuot a b) := by
  have hb : 0 < mag b := Nat.pos_of_ne_zero (fun hc => h0 ((valQ_eq_zero b).2 hc))
  have hbQ : (0 : ℚ) < mag b := by exact_mod_cast hb
  have hn : mag a * 2 ^ 149 ≤ (2 ^ 24 - 1) * 2 ^ 253 * mag b := by
    rw [abs_div, abs_valQ, abs_valQ, valQ_max, div_div_div_cancel_right₀ (by positivity), div_le_div_iff₀ hbQ (by positivity)] at h
    exact_mod_cast h
  have := nearestEven_withSign (signBit a ^^ signBit b) hb hn
  rw [rneQuot]
  have h2 : ((mag a * 2 ^ 149 : ℕ) : ℚ) / mag b / 2 ^ 149 = mag a / mag b := by
    have (x y K : ℚ) (hK : K ≠ 0) : x * K / y / K = x / y := by field_simp
    rw [Nat.cast_mul, Nat.cast_pow]
    exact this _ _ _ (by positivity)
  rw [h2] at this
  convert this using 1
  rw [valQ_eq a, valQ_eq b]
  have (x y K : ℚ) (hK : K ≠ 0) : (x / K) / (y / K) = x / y := by field_simp
  have := this (mag a) (mag b) (2 ^ 149) (by positivity)
  cases signBit a <;> cases signBit b <;> simp [neg_div, div_neg, this]

/-- A magnitude is a significand of at most 24 bits, shifted. -/
theorem mag_split (w : Word) : ∃ M s, mag w = M * 2 ^ s ∧ M < 2 ^ 24 ∧
    (M = if (expField w).toNat = 0 then (fracField w).toNat else (fracField w).toNat + 2 ^ 23) ∧
    (s = (expField w).toNat - 1) := by
  refine ⟨_, _, ?_, ?_, rfl, rfl⟩
  · have h : expField w = 0 ↔ (expField w).toNat = 0 := by rw [BitVec.toNat_eq]; rfl
    simp only [mag, h]
    split
    · rename_i h; simp [h]
    · ring
  · have := (fracField w).isLt
    split <;> omega

/-- A shifted significand of at most 24 bits, at most 1, is the value of a word. -/
theorem exists_word {m b : Nat} (hm : m < 2 ^ 24) (hb : m * 2 ^ b ≤ 2 ^ 149) :
    ∃ v : Word, isFinite v = true ∧ valQ v = ((m * 2 ^ b : ℕ) : ℚ) / 2 ^ 149 := by
  obtain ⟨c, hc⟩ := exists_code b m hm
  have hlt : c < infCode := by
    rw [← codeMag_lt_iff, hc]
    exact lt_of_le_of_lt hb (by decide +kernel)
  have hcn : (BitVec.ofNat 31 c).toNat = c := by
    have : c < 2 ^ 31 := lt_trans hlt (by decide)
    rw [BitVec.toNat_ofNat, Nat.mod_eq_of_lt this]
  refine ⟨withSign false (BitVec.ofNat 31 c), (isFinite_withSign _ _).2 (by rw [hcn]; exact hlt), ?_⟩
  rw [valQ_withSign, hcn, hc]; simp

/-- A shifted significand of at most 24 bits inside the finite range is, with either sign, the value of a word. -/
theorem exists_signed {m b : ℕ} (s : Bool) (hm : m ≤ 2 ^ 24) (hb : m * 2 ^ b ≤ (2 ^ 24 - 1) * 2 ^ 253) :
    ∃ v : Word, isFinite v = true ∧ valQ v = (if s then -1 else 1) * (((m * 2 ^ b : ℕ) : ℚ) / 2 ^ 149) := by
  obtain ⟨c, hc⟩ : ∃ c, codeMag c = m * 2 ^ b := by
    rcases hm.lt_or_eq with h | h
    · exact exists_code b m h
    · obtain ⟨c, hc⟩ := exists_code (b + 1) (2 ^ 23) (by norm_num)
      exact ⟨c, by rw [hc, h, pow_succ]; ring⟩
  have hlt : c < infCode := by
    rw [← codeMag_lt_iff, hc]
    exact lt_of_le_of_lt hb (by decide +kernel)
  have hcn : (BitVec.ofNat 31 c).toNat = c := by
    have : c < 2 ^ 31 := lt_trans hlt (by decide)
    rw [BitVec.toNat_ofNat, Nat.mod_eq_of_lt this]
  exact ⟨withSign s (BitVec.ofNat 31 c), (isFinite_withSign _ _).2 (by rw [hcn]; exact hlt), by rw [valQ_withSign, hcn, hc]⟩

/-- No finite word is nearer than the rounded one. -/
theorem nearest_le {v : ℚ} {w : Word} (h : NearestEven v w) {w' : Word} (hw : isFinite w' = true) : |valQ w - v| ≤ |valQ w' - v| := by
  rcases h.2 w' hw with h | h
  · exact h.le
  · exact h.1.le

/-- Rounding a value within 2^24 steps of a grid of words errs by at most half a step. -/
theorem nearest_err {v : ℚ} {w : Word} (h : NearestEven v w) (b : ℕ) (hb : b ≤ 229) (hv : |v| ≤ 2 ^ 24 * (2 ^ b / 2 ^ 149)) :
    |valQ w - v| ≤ 2 ^ b / 2 ^ 149 / 2 := by
  set g : ℚ := 2 ^ b / 2 ^ 149 with hg
  have hg0 : 0 < g := by positivity
  obtain ⟨k, hk⟩ : ∃ k : ℤ, k = round (v / g) := ⟨_, rfl⟩
  have hr := abs_sub_round (v / g)
  rw [← hk] at hr
  have hd : |(k : ℚ) * g - v| ≤ g / 2 := by
    have : (k : ℚ) * g - v = -((v / g - k) * g) := by field_simp; ring
    rw [this, abs_neg, abs_mul, abs_of_pos hg0]
    nlinarith
  have hkb : k.natAbs ≤ 2 ^ 24 := by
    have h1 : |v / g| ≤ 2 ^ 24 := by rw [abs_div, abs_of_pos hg0, div_le_iff₀ hg0]; exact hv
    have h2 : |(k : ℚ)| ≤ 2 ^ 24 + 1 / 2 := by
      have := abs_sub_abs_le_abs_sub (k : ℚ) (v / g)
      rw [abs_sub_comm] at this
      linarith
    have h3 : |k| < 2 ^ 24 + 1 := by
      have : |(k : ℚ)| < ((2 ^ 24 + 1 : ℤ) : ℚ) := by push_cast; linarith
      exact_mod_cast this
    rw [Int.abs_eq_natAbs] at h3
    omega
  obtain ⟨w', hf, hw'⟩ := exists_signed (m := k.natAbs) (b := b) (decide (k < 0)) hkb (by
    calc k.natAbs * 2 ^ b ≤ 2 ^ 24 * 2 ^ 229 := Nat.mul_le_mul hkb (Nat.pow_le_pow_right (by norm_num) hb)
      _ ≤ _ := by norm_num)
  have hval : valQ w' = (k : ℚ) * g := by
    rw [hw']
    have : (k : ℚ) = (if decide (k < 0) then -1 else 1) * (k.natAbs : ℚ) := by
      have : ((k.natAbs : ℤ) : ℚ) = |(k : ℚ)| := by rw [← Int.cast_abs, Int.abs_eq_natAbs]
      rw [show (k.natAbs : ℚ) = ((k.natAbs : ℤ) : ℚ) by simp, this]
      by_cases hz0 : k < 0
      · simp [hz0, abs_of_neg (show (k : ℚ) < 0 by exact_mod_cast hz0)]
      · simp [hz0, abs_of_nonneg (show (0 : ℚ) ≤ k by exact_mod_cast (by omega : 0 ≤ k))]
    rw [this, hg]; push_cast; ring
  have := nearest_le h hf
  rw [hval] at this
  linarith

/-- Rounding errs by at most half the spacing at the result. -/
theorem nearest_ulp {v : ℚ} {w : Word} (h : NearestEven v w) (hb : |valQ w| ≤ 2 ^ 126) : |valQ w - v| ≤ ulp w / 2 := by
  obtain ⟨M, s, hM, hlt, hMd, hs⟩ := mag_split w
  have hu : ulp w = 2 ^ s / 2 ^ 149 := by
    have : (((max (expField w).toNat 1 : Nat) : ℤ) - 150) = (s : ℤ) - (149 : ℕ) := by omega
    rw [ulp, this, zpow_sub₀ (by norm_num), zpow_natCast, zpow_natCast]
  set g : ℚ := 2 ^ s / 2 ^ 149 with hg
  have hg0 : 0 < g := by positivity
  rw [hu]
  by_contra hc
  push Not at hc
  have habs : |valQ w| = M * g := by rw [abs_valQ, hM, hg]; push_cast; ring
  obtain ⟨w', hf, hw'⟩ : ∃ w' : Word, isFinite w' = true ∧ valQ w' = if valQ w < v then valQ w + g else valQ w - g := by
    have hs' : s ≤ 252 := by
      by_contra hc
      have hE : (expField w).toNat ≠ 0 := by omega
      rw [if_neg hE] at hMd
      rw [habs] at hb
      have h1 : (2 : ℚ) ^ 23 ≤ M := by exact_mod_cast (by omega : 2 ^ 23 ≤ M)
      have h2 : (2 : ℚ) ^ 253 / 2 ^ 149 ≤ g := by
        rw [hg]; exact div_le_div_of_nonneg_right (pow_le_pow_right₀ (by norm_num) (by omega)) (by positivity)
      have : (2 : ℚ) ^ 23 * (2 ^ 253 / 2 ^ 149) ≤ M * g := mul_le_mul h1 h2 (by positivity) (by positivity)
      have : (2 : ℚ) ^ 126 < 2 ^ 23 * (2 ^ 253 / 2 ^ 149) := by norm_num
      linarith
    have hz : ∀ k : ℤ, k.natAbs ≤ 2 ^ 24 → ∃ w' : Word, isFinite w' = true ∧ valQ w' = k * g := by
      intro k hkb
      obtain ⟨w', hf, hw'⟩ := exists_signed (m := k.natAbs) (b := s) (decide (k < 0)) hkb (by
        calc k.natAbs * 2 ^ s ≤ 2 ^ 24 * 2 ^ 252 := Nat.mul_le_mul hkb (Nat.pow_le_pow_right (by norm_num) hs')
          _ ≤ _ := by norm_num)
      refine ⟨w', hf, ?_⟩
      rw [hw']
      have : (k : ℚ) = (if decide (k < 0) then -1 else 1) * (k.natAbs : ℚ) := by
        have : ((k.natAbs : ℤ) : ℚ) = |(k : ℚ)| := by rw [← Int.cast_abs, Int.abs_eq_natAbs]
        rw [show (k.natAbs : ℚ) = ((k.natAbs : ℤ) : ℚ) by simp, this]
        by_cases hz0 : k < 0
        · simp [hz0, abs_of_neg (show (k : ℚ) < 0 by exact_mod_cast hz0)]
        · simp [hz0, abs_of_nonneg (show (0 : ℚ) ≤ k by exact_mod_cast (by omega : 0 ≤ k))]
      rw [this, hg]; push_cast; ring
    have hw0 : valQ w = (if signBit w then -1 else 1) * (M : ℚ) * g := by
      rw [valQ_eq, hM, hg]; push_cast; ring
    obtain ⟨k, hk, hkw⟩ : ∃ k : ℤ, k.natAbs = M ∧ valQ w = k * g := by
      cases hsb : signBit w
      · exact ⟨M, by simp, by rw [hw0, hsb]; simp⟩
      · exact ⟨-M, by simp, by rw [hw0, hsb]; simp⟩
    split
    · obtain ⟨w', hf, hw'⟩ := hz (k + 1) (by omega)
      exact ⟨w', hf, by rw [hw', hkw]; push_cast; ring⟩
    · obtain ⟨w', hf, hw'⟩ := hz (k - 1) (by omega)
      exact ⟨w', hf, by rw [hw', hkw]; push_cast; ring⟩
  have := nearest_le h hf
  rw [hw'] at this
  split at this
  · rename_i hlt
    rw [abs_of_neg (by linarith)] at hc
    rw [abs_of_neg (show valQ w - v < 0 by linarith)] at this
    rcases abs_cases (valQ w + g - v) with h | h <;> linarith
  · rename_i hlt
    push Not at hlt
    rw [abs_of_nonneg (by linarith)] at hc
    rw [abs_of_nonneg (show 0 ≤ valQ w - v by linarith)] at this
    rcases abs_cases (valQ w - g - v) with h | h <;> linarith

/-! ## The four operations, on codes -/

/-- A product with a fraction at most 1 rounds to at most the factor. -/
theorem rneScale_le {num den : Nat} {b : Word} (hd : 0 < den) (hle : num ≤ den) (hb : isFinite b = true) :
    (lowBits (rneScale num den b)).toNat ≤ (lowBits b).toNat := by
  rw [rneScale, lowBits_withSign]
  refine rneMag_le hd ((isFinite_iff b).1 hb) ?_
  rw [mag_eq_codeMag, Nat.mul_comm]
  exact Nat.mul_le_mul_left _ hle

/-- A quotient by a word of magnitude at least 1 rounds to at most the dividend. -/
theorem rneQuot_le {a b : Word} (ha : isFinite a = true) (hb : 2 ^ 149 ≤ mag b) :
    (lowBits (rneQuot a b)).toNat ≤ (lowBits a).toNat := by
  rw [rneQuot, lowBits_withSign]
  refine rneMag_le (lt_of_lt_of_le (by positivity) hb) ((isFinite_iff a).1 ha) ?_
  rw [mag_eq_codeMag]
  exact Nat.mul_le_mul_left _ hb

/-- A whole number of units that is a magnitude is rounded to itself. -/
theorem units_withSign_decide (z : Int) (hz : ∃ c, codeMag c = z.natAbs) (hr : z.natAbs ≤ 2 ^ 149) :
    isFinite (withSign (decide (z < 0)) (rneMag z.natAbs 1)) = true ∧ units (withSign (decide (z < 0)) (rneMag z.natAbs 1)) = z := by
  obtain ⟨c, hc⟩ := hz
  have hlt : c < infCode := by
    rw [← codeMag_lt_iff, hc]
    exact lt_of_le_of_lt hr (by decide +kernel)
  have := rneMag_exact (n := z.natAbs) (d := 1) one_pos hlt (by simp [hc])
  constructor
  · rw [isFinite_withSign, this]; exact hlt
  · rw [units, signBit_withSign, mag_withSign, this, hc]
    split <;> rename_i h <;> simp at h <;> omega

/-- The rounding of a whole number of units stays between magnitudes that bracket it. -/
theorem rneSum_between {a b lo hi : Word} (hlo : (mag lo : Int) ≤ units a + units b) (hhi : units a + units b ≤ mag hi)
    (hf : isFinite hi = true) (hs : signBit a = false) :
    signBit (rneSum a b) = false ∧ (lowBits lo).toNat ≤ (lowBits (rneSum a b)).toNat ∧
      (lowBits (rneSum a b)).toNat ≤ (lowBits hi).toNat := by
  have hfin := (isFinite_iff hi).1 hf
  have hmax := mag_le_max hf
  unfold rneSum
  split
  · rename_i h0
    refine ⟨by rw [signBit_withSign, hs]; rfl, ?_, by rw [lowBits_withSign]; simp⟩
    have : mag lo = 0 := by omega
    rw [mag_eq_zero] at this
    rw [this]; simp
  · have hneg : ¬ units a + units b < 0 := by omega
    refine ⟨by rw [signBit_withSign]; simp; omega, ?_, ?_⟩ <;> rw [lowBits_withSign]
    · refine le_rneMag one_pos (by rw [mul_one]; omega) ?_
      rw [← mag_eq_codeMag]; omega
    · refine rneMag_le one_pos hfin ?_
      rw [← mag_eq_codeMag]; omega

theorem mag_rneScale_le {num den : Nat} {b : Word} (hd : 0 < den) (hle : num ≤ den) (hb : isFinite b = true) :
    mag (rneScale num den b) ≤ mag b := by
  rw [mag_eq_codeMag, mag_eq_codeMag, codeMag_le_iff]; exact rneScale_le hd hle hb

/-- 2 * `PI_F32` is 0xC90FDB / 2^21 (00_scope.md R8). -/
theorem mag_tau : mag tauF32 = 0xC90FDB * 2 ^ 128 := by decide +kernel

/-- The turns value of a finite radian word is finite (40_sine.md R72). -/
theorem radianToTurns_finite {w : Word} (h : isFinite w = true) : isFinite (radianToTurns w) = true := by
  rw [isFinite_iff] at h ⊢
  refine lt_of_le_of_lt (rneQuot_le ((isFinite_iff w).2 h) ?_) h
  rw [mag_tau]
  norm_num

/-- Both lane functions flag exactly the non-finite words (40_sine.md R71). -/
theorem sinLane_nf (w : Word) : (sinLane w).nf = !isFinite w := by
  unfold sinLane sintLane
  cases h : isFinite w
  · rfl
  · simp [radianToTurns_finite h]

end Sys2Proof.Machine
end

