-- ==== Sys2Proof/Laws/Commands.lean ====
section
/-! SUPPORT. What executing a command does, said once for the radian and turns commands together, for the status
commands and for illegal ones; and the fields of the response. -/

namespace Sys2Proof

@[simp] theorem count_one : LaneCount.one.count = 1 := rfl
@[simp] theorem count_two : LaneCount.two.count = 2 := rfl
@[simp] theorem count_four : LaneCount.four.count = 4 := rfl

theorem one_le_count (W : LaneCount) : 1 ≤ W.count := by cases W <;> decide

/-- The lanes a command needs are there (30_encoding.md R59). -/
theorem fits_iff (i : Instr) (lanes : LaneCount) : i.fits lanes = true ↔ i.lanesRead ≤ lanes.count := by
  cases i <;> cases lanes <;> simp [Instr.fits, Instr.lanesRead]

theorem isSine_iff (i : Instr) : i.isSine = true ↔ i ≠ .rdstat ∧ i ≠ .rdclrstat := by
  cases i <;> simp [Instr.isSine, Instr.lanesRead]

namespace Machine

/-! ## Bits -/

/-- The four `nf` bits as a number. -/
theorem nfBits_eq (a b c d : Bool) :
    nfBits a b c d = BitVec.ofNat 4 (a.toNat + 2 * b.toNat + 4 * c.toNat + 8 * d.toNat) := by
  revert a b c d
  decide

/-- Some `nf` bit is set. -/
theorem nfBits_ne_zero (a b c d : Bool) : (nfBits a b c d != 0#4) = (a || b || c || d) := by
  revert a b c d
  decide

theorem nfBits_get (f : Fin 4 → Bool) (k : Fin 4) : (nfBits (f 0) (f 1) (f 2) (f 3)).getLsbD k = f k := by
  have key : ∀ a b c d : Bool, (nfBits a b c d).getLsbD 0 = a ∧ (nfBits a b c d).getLsbD 1 = b ∧
      (nfBits a b c d).getLsbD 2 = c ∧ (nfBits a b c d).getLsbD 3 = d := by decide
  have := key (f 0) (f 1) (f 2) (f 3)
  fin_cases k
  · exact this.1
  · exact this.2.1
  · exact this.2.2.1
  · exact this.2.2.2

/-- The STATUS word as a number (10_state.md R12). -/
theorem statusWord_eq (s : State) : s.statusWord = statusValue s.cfg.lanes s.sticky := by
  unfold State.statusWord statusValue State.sticky
  generalize s.nf = a
  generalize s.ill = b
  generalize s.cfg.lanes = l
  cases l <;> cases a <;> cases b <;> decide

/-! ## The lanes of a sine response -/

theorem selectLane_nf (W : LaneCount) (f : Word → LaneResult) (k : Nat) (x : Word) :
    (selectLane W f k x).nf = (decide (k < W.count) && (f x).nf) := by
  unfold selectLane
  split <;> simp_all

theorem selectLane_y (W : LaneCount) (f : Word → LaneResult) (k : Nat) (x : Word) :
    (selectLane W f k x).y = if k < W.count then (f x).y else 0 := by
  unfold selectLane
  split <;> rfl

theorem sineResponse_y (f : Word → LaneResult) (c : Byte) (W : LaneCount) (x : Lanes) (k : Fin 4) :
    (sineResponse f c W x).y.get k = if k.val < W.count then (f (x.get k)).y else 0 := by
  fin_cases k <;> exact selectLane_y W f _ _

theorem sineResponse_nf (f : Word → LaneResult) (c : Byte) (W : LaneCount) (x : Lanes) (k : Fin 4) :
    (sineResponse f c W x).nf.getLsbD k = (decide (k.val < W.count) && (f (x.get k)).nf) := by
  refine (nfBits_get (fun j => (selectLane W f j (x.get j)).nf) k).trans ?_
  exact selectLane_nf W f _ _

@[simp] theorem sineResponse_ill (f : Word → LaneResult) (c : Byte) (W : LaneCount) (x : Lanes) :
    (sineResponse f c W x).ill = false := rfl

@[simp] theorem sineResponse_cmd (f : Word → LaneResult) (c : Byte) (W : LaneCount) (x : Lanes) :
    (sineResponse f c W x).cmd = c := rfl

theorem sineResponse_anyNf (f : Word → LaneResult) (c : Byte) (W : LaneCount) (x : Lanes) :
    ((sineResponse f c W x).nf != 0#4) =
      ((List.finRange 4).any fun k => decide (k.val < W.count) && (f (x.get k)).nf) := by
  refine (nfBits_ne_zero _ _ _ _).trans ?_
  simp only [selectLane_nf, List.finRange_succ, List.finRange_zero, List.any_cons, List.map_cons, List.map_nil,
    List.any_nil, Bool.or_false, Bool.or_assoc]
  rfl

/-! ## Executing a command -/

/-- Both lane functions flag exactly the non-finite words (40_sine.md R71). -/
theorem sintLane_nf (w : Word) : (sintLane w).nf = !isFinite w := by
  unfold sintLane
  cases isFinite w <;> rfl

/-- Every radian and turns command is its common body on its lanes (40_sine.md R92, R93). -/
theorem exec_sine {i : Instr} (h : i.isSine = true) (s : State) :
    ∃ W : LaneCount, W.count = i.lanesRead ∧ exec i s = sineCommand i.laneFunction i.word W i.operands s := by
  cases i with
  | sinW1 _ => exact ⟨.one, rfl, rfl⟩
  | sinW2 _ _ => exact ⟨.two, rfl, rfl⟩
  | sinW4 _ _ _ _ => exact ⟨.four, rfl, rfl⟩
  | sintW1 _ => exact ⟨.one, rfl, rfl⟩
  | sintW2 _ _ => exact ⟨.two, rfl, rfl⟩
  | sintW4 _ _ _ _ => exact ⟨.four, rfl, rfl⟩
  | rdstat => cases h
  | rdclrstat => cases h

/-- A radian or turns command that fits answers its lanes. -/
theorem exec_sine_fits {i : Instr} {s : State} (h : i.isSine = true) (hf : i.fits s.cfg.lanes = true) :
    ∃ W : LaneCount, W.count = i.lanesRead ∧ exec i s =
      .next ((s.raiseNf (sineResponse i.laneFunction i.word W i.operands).nf).respond
        (sineResponse i.laneFunction i.word W i.operands)) := by
  obtain ⟨W, hW, he⟩ := exec_sine h s
  refine ⟨W, hW, ?_⟩
  rw [fits_iff] at hf
  rw [he, sineCommand, if_pos (by omega)]

/-- A command too wide for the implementation is executed as an illegal one (30_encoding.md R59). -/
theorem exec_unfit {i : Instr} {s : State} (hf : i.fits s.cfg.lanes = false) :
    exec i s = .next (s.takeIllegal i.word) := by
  have hs : i.isSine = true := by
    rw [isSine_iff]
    constructor <;> rintro rfl <;> simp [Instr.fits] at hf
  obtain ⟨W, hW, he⟩ := exec_sine hs s
  have : ¬ i.lanesRead ≤ s.cfg.lanes.count := by
    rw [← fits_iff, hf]
    decide
  rw [he, sineCommand, if_neg (by omega)]

/-- The lane function of a radian or turns command flags exactly the non-finite words (40_sine.md R71). -/
theorem laneFunction_nf {i : Instr} (h : i.isSine = true) (w : Word) : (i.laneFunction w).nf = !isFinite w := by
  cases i with
  | rdstat => cases h
  | rdclrstat => cases h
  | sinW1 _ => exact sinLane_nf w
  | sinW2 _ _ => exact sinLane_nf w
  | sinW4 _ _ _ _ => exact sinLane_nf w
  | sintW1 _ => exact sintLane_nf w
  | sintW2 _ _ => exact sintLane_nf w
  | sintW4 _ _ _ _ => exact sintLane_nf w

/-- Some `nf` bit of the response is set exactly when an evaluated lane is non-finite. -/
theorem anyNf_eq {i : Instr} (h : i.isSine = true) {W : LaneCount} (hW : W.count = i.lanesRead) (c : Byte) :
    ((sineResponse i.laneFunction c W i.operands).nf != 0#4) = i.hasNonFinite := by
  rw [sineResponse_anyNf, Instr.hasNonFinite]
  simp only [laneFunction_nf h, hW]

/-- Equal next outcomes have equal states. -/
theorem next_inj {a b : State} (h : (Host.Outcome.next a : Result) = .next b) : a = b :=
  Host.Outcome.next.inj h

/-- A command that reads no lane is a status command. -/
theorem status_of_not_sine {i : Instr} (h : i.isSine = false) : i = .rdstat ∨ i = .rdclrstat := by
  have := isSine_iff i
  simp only [h, Bool.false_eq_true, false_iff, not_and, not_not] at this
  by_cases hr : i = .rdstat
  · exact .inl hr
  · exact .inr (this hr)

/-- Everything a command can do: an illegal command, the answered lanes, or a status command. -/
theorem exec_answers (i : Instr) (s : State) :
    (i.isSine = true ∧ i.fits s.cfg.lanes = false ∧ exec i s = .next (s.takeIllegal i.word)) ∨
    (i.isSine = true ∧ i.fits s.cfg.lanes = true ∧ ∃ W : LaneCount, W.count = i.lanesRead ∧ exec i s =
      .next ((s.raiseNf (sineResponse i.laneFunction i.word W i.operands).nf).respond
        (sineResponse i.laneFunction i.word W i.operands))) ∨
    (i = .rdstat ∧ exec i s = .next (s.respond (statusResponse 0x02 s.statusWord))) ∨
    (i = .rdclrstat ∧ exec i s = .next (s.clearFlags.respond (statusResponse 0x12 s.statusWord))) := by
  cases hs : i.isSine with
  | true =>
    cases hf : i.fits s.cfg.lanes with
    | false => exact .inl ⟨rfl, rfl, exec_unfit hf⟩
    | true => exact .inr (.inl ⟨rfl, rfl, exec_sine_fits hs hf⟩)
  | false =>
    obtain rfl | rfl := status_of_not_sine hs
    · exact .inr (.inr (.inl ⟨rfl, rfl⟩))
    · exact .inr (.inr (.inr ⟨rfl, rfl⟩))

/-- A request that decodes runs its command. -/
theorem executeRequest_ok {r : Request} {i : Instr} (h : decode r = .ok i) (s : State) :
    executeRequest r s = exec i s := by
  simp [executeRequest, h]

/-- A request that does not decode runs the illegal command. -/
theorem executeRequest_error {r : Request} {e : DecodeError} (h : decode r = .error e) (s : State) :
    executeRequest r s = .next (s.takeIllegal r.cmd) := by
  simp [executeRequest, h]

/-- Executing a request always goes on; all it can do is set the flags and append one record that carries its
command word. -/
theorem executeRequest_cases (r : Request) (s : State) :
    ∃ (nf ill : Bool) (p : Response), p.cmd = r.cmd ∧
      executeRequest r s = .next { s with nf := nf, ill := ill, queue := s.queue ++ [p] } := by
  cases h : decode r with
  | ok i =>
    rw [executeRequest_ok h, ← (decode_ok_iff.1 h).1]
    exact exec_cases i s
  | error e =>
    rw [executeRequest_error h]
    exact ⟨s.nf, true, illegalResponse r.cmd, rfl, rfl⟩

/-! ## One edge, in full -/

/-- The five things an edge that goes on can be: no edge, a reset, an edge before the first reset, an edge that
accepts, an edge that does not. -/
theorem step_next {s t : State} (h : step s = .next t) :
    (s.edges = [] ∧ t = s) ∨
    ∃ e rest, s.edges = e :: rest ∧
      ((e.rst = true ∧ t = { s.resetEdge with edges := rest }) ∨
       (e.rst = false ∧ s.wasReset = false ∧ t = { s.powerUpEdge e with edges := rest }) ∨
       (e.rst = false ∧ s.wasReset = true ∧ s.requestStable e = true ∧ s.accepts e = true ∧
          ∃ (nf ill : Bool) (p : Response), p.cmd = e.req.cmd ∧
          executeRequest e.req (s.settleChannels e) =
            .next { s.settleChannels e with nf := nf, ill := ill, queue := (s.settleChannels e).queue ++ [p] } ∧
          t = { s.settleChannels e with
            nf := nf, ill := ill, queue := (s.settleChannels e).queue ++ [p], held := none, edges := rest }) ∨
       (e.rst = false ∧ s.wasReset = true ∧ s.requestStable e = true ∧ s.accepts e = false ∧
          t = (s.settleChannels e).closeEdge e.offer rest)) := by
  obtain ⟨hE, hs⟩ | ⟨e, rest, hE, hc⟩ := step_cases s
  · exact .inl ⟨hE, next_inj (h.symm.trans hs)⟩
  · refine .inr ⟨e, rest, hE, ?_⟩
    obtain ⟨hr, hs⟩ | ⟨hr, hw, hs⟩ | ⟨hr, hw, hst, ha, hs⟩ | ⟨hr, hw, hst, ha, hs⟩ | ⟨hr, hw, hst, hs⟩ := hc
    · exact .inl ⟨hr, next_inj (h.symm.trans hs)⟩
    · exact .inr (.inl ⟨hr, hw, next_inj (h.symm.trans hs)⟩)
    · obtain ⟨nf, ill, p, hp, he⟩ := executeRequest_cases e.req (s.settleChannels e)
      rw [he, andThen_next] at hs
      exact .inr (.inr (.inl ⟨hr, hw, hst, ha, nf, ill, p, hp, he, next_inj (h.symm.trans hs)⟩))
    · exact .inr (.inr (.inr ⟨hr, hw, hst, ha, next_inj (h.symm.trans hs)⟩))
    · rw [h] at hs
      cases hs

/-- An edge that accepts goes on, with the answer of its request. -/
theorem step_accept {s : State} {e : Edge} {rest : List Edge} (hE : s.edges = e :: rest)
    (hst : s.requestStable e = true) (ha : s.accepts e = true) :
    ∃ (nf ill : Bool) (p : Response), p.cmd = e.req.cmd ∧
      executeRequest e.req (s.settleChannels e) =
        .next { s.settleChannels e with nf := nf, ill := ill, queue := (s.settleChannels e).queue ++ [p] } ∧
      step s = .next { s.settleChannels e with
        nf := nf, ill := ill, queue := (s.settleChannels e).queue ++ [p], held := none, edges := rest } := by
  obtain ⟨nf, ill, p, hp, he⟩ := executeRequest_cases e.req (s.settleChannels e)
  have hc : s.wasReset = true ∧ e.rst = false := by
    simp only [State.accepts, Bool.and_eq_true, Bool.not_eq_true'] at ha
    exact ha.1.1
  refine ⟨nf, ill, p, hp, he, ?_⟩
  simp [step, hE, hc, hst, ha, he]
  rfl

/-- The requests accepted at the first edge. -/
theorem acceptedAt_cons {s : State} {e : Edge} {rest : List Edge} (hE : s.edges = e :: rest) :
    acceptedAt s = if s.requestStable e && s.accepts e then [e.req] else [] := by
  simp [acceptedAt, hE]

end Machine

end Sys2Proof
end

