-- ==== Sys2Proof/Laws/PerInstr.lean ====
section
/-! SUPPORT. Statements per instruction: every command's request carries a legal word, and 0x00000000 on the lanes
the command does not read (30_encoding.md R55, R57, R62). -/

namespace Sys2Proof.Laws

/-- The request of i carries one of the eight legal words, and zeros from the first unused lane on. -/
def Encoded.Statement (i : Instr) : Prop :=
  (encode i).cmd ∈ Machine.legalWords ∧ ∀ k : Fin 4, i.lanesRead ≤ k.val → laneOfBus (encode i).x k = 0

/-- It is enough that the unused operands are zero. -/
theorem encoded_of {i : Instr} (h : ∀ k : Fin 4, i.lanesRead ≤ k.val → i.operands.get k = 0) :
    Encoded.Statement i :=
  ⟨word_mem i.kind, fun k hk => (laneOfBus_toBus _ k).trans (h k hk)⟩

theorem Encoded.sinW1 (x0 : Word) : Encoded.Statement (.sinW1 x0) :=
  encoded_of fun k h => by
    fin_cases k <;> first | rfl | exact absurd h (by simp [Instr.lanesRead])

theorem Encoded.sinW2 (x0 x1 : Word) : Encoded.Statement (.sinW2 x0 x1) :=
  encoded_of fun k h => by
    fin_cases k <;> first | rfl | exact absurd h (by simp [Instr.lanesRead])

theorem Encoded.sinW4 (x0 x1 x2 x3 : Word) : Encoded.Statement (.sinW4 x0 x1 x2 x3) :=
  encoded_of fun k h => by
    fin_cases k <;> first | rfl | exact absurd h (by simp [Instr.lanesRead])

theorem Encoded.sintW1 (x0 : Word) : Encoded.Statement (.sintW1 x0) :=
  encoded_of fun k h => by
    fin_cases k <;> first | rfl | exact absurd h (by simp [Instr.lanesRead])

theorem Encoded.sintW2 (x0 x1 : Word) : Encoded.Statement (.sintW2 x0 x1) :=
  encoded_of fun k h => by
    fin_cases k <;> first | rfl | exact absurd h (by simp [Instr.lanesRead])

theorem Encoded.sintW4 (x0 x1 x2 x3 : Word) : Encoded.Statement (.sintW4 x0 x1 x2 x3) :=
  encoded_of fun k h => by
    fin_cases k <;> first | rfl | exact absurd h (by simp [Instr.lanesRead])

theorem Encoded.rdstat : Encoded.Statement .rdstat :=
  encoded_of fun k _ => by fin_cases k <;> rfl

theorem Encoded.rdclrstat : Encoded.Statement .rdclrstat :=
  encoded_of fun k _ => by fin_cases k <;> rfl

end Sys2Proof.Laws
end

