-- ==== Sys2Proof/Laws/Sine.lean ====
section
/-! SUPPORT. The sine ROM and the lane datapath: the listing's bounds (20_memory.md R32), the exact difference of
neighbouring entries and the interpolated word between them (40_sine.md R76, R77), and the reduction by powers
of two (R74, R75). -/

namespace Sys2Proof.Machine

/-! ## The ROM -/

/-- Every entry has sign bit 0 and is at most 1.0 (20_memory.md R32). -/
theorem rom_facts : ∀ i < 1025, signBit (rom i) = false ∧ (lowBits (rom i)).toNat ≤ 0x3F800000 := by decide +kernel

/-- Neighbours are within a factor of 2, but for the two zero ends (40_sine.md R76). -/
theorem rom_close : ∀ i < 1022, mag (rom (i + 1)) ≤ 2 * mag (rom (i + 2)) ∧ mag (rom (i + 2)) ≤ 2 * mag (rom (i + 1)) := by decide +kernel

theorem isFinite_rom {i : Nat} (h : i < 1025) : isFinite (rom i) = true := by
  rw [isFinite_iff]; exact lt_of_le_of_lt (rom_facts i h).2 (by decide)

theorem codeMag_one : codeMag 0x3F800000 = 2 ^ 149 := by decide +kernel

theorem mag_rom_le {i : Nat} (h : i < 1025) : mag (rom i) ≤ 2 ^ 149 := by
  rw [mag_eq_codeMag, ← codeMag_one, codeMag_le_iff]; exact (rom_facts i h).2

theorem units_rom {i : Nat} (h : i < 1025) : units (rom i) = mag (rom i) := by
  rw [units, (rom_facts i h).1]; simp

/-- The difference of neighbouring entries is exact (40_sine.md R76). -/
theorem rom_diff {i : Nat} (hi : i < 1024) : isFinite (rneDiff (rom (i + 1)) (rom i)) = true ∧
    units (rneDiff (rom (i + 1)) (rom i)) = units (rom (i + 1)) - units (rom i) := by
  have hn : units (negate (rom i)) = - units (rom i) := by
    rw [units, units, mag_negate, signBit_negate]; cases signBit (rom i) <;> simp
  have h1 := mag_rom_le (i := i) (by omega)
  have h2 := mag_rom_le (i := i + 1) (by omega)
  have key : ∃ c, codeMag c = (units (rom (i + 1)) - units (rom i)).natAbs := by
    rw [units_rom (by omega), units_rom (by omega)]
    by_cases h0 : i = 0
    · subst h0
      refine ⟨(lowBits (rom 1)).toNat, ?_⟩
      rw [← mag_eq_codeMag, show mag (rom 0) = 0 by decide]; simp
    by_cases h9 : i = 1023
    · subst h9
      refine ⟨(lowBits (rom 1023)).toNat, ?_⟩
      rw [← mag_eq_codeMag, show mag (rom (1023 + 1)) = 0 by decide]; simp
    obtain ⟨j, rfl⟩ : ∃ j, i = j + 1 := ⟨i - 1, by omega⟩
    obtain ⟨c1, c2⟩ := rom_close j (by omega)
    rw [show j + 1 + 1 = j + 2 by rfl]
    rcases le_total (mag (rom (j + 1))) (mag (rom (j + 2))) with hle | hle
    · obtain ⟨e, he⟩ := exists_code_sub (c := (lowBits (rom (j + 1))).toNat) (c' := (lowBits (rom (j + 2))).toNat)
        (by simpa only [← mag_eq_codeMag] using hle) (by simpa only [← mag_eq_codeMag] using c2)
      exact ⟨e, by rw [he, ← mag_eq_codeMag, ← mag_eq_codeMag]; omega⟩
    · obtain ⟨e, he⟩ := exists_code_sub (c := (lowBits (rom (j + 2))).toNat) (c' := (lowBits (rom (j + 1))).toNat)
        (by simpa only [← mag_eq_codeMag] using hle) (by simpa only [← mag_eq_codeMag] using c1)
      exact ⟨e, by rw [he, ← mag_eq_codeMag, ← mag_eq_codeMag]; omega⟩
  have hb : (units (rom (i + 1)) - units (rom i)).natAbs ≤ 2 ^ 149 := by
    rw [units_rom (by omega), units_rom (by omega)]; omega
  rw [rneDiff, rneSum, hn, ← sub_eq_add_neg]
  split
  · rename_i h0
    rw [h0]
    constructor
    · rw [isFinite_withSign]; decide
    · rw [units, mag_withSign]; simp [codeMag_zero]
  · exact units_withSign_decide _ key hb

/-- The interpolated word has sign bit 0 and lies between the two bracketing entries (40_sine.md R77). -/
theorem interpolate_between {i frac : Nat} (hi : i < 1024) (hf : frac ≤ 2 ^ 138) :
    signBit (interpolate i frac).y = false ∧
    min (lowBits (rom i)).toNat (lowBits (rom (i + 1))).toNat ≤ (lowBits (interpolate i frac).y).toNat ∧
    (lowBits (interpolate i frac).y).toNat ≤ max (lowBits (rom i)).toNat (lowBits (rom (i + 1))).toNat := by
  obtain ⟨hdf, hd⟩ := rom_diff hi
  have hm := mag_rneScale_le (den := 2 ^ 138) (by positivity) hf hdf
  have hl := units_rom (i := i) (by omega)
  have hh := units_rom (i := i + 1) (by omega)
  have hs : signBit (rneScale frac (2 ^ 138) (rneDiff (rom (i + 1)) (rom i))) = signBit (rneDiff (rom (i + 1)) (rom i)) := signBit_withSign _ _
  have hs0 := (rom_facts i (by omega)).1
  unfold interpolate
  simp only
  set d := rneDiff (rom (i + 1)) (rom i)
  set m := rneScale frac (2 ^ 138) d
  have hum : units m = if signBit d then -(mag m : Int) else mag m := by rw [units, hs]
  have hud : units d = if signBit d then -(mag d : Int) else mag d := rfl
  rw [hl, hh] at hd
  cases hsd : signBit d
  · rw [hsd] at hum hud
    simp at hum hud
    obtain ⟨h1, h2, h3⟩ := rneSum_between (a := rom i) (b := m) (lo := rom i) (hi := rom (i + 1)) (by omega) (by omega) (isFinite_rom (by omega)) hs0
    exact ⟨h1, by omega, by omega⟩
  · rw [hsd] at hum hud
    simp at hum hud
    obtain ⟨h1, h2, h3⟩ := rneSum_between (a := rom i) (b := m) (lo := rom (i + 1)) (hi := rom i) (by omega) (by omega) (isFinite_rom (by omega)) hs0
    exact ⟨h1, by omega, by omega⟩

/-- The value of an entry (20_memory.md R32). -/
theorem valQ_rom {i : Nat} (h : i < 1025) : valQ (rom i) = (mag (rom i) : ℚ) / 2 ^ 149 := by
  rw [← units_valQ, units_rom h]; simp

/-- The values of the entries are between 0 and 1 (20_memory.md R32). -/
theorem valQ_rom_bounds {i : Nat} (h : i < 1025) : 0 ≤ valQ (rom i) ∧ valQ (rom i) ≤ 1 := by
  rw [valQ_rom h]
  refine ⟨by positivity, ?_⟩
  rw [div_le_one (by positivity)]; exact_mod_cast mag_rom_le h

/-! ## The reduction -/

/-- The table index is at most 1023 (40_sine.md R75). -/
theorem reduceMag_i_lt (a : Nat) : (reduceMag a).i < 1024 := by
  unfold reduceMag
  simp only
  have := Nat.mod_lt a (show 0 < 2 ^ 148 by positivity)
  rw [Nat.div_lt_iff_lt_mul (by positivity)]; exact this

/-- The fraction is below 1 (40_sine.md R75). -/
theorem reduceMag_frac_lt (a : Nat) : (reduceMag a).frac < 2 ^ 138 := Nat.mod_lt _ (by positivity)

/-- The floor of a fraction of whole numbers. -/
theorem floor_div (a b : Nat) : ⌊(a : ℚ) / b⌋ = ((a / b : ℕ) : ℤ) := by
  rw [← Int.natCast_floor_eq_floor (by positivity), Nat.floor_div_eq_div]

/-- What the floor leaves of a fraction of whole numbers. -/
theorem sub_floor (a b : Nat) (hb : 0 < b) : (a : ℚ) / b - ((a / b : ℕ) : ℚ) = ((a % b : ℕ) : ℚ) / b := by
  have h : (b : ℚ) * ((a / b : ℕ) : ℚ) + ((a % b : ℕ) : ℚ) = a := by exact_mod_cast Nat.div_add_mod a b
  have hb' : (b : ℚ) ≠ 0 := by exact_mod_cast hb.ne'
  field_simp
  linarith

/-- A shifted significand, shifted back. -/
theorem shift_div (M s n : Nat) : M * 2 ^ s / 2 ^ (n + s) = M / 2 ^ n := by
  rw [pow_add, Nat.mul_div_mul_right _ _ (by positivity)]

/-- A shifted significand modulo a larger power of two. -/
theorem shift_mod (M s n : Nat) : M * 2 ^ s % 2 ^ (n + s) = M % 2 ^ n * 2 ^ s := by
  rw [pow_add, Nat.mul_mod_mul_right]

end Sys2Proof.Machine
end

