-- ==== Sys2Proof/Laws/Trig.lean ====
section
/-! SUPPORT. Rational brackets of sin and cos at the 1024 intervals of [0, π] (20_memory.md R31), by the half-angle
formula and the addition formulas in whole numbers of 2^-80. -/

namespace Sys2Proof.Trig

/-- The unit of the brackets. -/
abbrev unit : ℕ := 2 ^ 80

/-- A bracket of √(2 + s) from one of s. -/
theorem sqrt_bracket {l u l' u' : ℕ} {s : ℝ} (hl : (l : ℝ) ≤ unit * s) (hu : unit * s ≤ u)
    (h1 : l' ^ 2 ≤ (2 * unit + l) * unit) (h2 : (2 * unit + u) * unit ≤ u' ^ 2) :
    (l' : ℝ) ≤ unit * √(2 + s) ∧ unit * √(2 + s) ≤ u' := by
  have hT : (0 : ℝ) < (unit : ℕ) := by positivity
  have e : (unit : ℝ) * √(2 + s) = √((2 * unit + unit * s) * unit) := by
    rw [show (2 * (unit : ℝ) + unit * s) * unit = unit ^ 2 * (2 + s) by ring, Real.sqrt_mul (by positivity),
      Real.sqrt_sq hT.le]
  rw [e]
  have h1' : (l' : ℝ) ^ 2 ≤ (2 * unit + l) * unit := by exact_mod_cast h1
  have h2' : (2 * (unit : ℝ) + u) * unit ≤ (u' : ℝ) ^ 2 := by exact_mod_cast h2
  constructor
  · refine Real.le_sqrt_of_sq_le (h1'.trans ?_)
    exact mul_le_mul_of_nonneg_right (by linarith) hT.le
  · refine Real.sqrt_le_iff.2 ⟨by positivity, le_trans ?_ h2'⟩
    exact mul_le_mul_of_nonneg_right (by linarith) hT.le

/-- A bracket of √(2 - s) from one of s. -/
theorem sqrt_sub_bracket {l u l' u' : ℕ} {s : ℝ} (hl : (l : ℝ) ≤ unit * s) (hu : unit * s ≤ u)
    (h1 : l' ^ 2 + u * unit ≤ 2 * unit * unit) (h2 : 2 * unit * unit ≤ u' ^ 2 + l * unit) :
    (l' : ℝ) ≤ unit * √(2 - s) ∧ unit * √(2 - s) ≤ u' := by
  have hT : (0 : ℝ) < (unit : ℕ) := by positivity
  have e : (unit : ℝ) * √(2 - s) = √((2 * unit - unit * s) * unit) := by
    rw [show (2 * (unit : ℝ) - unit * s) * unit = unit ^ 2 * (2 - s) by ring, Real.sqrt_mul (by positivity),
      Real.sqrt_sq hT.le]
  rw [e]
  have h1' : (l' : ℝ) ^ 2 + u * unit ≤ 2 * unit * unit := by exact_mod_cast h1
  have h2' : 2 * (unit : ℝ) * unit ≤ (u' : ℝ) ^ 2 + l * unit := by exact_mod_cast h2
  have h3 := mul_le_mul_of_nonneg_right hl hT.le
  have h4 := mul_le_mul_of_nonneg_right hu hT.le
  constructor
  · exact Real.le_sqrt_of_sq_le (by linarith)
  · exact Real.sqrt_le_iff.2 ⟨by positivity, by linarith⟩

/-- The nested square root of the half-angle formula, eight deep. -/
theorem series_eight : ((2417806123855437494645189 : ℕ) : ℝ) ≤ unit * Real.sqrtTwoAddSeries 0 8 ∧
    unit * Real.sqrtTwoAddSeries 0 8 ≤ ((2417806123855437494645191 : ℕ) : ℝ) := by
  have h0 : ((0 : ℕ) : ℝ) ≤ unit * Real.sqrtTwoAddSeries 0 0 ∧ unit * Real.sqrtTwoAddSeries 0 0 ≤ ((0 : ℕ) : ℝ) := by
    simp
  have h1 := sqrt_bracket (l' := 1709679290002018430137083) (u' := 1709679290002018430137084) h0.1 h0.2 (by decide) (by decide)
  have h2 := sqrt_bracket (l' := 2233803642132775565982913) (u' := 2233803642132775565982915) h1.1 h1.2 (by decide) (by decide)
  have h3 := sqrt_bracket (l' := 2371393297954878536827621) (u' := 2371393297954878536827622) h2.1 h2.2 (by decide) (by decide)
  have h4 := sqrt_bracket (l' := 2406209022720292664935026) (u' := 2406209022720292664935027) h3.1 h3.2 (by decide) (by decide)
  have h5 := sqrt_bracket (l' := 2414939231040410987693117) (u' := 2414939231040410987693118) h4.1 h4.2 (by decide) (by decide)
  have h6 := sqrt_bracket (l' := 2417123427520170517769390) (u' := 2417123427520170517769391) h5.1 h5.2 (by decide) (by decide)
  have h7 := sqrt_bracket (l' := 2417669579447603029305585) (u' := 2417669579447603029305587) h6.1 h6.2 (by decide) (by decide)
  have h8 := sqrt_bracket (l' := 2417806123855437494645189) (u' := 2417806123855437494645191) h7.1 h7.2 (by decide) (by decide)
  exact h8

/-- cos(π/1024), in units. -/
theorem cos_step : ((1208920130179513785331761 : ℕ) : ℝ) ≤ unit * Real.cos (Real.pi / 1024) ∧
    unit * Real.cos (Real.pi / 1024) ≤ ((1208920130179513785331762 : ℕ) : ℝ) := by
  have h := sqrt_bracket (l' := 2417840260359027570663522) (u' := 2417840260359027570663523) series_eight.1 series_eight.2 (by decide) (by decide)
  rw [show (1024 : ℝ) = 2 ^ (9 + 1) by norm_num, Real.cos_pi_over_two_pow, Real.sqrtTwoAddSeries]
  push_cast at h ⊢
  constructor <;> linarith

/-- sin(π/1024), in units. -/
theorem sin_step : ((3708932144210887464740 : ℕ) : ℝ) ≤ unit * Real.sin (Real.pi / 1024) ∧
    unit * Real.sin (Real.pi / 1024) ≤ ((3708932144210887464823 : ℕ) : ℝ) := by
  have h := sqrt_sub_bracket (l' := 7417864288421774929481) (u' := 7417864288421774929645) series_eight.1 series_eight.2 (by decide) (by decide)
  rw [show (1024 : ℝ) = 2 ^ (8 + 2) by norm_num, Real.sin_pi_over_two_pow_succ]
  push_cast at h ⊢
  constructor <;> linarith

/-- Brackets of sin and cos at one angle, in units. -/
structure Bracket where
  sinLo : ℕ
  sinHi : ℕ
  cosLo : ℕ
  cosHi : ℕ

/-- The brackets hold at the angle x. -/
def Bracket.Holds (b : Bracket) (x : ℝ) : Prop :=
  (b.sinLo : ℝ) ≤ unit * Real.sin x ∧ unit * Real.sin x ≤ b.sinHi ∧
    (b.cosLo : ℝ) ≤ unit * Real.cos x ∧ unit * Real.cos x ≤ b.cosHi

/-- The brackets one interval on, by the addition formulas. -/
def Bracket.next (b : Bracket) : Bracket where
  sinLo := (b.sinLo * 1208920130179513785331761 + b.cosLo * 3708932144210887464740) / unit
  sinHi := (b.sinHi * 1208920130179513785331762 + b.cosHi * 3708932144210887464823) / unit + 1
  cosLo := (b.cosLo * 1208920130179513785331761 - b.sinHi * 3708932144210887464823) / unit
  cosHi := (b.cosHi * 1208920130179513785331762 - b.sinLo * 3708932144210887464740) / unit + 1

/-- The brackets at i intervals. -/
def brackets : ℕ → Bracket
  | 0 => ⟨0, 0, unit, unit⟩
  | i + 1 => (brackets i).next

/-- Rounding a whole number of squared units down. -/
theorem div_le {n : ℕ} {y : ℝ} (h : (n : ℝ) ≤ y * unit) : ((n / unit : ℕ) : ℝ) ≤ y := by
  have hT : (0 : ℝ) < (unit : ℕ) := by positivity
  refine le_trans Nat.cast_div_le ?_
  rwa [div_le_iff₀ hT]

/-- Rounding a whole number of squared units up. -/
theorem le_div {n : ℕ} {y : ℝ} (h : y * unit ≤ (n : ℝ)) : y ≤ ((n / unit + 1 : ℕ) : ℝ) := by
  have hT : (0 : ℝ) < (unit : ℕ) := by positivity
  rw [← le_div_iff₀ hT] at h
  refine h.trans ?_
  rw [div_le_iff₀ hT]
  have := Nat.lt_div_mul_add (a := n) (b := unit) (by decide)
  have h2 : n ≤ (n / unit + 1) * unit := by rw [Nat.add_mul, Nat.one_mul]; omega
  exact_mod_cast h2

/-- A truncated difference of whole numbers below a nonnegative one. -/
theorem sub_le_of {m n : ℕ} {y : ℝ} (h : (m : ℝ) - n ≤ y) (h0 : 0 ≤ y) : ((m - n : ℕ) : ℝ) ≤ y := by
  rcases le_total n m with hle | hle
  · rwa [Nat.cast_sub hle]
  · rwa [Nat.sub_eq_zero_of_le hle, Nat.cast_zero]

/-- A truncated difference of whole numbers is no smaller. -/
theorem le_sub_of {m n : ℕ} {y : ℝ} (h : y ≤ (m : ℝ) - n) : y ≤ ((m - n : ℕ) : ℝ) :=
  h.trans (by rw [sub_le_iff_le_add]; exact_mod_cast Nat.sub_le_iff_le_add.1 le_rfl)

/-- One interval on, in the first quadrant. -/
theorem next_holds {b : Bracket} {x : ℝ} (h : b.Holds x) (h0 : 0 ≤ x) (h1 : x + Real.pi / 1024 ≤ Real.pi / 2) :
    b.next.Holds (x + Real.pi / 1024) := by
  obtain ⟨a1, a2, a3, a4⟩ := h
  obtain ⟨c1, c2⟩ := cos_step
  obtain ⟨s1, s2⟩ := sin_step
  have hT : (0 : ℝ) < (unit : ℕ) := by positivity
  have hpi := Real.pi_pos
  have hc0 : 0 ≤ Real.cos (x + Real.pi / 1024) := Real.cos_nonneg_of_neg_pi_div_two_le_of_le (by linarith) h1
  have hcx : 0 ≤ Real.cos x := Real.cos_nonneg_of_neg_pi_div_two_le_of_le (by linarith) (by linarith)
  have hsx : 0 ≤ Real.sin x := Real.sin_nonneg_of_nonneg_of_le_pi h0 (by linarith)
  have hcs : 0 ≤ Real.cos (Real.pi / 1024) := Real.cos_nonneg_of_neg_pi_div_two_le_of_le (by linarith) (by linarith)
  have hss : 0 ≤ Real.sin (Real.pi / 1024) := Real.sin_nonneg_of_nonneg_of_le_pi (by linarith) (by linarith)
  have hSx : 0 ≤ unit * Real.sin x := by positivity
  have hCx : 0 ≤ unit * Real.cos x := by positivity
  have hSs : 0 ≤ unit * Real.sin (Real.pi / 1024) := by positivity
  have hCs : 0 ≤ unit * Real.cos (Real.pi / 1024) := by positivity
  have ss := Real.sin_add x (Real.pi / 1024)
  have cc := Real.cos_add x (Real.pi / 1024)
  refine ⟨div_le ?_, le_div ?_, div_le (sub_le_of ?_ (by positivity)), le_div (le_sub_of ?_)⟩
  · rw [ss, Nat.cast_add, Nat.cast_mul, Nat.cast_mul]
    exact (add_le_add (mul_le_mul a1 c1 (by positivity) hSx) (mul_le_mul a3 s1 (by positivity) hCx)).trans
      (le_of_eq (by ring))
  · rw [ss, Nat.cast_add, Nat.cast_mul, Nat.cast_mul]
    exact le_trans (le_of_eq (by ring))
      (add_le_add (mul_le_mul a2 c2 hCs (by positivity)) (mul_le_mul a4 s2 hSs (by positivity)))
  · rw [cc, Nat.cast_mul, Nat.cast_mul]
    exact (sub_le_sub (mul_le_mul a3 c1 (by positivity) hCx) (mul_le_mul a2 s2 hSs (by positivity))).trans
      (le_of_eq (by ring))
  · rw [cc, Nat.cast_mul, Nat.cast_mul]
    exact le_trans (le_of_eq (by ring))
      (sub_le_sub (mul_le_mul a4 c2 hCs (by positivity)) (mul_le_mul a1 s1 (by positivity) hSx))

/-- The brackets hold at every interval of the first quadrant. -/
theorem brackets_hold (i : ℕ) (hi : i ≤ 512) : (brackets i).Holds (i * Real.pi / 1024) := by
  have hpi := Real.pi_pos
  induction i with
  | zero => simp [brackets, Bracket.Holds]
  | succ i ih =>
    have hi' : ((i : ℕ) : ℝ) + 1 ≤ 512 := by exact_mod_cast hi
    have e : ((i + 1 : ℕ) : ℝ) * Real.pi / 1024 = i * Real.pi / 1024 + Real.pi / 1024 := by push_cast; ring
    rw [e]
    refine next_holds (ih (by omega)) (by positivity) ?_
    rw [← e]; push_cast
    nlinarith

/-! ## From brackets to words -/

open Machine

/-- A word is the only nearest one to a real between the midpoints to its neighbours. -/
theorem nearest_of_mid {w : Word} {x : ℝ} (hs : signBit w = false) (hc : 1 ≤ (lowBits w).toNat)
    (h1 : ((codeMag ((lowBits w).toNat - 1) + codeMag (lowBits w).toNat : ℕ) : ℝ) < 2 * (x * 2 ^ 149))
    (h2 : 2 * (x * 2 ^ 149) < ((codeMag (lowBits w).toNat + codeMag ((lowBits w).toNat + 1) : ℕ) : ℝ))
    (v : Word) (hv : valQ v ≠ valQ w) : |(valQ w : ℝ) - x| < |(valQ v : ℝ) - x| := by
  set c := (lowBits w).toNat with hcd
  have hK : (0 : ℝ) < 2 ^ 149 := by positivity
  have hw : (valQ w : ℝ) = (codeMag c : ℝ) / 2 ^ 149 := by
    rw [valQ_eq, hs, mag_eq_codeMag]; push_cast; simp
    rw [hcd]
  obtain ⟨u, hu, hvu⟩ : ∃ u : ℤ, (valQ v : ℝ) = (u : ℝ) / 2 ^ 149 ∧ (u ≤ codeMag (c - 1) ∨ (codeMag (c + 1) : ℤ) ≤ u) := by
    refine ⟨units v, by rw [← units_valQ]; push_cast; rfl, ?_⟩
    unfold units
    split
    · left; omega
    · rename_i hvs
      have hne : (lowBits v).toNat ≠ c := by
        intro he
        apply hv
        rw [valQ_eq, valQ_eq, hs, mag_eq_codeMag, mag_eq_codeMag, he, ← hcd]
        simp [hvs]
      rw [mag_eq_codeMag]
      rcases Nat.lt_or_gt_of_ne hne with h | h
      · left; exact_mod_cast codeMag_le_iff.2 (by omega)
      · right; exact_mod_cast codeMag_le_iff.2 (by omega)
  have d1 : codeMag (c - 1) < codeMag c := codeMag_lt_iff.2 (by omega)
  have d2 : codeMag c < codeMag (c + 1) := codeMag_lt_iff.2 (by omega)
  have d1' : (codeMag (c - 1) : ℝ) < codeMag c := by exact_mod_cast d1
  have d2' : (codeMag c : ℝ) < codeMag (c + 1) := by exact_mod_cast d2
  push_cast at h1 h2
  have key : |(codeMag c : ℝ) - x * 2 ^ 149| < |(u : ℝ) - x * 2 ^ 149| := by
    rcases hvu with h | h
    · have h' : (u : ℝ) ≤ codeMag (c - 1) := by exact_mod_cast h
      rw [abs_lt]; 
      have : (u : ℝ) - x * 2 ^ 149 < 0 := by linarith
      rw [abs_of_neg this]
      constructor <;> linarith
    · have h' : (codeMag (c + 1) : ℝ) ≤ u := by exact_mod_cast h
      rw [abs_lt]
      have : 0 < (u : ℝ) - x * 2 ^ 149 := by linarith
      rw [abs_of_pos this]
      constructor <;> linarith
  have e : ∀ a : ℝ, |a / 2 ^ 149 - x| = |a - x * 2 ^ 149| / 2 ^ 149 := by
    intro a
    rw [show a / 2 ^ 149 - x = (a - x * 2 ^ 149) / 2 ^ 149 by field_simp, abs_div, abs_of_pos hK]
  rw [hw, hu, e, e]
  exact div_lt_div_of_pos_right key hK

/-- Linear interpolation of sin over an interval of width θ errs by at most θ² / 8 (40_sine.md R88). -/
theorem interp_err (a θ f : ℝ) (h0 : 0 ≤ f) (h1 : f ≤ 1) :
    |(1 - f) * Real.sin a + f * Real.sin (a + θ) - Real.sin (a + f * θ)| ≤ θ ^ 2 / 8 := by
  have D1 : ∀ x : ℝ, deriv (fun x : ℝ => x ^ 2 / 2 + Real.sin x) x = x + Real.cos x := by
    intro x
    have := (((hasDerivAt_id x).pow 2).div_const 2).add (Real.hasDerivAt_sin x)
    refine this.deriv.trans ?_
    simp
  have D2 : ∀ x : ℝ, deriv (fun x : ℝ => x ^ 2 / 2 - Real.sin x) x = x - Real.cos x := by
    intro x
    have := (((hasDerivAt_id x).pow 2).div_const 2).sub (Real.hasDerivAt_sin x)
    refine this.deriv.trans ?_
    simp
  have conv1 : ConvexOn ℝ Set.univ (fun x : ℝ => x ^ 2 / 2 + Real.sin x) := by
    apply convexOn_of_deriv2_nonneg' convex_univ
    · exact (by fun_prop : Differentiable ℝ (fun x : ℝ => x ^ 2 / 2 + Real.sin x)).differentiableOn
    · have : deriv (fun x : ℝ => x ^ 2 / 2 + Real.sin x) = fun x => x + Real.cos x := by
        funext x; exact D1 x
      rw [this]
      exact (by fun_prop : Differentiable ℝ (fun x : ℝ => x + Real.cos x)).differentiableOn
    · intro x _
      have : deriv (fun x : ℝ => x ^ 2 / 2 + Real.sin x) = fun x => x + Real.cos x := by
        funext x; exact D1 x
      simp only [Function.iterate_succ, Function.iterate_zero, Function.comp, id]
      rw [this]
      have h2 : deriv (fun x : ℝ => x + Real.cos x) x = 1 - Real.sin x := by
        refine ((hasDerivAt_id x).add (Real.hasDerivAt_cos x)).deriv.trans ?_
        ring
      rw [h2]; linarith [Real.sin_le_one x]
  have conv2 : ConvexOn ℝ Set.univ (fun x : ℝ => x ^ 2 / 2 - Real.sin x) := by
    apply convexOn_of_deriv2_nonneg' convex_univ
    · exact (by fun_prop : Differentiable ℝ (fun x : ℝ => x ^ 2 / 2 - Real.sin x)).differentiableOn
    · have : deriv (fun x : ℝ => x ^ 2 / 2 - Real.sin x) = fun x => x - Real.cos x := by
        funext x; exact D2 x
      rw [this]
      exact (by fun_prop : Differentiable ℝ (fun x : ℝ => x - Real.cos x)).differentiableOn
    · intro x _
      have : deriv (fun x : ℝ => x ^ 2 / 2 - Real.sin x) = fun x => x - Real.cos x := by
        funext x; exact D2 x
      simp only [Function.iterate_succ, Function.iterate_zero, Function.comp, id]
      rw [this]
      have h2 : deriv (fun x : ℝ => x - Real.cos x) x = 1 + Real.sin x := by
        refine ((hasDerivAt_id x).sub (Real.hasDerivAt_cos x)).deriv.trans ?_
        ring
      rw [h2]; linarith [Real.neg_one_le_sin x]
  have e : (1 - f) • a + f • (a + θ) = a + f * θ := by simp only [smul_eq_mul]; ring
  have c1 := conv1.2 (Set.mem_univ a) (Set.mem_univ (a + θ)) (by linarith : 0 ≤ 1 - f) h0 (by ring)
  have c2 := conv2.2 (Set.mem_univ a) (Set.mem_univ (a + θ)) (by linarith : 0 ≤ 1 - f) h0 (by ring)
  rw [e] at c1 c2
  simp only [smul_eq_mul] at c1 c2
  have hq : f * (1 - f) ≤ 1 / 4 := by nlinarith [sq_nonneg (f - 1 / 2)]
  have hq2 : f * (1 - f) * θ ^ 2 ≤ θ ^ 2 / 4 := by nlinarith [sq_nonneg θ]
  rw [abs_le]
  constructor <;> nlinarith

end Sys2Proof.Trig
end

