-- ==== Sys2Proof/Tests/Slice0.lean ====
section
/-! SUPPORT. Tests: the well-formedness checks refuse ill-formed terms, words written out from the spec's encodings
decode, one step per command answers the words of 95_test_vectors.md, and every statement with hypotheses has a
witness that meets them. -/

namespace Sys2Proof.Tests

open Sys2Proof.Machine

/-! ## Well-formedness (00_scope.md R3; 30_encoding.md R59, R62) -/

theorem test_config_standard : Config.standard.wf = true := by decide
theorem test_config_no_depth : (Config.mk .four 0 1).wf = false := by decide
theorem test_config_no_latency : (Config.mk .four 4 0).wf = false := by decide
theorem test_fits_sinW2_one : (Instr.sinW2 0 0).fits .one = false := by decide
theorem test_fits_sintW2_one : (Instr.sintW2 0 0).fits .one = false := by decide
theorem test_fits_sinW4_two : (Instr.sinW4 0 0 0 0).fits .two = false := by decide
theorem test_fits_sintW4_two : (Instr.sintW4 0 0 0 0).fits .two = false := by decide
theorem test_fits_sinW4_four : (Instr.sinW4 0 0 0 0).fits .four = true := by decide
theorem test_zeroFrom_used : (Request.mk 0x04 0x00000001000000000000000000000000#128).zeroFrom 2 = false := by decide
theorem test_zeroFrom_unused : (Request.mk 0x04 0x00000000000000004049000000000001#128).zeroFrom 2 = true := by decide
theorem test_operand_no_denominator : (AsmOperand.decimal false 1 0).wf = false := by decide
theorem test_operand_out_of_range : (AsmOperand.decimal true (2 ^ 128) 1).wf = false := by decide
theorem test_line_bad_sinW1 : (AsmLine.sinW1 (.decimal false 1 0)).wf = false := by decide
theorem test_line_bad_sinW2 : (AsmLine.sinW2 (.pattern 0) (.decimal false 1 0)).wf = false := by decide
theorem test_line_bad_sinW4 :
    (AsmLine.sinW4 (.pattern 0) (.pattern 0) (.pattern 0) (.decimal false 1 0)).wf = false := by decide
theorem test_line_bad_sintW1 : (AsmLine.sintW1 (.decimal false 1 0)).wf = false := by decide
theorem test_line_bad_sintW2 : (AsmLine.sintW2 (.decimal false 1 0) (.pattern 0)).wf = false := by decide
theorem test_line_bad_sintW4 :
    (AsmLine.sintW4 (.pattern 0) (.decimal false 1 0) (.pattern 0) (.pattern 0)).wf = false := by decide
theorem test_line_bad_sin : (AsmLine.sin (.decimal false 1 0)).wf = false := by decide
theorem test_line_bad_sint : (AsmLine.sint (.decimal false 1 0)).wf = false := by decide
theorem test_line_five_operands : (AsmLine.cmd 0 (List.replicate 5 (.pattern 0))).wf = false := by decide
theorem test_line_bad_operand : (AsmLine.cmd 0 [.decimal false 1 0]).wf = false := by decide
theorem test_response_both : (Response.mk ⟨0, 0, 0, 0⟩ 1 true 0).wf = false := by decide
theorem test_response_nan : (Response.mk ⟨0, 0x7FC00000, 0, 0⟩ 0 false 0).wf = false := by decide
theorem test_response_above_one : (Response.mk ⟨0x3F800001, 0, 0, 0⟩ 0 false 0).wf = false := by decide +kernel

/-! ## Decoding: words written out from 30_encoding.md R50 to R57 (fields `RSV`, `CLR`, `WC`, `OP`) -/

/-- The operand bus of lanes 1, 2, 3, 4 from lane 0 up. -/
def bus1234 : Bus := 0x00000004000000030000000200000001#128

theorem test_decode_sinW1 : decode ⟨0b000_0_00_00#8, bus1234⟩ = .ok (.sinW1 1) := by decide
theorem test_decode_sinW2 : decode ⟨0b000_0_01_00#8, bus1234⟩ = .ok (.sinW2 1 2) := by decide
theorem test_decode_sinW4 : decode ⟨0b000_0_10_00#8, bus1234⟩ = .ok (.sinW4 1 2 3 4) := by decide
theorem test_decode_sintW1 : decode ⟨0b000_0_00_01#8, bus1234⟩ = .ok (.sintW1 1) := by decide
theorem test_decode_sintW2 : decode ⟨0b000_0_01_01#8, bus1234⟩ = .ok (.sintW2 1 2) := by decide
theorem test_decode_sintW4 : decode ⟨0b000_0_10_01#8, bus1234⟩ = .ok (.sintW4 1 2 3 4) := by decide
theorem test_decode_rdstat : decode ⟨0b000_0_00_10#8, bus1234⟩ = .ok .rdstat := by decide
theorem test_decode_rdclrstat : decode ⟨0b000_1_00_10#8, bus1234⟩ = .ok .rdclrstat := by decide
theorem test_decode_reservedBits : decode ⟨0b001_0_00_00#8, 0⟩ = .error .reservedBits := by decide
theorem test_decode_reservedOp : decode ⟨0b000_0_00_11#8, 0⟩ = .error .reservedOp := by decide
theorem test_decode_clearOnSine : decode ⟨0b000_1_00_00#8, 0⟩ = .error .clearOnSine := by decide
theorem test_decode_reservedWidth : decode ⟨0b000_0_11_01#8, 0⟩ = .error .reservedWidth := by decide
theorem test_decode_widthOnStatus : decode ⟨0b000_1_01_10#8, 0⟩ = .error .widthOnStatus := by decide
theorem test_decodeTableWord : decodeTableWord 8 0x09 = some (.sintW4 0 0 0 0) := by decide
theorem test_decodeTableWord_refuses : decodeTableWord 8 0x16 = none := by decide

/-- 30_encoding.md R62: `sin.w2 1.0, 0x40490FDB` puts 0x3F800000 on lane 0 and zeros on lanes 2 and 3. -/
theorem test_assemble_decimal : assemble (.sinW2 (.decimal false 1 1) (.pattern 0x40490FDB)) =
    ⟨0x04, 0x0000000000000000_40490FDB_3F800000#128⟩ := by decide +kernel

/-! ## One step per command: 95_test_vectors.md, sections 2.4 and 2.5 -/

/-- A block of `LANES` lanes with the flags nf and ill, to which the host offers the command word c on the operand
bus x at the next edge. -/
def offering (lanes : LaneCount) (nf ill : Bool) (c : Byte) (x : Bus) : State :=
  { State.reset with
    cfg := { Config.standard with lanes := lanes }
    nf := nf
    ill := ill
    edges := [{ fetchEdge 0 with req := ⟨c, x⟩ }] }

/-- The head of `Q` and STATUS after one step. -/
def answer (s : State) : Option (Response × Word) :=
  match step s with
  | .next t => t.queue.head?.map fun r => (r, t.statusWord)
  | .fault _ => none
  | .refused _ => none

theorem test_sinW1 : answer (offering .four false false 0x00 0x7F8000007FC00000FF8000003F800000#128) =
    some (⟨⟨0x3F576AA1, 0, 0, 0⟩, 0b0000, false, 0x00⟩, 0x00000020) := by decide +kernel
theorem test_sinW2 : answer (offering .four false false 0x04 0x000000000000000040490FDB3FC90FDB#128) =
    some (⟨⟨0x3F800000, 0x80000000, 0, 0⟩, 0b0000, false, 0x04⟩, 0x00000020) := by decide +kernel
theorem test_sinW2_two_lanes : answer (offering .two false false 0x04 0x0000000000000000BF8000003F800000#128) =
    some (⟨⟨0x3F576AA1, 0xBF576AA1, 0, 0⟩, 0b0000, false, 0x04⟩, 0x00000010) := by decide +kernel
theorem test_sinW4 : answer (offering .four false false 0x08 0x7FC000004096CBE48000000000000000#128) =
    some (⟨⟨0x00000000, 0x80000000, 0xBF800000, 0x00000000⟩, 0b1000, false, 0x08⟩, 0x00000021) := by decide +kernel
theorem test_sinW4_too_wide : answer (offering .two false false 0x08 0x0000000000000000BF8000003F800000#128) =
    some (⟨⟨0, 0, 0, 0⟩, 0b0000, true, 0x08⟩, 0x00000012) := by decide +kernel
theorem test_sintW1 : answer (offering .one false false 0x01 0x00000000000000003F4000003E800000#128) =
    some (⟨⟨0x3F800000, 0, 0, 0⟩, 0b0000, false, 0x01⟩, 0x00000000) := by decide +kernel
theorem test_sintW1_last_interval : answer (offering .four false false 0x01 0x3EFFFFFF#128) =
    some (⟨⟨0x34490000, 0, 0, 0⟩, 0b0000, false, 0x01⟩, 0x00000020) := by decide +kernel
theorem test_sintW2 : answer (offering .four false false 0x05 0x3E8000003E8000007F8000007F800000#128) =
    some (⟨⟨0, 0, 0, 0⟩, 0b0011, false, 0x05⟩, 0x00000021) := by decide +kernel
theorem test_sintW2_too_wide : answer (offering .one false false 0x05 0x00000000000000003F4000003E800000#128) =
    some (⟨⟨0, 0, 0, 0⟩, 0b0000, true, 0x05⟩, 0x00000002) := by decide +kernel
theorem test_sintW4 : answer (offering .four false false 0x09 0x4A800001C01000003EFFFFFF3DCCCCCD#128) =
    some (⟨⟨0x3F167911, 0x34490000, 0xBF800000, 0x80000000⟩, 0b0000, false, 0x09⟩, 0x00000020) := by decide +kernel
theorem test_rdstat : answer (offering .four true false 0x02 0) =
    some (⟨⟨0x00000021, 0, 0, 0⟩, 0, false, 0x02⟩, 0x00000021) := by decide +kernel
theorem test_rdclrstat : answer (offering .two false true 0x12 0) =
    some (⟨⟨0x00000012, 0, 0, 0⟩, 0, false, 0x12⟩, 0x00000010) := by decide +kernel
theorem test_illegal_0x16 : answer (offering .four true false 0x16 0) =
    some (⟨⟨0, 0, 0, 0⟩, 0, true, 0x16⟩, 0x00000023) := by decide +kernel
theorem test_illegal_0x10 : answer (offering .four false false 0x10 0x7F800000#128) =
    some (⟨⟨0, 0, 0, 0⟩, 0, true, 0x10⟩, 0x00000022) := by decide +kernel

/-! ## The lane datapath: 95_test_vectors.md, sections 2.1 to 2.3 -/

theorem test_quotient : radianToTurns 0x40400000 = 0x3EF47645 := by decide +kernel
theorem test_quotient_subnormal : radianToTurns 0x00800000 = 0x00145F30 := by decide +kernel
theorem test_subnormal_result : (sinLane 0x00800000).y = 0x007FFFF0 := by decide +kernel
theorem test_largest_finite : (sinLane 0x7F7FFFFF).y = 0x00000000 := by decide +kernel
theorem test_signalling_nan : sinLane 0x7F800001 = ⟨0x00000000, true⟩ := by decide +kernel
theorem test_smallest_subnormal : (sintLane 0x00000001).y = 0x00000006 := by decide +kernel
/-- The trace of 0x3DCCCCCD: i = 204, and d, m, y. -/
theorem test_trace : (reduceMag (mag 0x3DCCCCCD)).i = 204 ∧
    interpolate 204 (reduceMag (mag 0x3DCCCCCD)).frac = ⟨0x3B22C600, 0x3B023821, 0x3F167911⟩ := by decide +kernel
/-- The trace of 0x3F400000: d is negative and m is -0.0. -/
theorem test_trace_negative : interpolate 512 0 = ⟨0xB69E0000, 0x80000000, 0x3F800000⟩ := by decide +kernel

/-! ## Witnesses: states and operands that meet the hypotheses of each statement

One theorem per statement with hypotheses, with one conjunct per clause. -/

/-- A quiet edge: no reset, nothing offered, nothing taken, the block willing to accept and to offer. -/
def quiet : Edge := ⟨false, false, ⟨0, 0⟩, false, true, true, 0, 0, .zero⟩

/-- An edge at which the host offers the command word c. -/
def offerOf (c : Byte) : Edge := { quiet with reqValid := true, req := ⟨c, 0⟩ }

/-- A reset edge at which the host offers RDSTAT. -/
def resetOf : Edge := { offerOf 0x02 with rst := true }

/-- A response of RDSTAT. -/
def waiting : Response := ⟨⟨0x20, 0, 0, 0⟩, 0, false, 0x02⟩

/-- The reset state with these edges to come and these responses waiting. -/
def ready (es : List Edge) (q : List Response) : State := { State.reset with edges := es, queue := q }

/-- An edge at which the host takes and the block waits, for as long as it may: two edges. -/
def slow : Edge := { quiet with rspReady := true, blockReady := false, blockOffer := false,
                                readyWithin := 2, offerWithin := 2 }

/-- A state before the first reset, with garbage in the flags and in `Q`. -/
def poweredUp (es : List Edge) : State :=
  { State.reset with wasReset := false, nf := true, queue := [illegalResponse 0xFF], edges := es }

/-! ### One edge of a wait, and one before the first reset (10_state.md R25; 70_reset_and_hazards.md R133, R135) -/

/-- The flags, `Q`, the handed-over responses and the two waits after one step. -/
def channels (s : State) : Option (Bool × Bool × List Response × List Response × Option Nat × Option Nat) :=
  match step s with
  | .next t => some (t.nf, t.ill, t.queue, t.taken, t.offerWithin, t.readyWithin)
  | .fault _ => none
  | .refused _ => none

/-- An edge after which, before the first reset, ILL is 1 and `Q` holds a response of RDSTAT. -/
def garbage : Edge := { offerOf 0x02 with unspecified := { Unspecified.zero with ill := true, queue := [waiting] } }

theorem test_wait_goes_on : channels (ready [slow] [waiting]) =
    some (false, false, [waiting], [], some 1, some 1) := rfl
theorem test_wait_ends : channels { ready [slow] [waiting] with offerWithin := some 0, readyWithin := some 0 } =
    some (false, false, [], [waiting], none, none) := rfl
theorem test_power_up : channels (poweredUp [garbage]) = some (false, true, [waiting], [], none, none) := rfl
theorem test_first_reset : channels (poweredUp [resetOf]) = some (false, false, [], [], none, none) := rfl

theorem witness_RejectedWordClasses : (255 : Nat) = (Request.mk 0xFF 0).cmd.toNat := by decide

theorem witness_EncodeOfDecode : decode ⟨0x05, bus1234⟩ = .ok (.sintW2 1 2) := by decide

theorem witness_AssembledLinesDecode : instrOfLine .nop = some .rdstat ∧
    instrOfLine (.sint (.pattern 1)) = some (.sintW1 1) := by decide

theorem witness_RadianCommandsAnswer :
    (∃ a, a = sinLane 0x7FC00000) ∧ 2 ≤ State.reset.cfg.lanes.count ∧ 4 ≤ State.reset.cfg.lanes.count :=
  ⟨⟨_, rfl⟩, by decide, by decide⟩

theorem witness_TurnsCommandsAnswer :
    (∃ a, a = sintLane 0x3E800000) ∧ 2 ≤ State.reset.cfg.lanes.count ∧ 4 ≤ State.reset.cfg.lanes.count :=
  ⟨⟨_, rfl⟩, by decide, by decide⟩

theorem witness_RdstatAnswersStatus :
    (State.reset.nf = false ∧ State.reset.ill = false) ∧
    (∃ t u, exec .rdstat State.reset = .next t ∧ exec .rdstat t = .next u) ∧
    (∃ t, executeAll [⟨0x03, 0⟩, ⟨0x12, 0⟩] State.reset = .next t) ∧
    (State.reset.cfg.lanes = .four ∧ ∃ t, exec (.sinW1 0x7F800000) State.reset = .next t) :=
  ⟨⟨rfl, rfl⟩, ⟨_, _, rfl, rfl⟩, ⟨_, rfl⟩, rfl, _, rfl⟩

theorem witness_RdclrstatAnswersAndClears : (∃ s : State, s.cfg.lanes = .four ∧ s.nf = true ∧ s.ill = true) ∧
    (State.reset.nf = false ∧ State.reset.ill = false) ∧
    ∃ t u, exec .rdclrstat State.reset = .next t ∧ executeRequest ⟨0x03, 0⟩ t = .next u :=
  ⟨⟨{ State.reset with nf := true, ill := true }, rfl, rfl, rfl⟩, ⟨rfl, rfl⟩, _, _, rfl, rfl⟩

theorem witness_TooWideCommandIllegal : ∃ (i : Instr) (s : State), i.fits s.cfg.lanes = false :=
  ⟨.sintW2 0 0, { State.reset with cfg := { Config.standard with lanes := .one } }, rfl⟩

theorem witness_IllegalWordExecuted : (0x03 : Byte) ∉ legalWords ∧ (0xFF : Byte) ∉ legalWords ∧
    (0x03 : Byte).extractLsb' 0 2 = 0b11 ∧ (0x0C : Byte).extractLsb' 2 2 = 0b11 ∧ (0x20 : Byte).extractLsb' 5 3 ≠ 0 ∧
    ((0x10 : Byte).getLsbD 4 = true ∧ (0x10 : Byte).extractLsb' 0 2 = 0b00) ∧
    ((0x16 : Byte).extractLsb' 0 2 = 0b10 ∧ (0x16 : Byte).extractLsb' 2 2 ≠ 0b00) := by decide

/-- A command that fits, one that does not, RDSTAT, and a radian command of finite lanes. -/
theorem witness_FrameOfEveryCommand :
    (∃ t, exec (.sinW2 0 0) (ready [] []) = .next t) ∧ (Instr.sinW2 0 0).fits State.reset.cfg.lanes = true ∧
    Instr.sinW2 0 0 ≠ .rdclrstat ∧ (Instr.sinW2 0 0).hasNonFinite = false ∧
    (Instr.sinW2 0 0).fits .one = false ∧ ∃ t, exec .rdstat (ready [] []) = .next t :=
  ⟨⟨_, rfl⟩, by decide, by decide, by decide, by decide, _, rfl⟩

theorem witness_ResponseRecordFields :
    (decode ⟨0x00, 0⟩ = .ok (.sinW1 0) ∧ (Instr.sinW1 0).fits State.reset.cfg.lanes = true ∧
      (Instr.sinW1 0).isSine = true ∧ ∃ t, executeRequest ⟨0x00, 0⟩ State.reset = .next t) ∧
    (decode ⟨0x02, 0⟩ = .ok .rdstat ∧ Instr.rdstat.fits State.reset.cfg.lanes = true ∧
      Instr.rdstat.isSine = false ∧ ∃ t, executeRequest ⟨0x02, 0⟩ State.reset = .next t) ∧
    (∀ i, decode ⟨0x03, 0⟩ = .ok i → i.fits State.reset.cfg.lanes = false) ∧
    ∃ t, executeRequest ⟨0x03, 0⟩ State.reset = .next t :=
  ⟨⟨rfl, rfl, rfl, _, rfl⟩, ⟨rfl, rfl, rfl, _, rfl⟩, (fun _ h => by cases h), _, rfl⟩

/-- The least word of exponent 0xFF, and the greatest below it. -/
theorem witness_NonFiniteLaneGivesZero :
    (0x7F800000 : Word).extractLsb' 23 8 = 0xFF ∧ (0x7F7FFFFF : Word).extractLsb' 23 8 ≠ 0xFF := by decide

/-- Two requests that agree on lane 0 and differ on lane 1, and a lane outside the command's. -/
theorem witness_LanesAreIndependent :
    decode ⟨0x04, bus1234⟩ = .ok (.sinW2 1 2) ∧ (Instr.sinW2 1 2).isSine = true ∧
    (Instr.sinW2 1 2).fits State.reset.cfg.lanes = true ∧
    (∃ t, executeRequest ⟨0x04, bus1234⟩ State.reset = .next t) ∧ (∃ t, executeRequest ⟨0x04, 1⟩ State.reset = .next t) ∧
    laneOfBus 1 0 = laneOfBus bus1234 0 ∧ (0 : Fin 4).val < (Instr.sinW2 1 2).lanesRead ∧
    (Instr.sinW2 1 2).lanesRead ≤ (2 : Fin 4).val :=
  ⟨rfl, rfl, rfl, ⟨_, rfl⟩, ⟨_, rfl⟩, by decide, by decide, by decide⟩

theorem witness_OperandLanes :
    (decode ⟨0x00, bus1234⟩ = .ok (.sinW1 1) ∧
      ∀ k : Fin 4, k.val < (Instr.sinW1 1).lanesRead → laneOfBus 1 k = laneOfBus bus1234 k) ∧
    (∀ i, decode ⟨0x02, bus1234⟩ = .ok i → i.isSine = false ∨ i.fits State.reset.cfg.lanes = false) ∧
    ∀ i, decode ⟨0x04, bus1234⟩ = .ok i → i.isSine = false ∨ i.fits .one = false :=
  ⟨⟨rfl, by decide⟩, (fun _ h => by cases h; exact .inl rfl), (fun _ h => by cases h; exact .inr rfl)⟩

/-- The largest finite word plus, minus, times and divided by an operand that keeps it in range. -/
theorem witness_RoundingIsNearestEven :
    isFinite maxFinite = true ∧ isFinite 0 = true ∧ isFinite 0x3F800000 = true ∧
    |valQ maxFinite + valQ 0| ≤ valQ maxFinite ∧ |valQ maxFinite - valQ 0| ≤ valQ maxFinite ∧
    |((1 : Nat) / (1 : Nat) : ℚ) * valQ maxFinite| ≤ valQ maxFinite ∧
    valQ 0x3F800000 ≠ 0 ∧ |valQ maxFinite / valQ 0x3F800000| ≤ valQ maxFinite := by
  have hm := abs_le_max (w := maxFinite) (by decide)
  have h0 : valQ 0 = 0 := (valQ_eq_zero 0).2 (by decide)
  have h1 : valQ 0x3F800000 = 1 := by
    rw [valQ_eq, show mag (0x3F800000 : Word) = 2 ^ 149 by decide +kernel, show signBit (0x3F800000 : Word) = false by decide]
    norm_num
  refine ⟨by decide, by decide, by decide, ?_, ?_, ?_, ?_, ?_⟩
  · rw [h0, add_zero]; exact hm
  · rw [h0, sub_zero]; exact hm
  · simpa using hm
  · rw [h1]; norm_num
  · rw [h1, div_one]; exact hm

theorem witness_ZeroResultSigns :
    (isFinite 0x3F800000 = true ∧ isFinite 0xBF800000 = true ∧ valQ 0x3F800000 + valQ 0xBF800000 = 0 ∧
      signBit 0x3F800000 ≠ signBit 0xBF800000) ∧
    (valQ 0x80000000 = 0 ∧ isFinite 0x80000000 = true) ∧
    lowBits (rneScale 0 1 0x80000000) = 0 ∧ lowBits (rneQuot 0x80000000 0x3F800000) = 0 := by
  refine ⟨⟨by decide, by decide, ?_, by decide⟩, ⟨(valQ_eq_zero _).2 (by decide), by decide⟩, by decide, by decide +kernel⟩
  have : valQ 0xBF800000 = -valQ 0x3F800000 := valQ_negate 0x3F800000
  rw [this]
  ring

theorem witness_RadianLaneDividesByTau : isFinite 0x80000000 = true ∧ isFinite 0x7F7FFFFF = true ∧
    valQ (radianToTurns 0x00000001) = 0 := by
  refine ⟨by decide, by decide, (valQ_eq_zero _).2 (by decide +kernel)⟩

/-- The turns word 0.75: a, h, k, r, p, i and f of 40_sine.md R73 to R75. -/
theorem witness_ReductionIsExact : ∃ (a h r p f : ℚ) (k i : ℤ), isFinite 0x3F400000 = true ∧ a = |valQ 0x3F400000| ∧
    h = 2 * a ∧ k = ⌊h⌋ ∧ r = h - k ∧ p = r * 1024 ∧ i = ⌊p⌋ ∧ f = p - i :=
  ⟨_, _, _, _, _, _, _, by decide, rfl, rfl, rfl, rfl, rfl, rfl, rfl⟩

theorem witness_ReductionKeepsSine : isFinite 0xBF400000 = true := by decide

theorem witness_IntegerFormulationAgrees : isFinite 0x7F7FFFFF = true ∧ isFinite 0x00000001 = true := by decide

theorem witness_InterpolationRoundsEachStep : 1023 ≤ 1023 ∧ 2 ^ 138 - 1 < 2 ^ 138 := by decide

theorem witness_SignIsRestored : ∃ (red : Reduced) (y : Word), isFinite 0x3F000000 = true ∧
    red = reduceMag (mag 0x3F000000) ∧ y = (interpolate red.i red.frac).y ∧ valQ y = 0 :=
  ⟨_, _, by decide, rfl, rfl, (valQ_eq_zero _).2 (by decide +kernel)⟩

theorem witness_LaneResultsAreTame : (1023 ≤ 1023 ∧ 2 ^ 138 - 1 < 2 ^ 138) ∧ isFinite 0x00000001 = true ∧
    valQ 0x00000001 ≠ 0 :=
  ⟨by decide, by decide, fun h => absurd ((valQ_eq_zero _).1 h) (by decide)⟩

/-- 0.75 is 1536/2048. -/
theorem witness_GridPointsAreExact : isFinite 0xBF400000 = true ∧ |valQ 0xBF400000| = ((1536 : Nat) : ℚ) / 2048 := by
  refine ⟨by decide, ?_⟩
  rw [abs_valQ, show mag (0xBF400000 : Word) = 3 * 2 ^ 147 by decide +kernel]
  norm_num

/-- 2^22 turns, and a radian word of 2^25. -/
theorem witness_LargeAnglesGiveZero : (isFinite 0x4A800000 = true ∧ 2 ^ 22 ≤ |valQ 0x4A800000|) ∧
    isFinite 0x4C000000 = true ∧ 2 ^ 22 ≤ |valQ (radianToTurns 0x4C000000)| := by
  refine ⟨⟨by decide, ?_⟩, by decide, ?_⟩
  · rw [abs_valQ, show mag (0x4A800000 : Word) = 2 ^ 171 by decide +kernel]
    norm_num
  · rw [abs_valQ, show mag (radianToTurns 0x4C000000) = 0xA2F983 * 2 ^ 148 by decide +kernel]
    norm_num

theorem witness_LaneFunctionsAreOdd : isFinite 0x80000000 = true ∧ isFinite 0x00000001 = true := by decide

/-- 0, 1 and 1/2. -/
theorem witness_TurnsFunctionIsPeriodic : isFinite 0 = true ∧ signBit 0 = false ∧
    (isFinite 0x3F800000 = true ∧ valQ 0x3F800000 = valQ 0 + 1) ∧
    isFinite 0x3F000000 = true ∧ valQ 0x3F000000 = valQ 0 + 1 / 2 := by
  have h0 : valQ 0 = 0 := (valQ_eq_zero 0).2 (by decide)
  refine ⟨by decide, by decide, ⟨by decide, ?_⟩, by decide, ?_⟩
  · rw [h0, valQ_eq, show mag (0x3F800000 : Word) = 2 ^ 149 by decide +kernel, show signBit (0x3F800000 : Word) = false by decide]
    norm_num
  · rw [h0, valQ_eq, show mag (0x3F000000 : Word) = 2 ^ 148 by decide +kernel, show signBit (0x3F000000 : Word) = false by decide]
    norm_num

theorem witness_WorkedExamplesHold : State.reset.cfg.lanes = .four ∧ State.reset.nf = false := by decide

theorem witness_RomListingProperties : (1024 ≤ 1024 ∧ 511 < 512) ∧ (512 ≤ 512 ∧ 1023 < 1024) ∧ 1 ≤ 1023 := by decide

theorem witness_RomHoldsTheSine : (1 ≤ 512 ∧ 512 ≤ 1023) ∧ isFinite 0 = true ∧ valQ 0 ≠ valQ (rom 512) := by
  refine ⟨by decide, by decide, ?_⟩
  have h0 : valQ 0 = 0 := (valQ_eq_zero 0).2 (by decide)
  rw [h0, valQ_rom (by decide), show mag (rom 512) = 2 ^ 149 by decide +kernel]
  norm_num

theorem witness_SineIsAccurate : isFinite 0 = true ∧ |(valQ 0 : ℝ)| < 8 * Real.pi := by
  refine ⟨by decide, ?_⟩
  rw [(valQ_eq_zero 0).2 (by decide)]
  simpa using Real.pi_pos

/-- A finite lane and a non-finite one. -/
theorem witness_NonFiniteIsRecorded : (Instr.sinW2 0x7F800000 0).isSine = true ∧
    (Instr.sinW2 0x7F800000 0).fits State.reset.cfg.lanes = true ∧
    (∃ t, exec (.sinW2 0x7F800000 0) State.reset = .next t) ∧
    isFinite ((Instr.sinW2 0x7F800000 0).operands.get 0) = false ∧
    isFinite ((Instr.sinW2 0x7F800000 0).operands.get 1) = true :=
  ⟨rfl, rfl, ⟨_, rfl⟩, by decide, by decide⟩

theorem witness_IllegalComesFirst : (∃ t, executeRequest ⟨0x10, 0x7F800000⟩ State.reset = .next t) ∧
    (∃ t, executeRequest ⟨0x02, 0⟩ State.reset = .next t) ∧ decode ⟨0x02, 0⟩ = .ok .rdstat ∧
    Instr.rdstat.isSine = false ∧ decode ⟨0x04, bus1234⟩ = .ok (.sinW2 1 2) ∧ (Instr.sinW2 1 2).isSine = true ∧
    (Instr.sinW2 1 2).fits State.reset.cfg.lanes = true ∧
    ∃ t, executeRequest ⟨0x04, bus1234⟩ State.reset = .next t :=
  ⟨⟨_, rfl⟩, ⟨_, rfl⟩, rfl, rfl, rfl, rfl, rfl, _, rfl⟩

/-- An edge that may set the flags, and edges that may clear them. -/
theorem witness_NfIsSticky : (ready [] []).wasReset = true ∧ (∃ t, step (ready [offerOf 0x00] []) = .next t) ∧
    (∃ t, step { ready [offerOf 0x12] [] with nf := true } = .next t) ∧
    ∃ t, step { ready [resetOf] [] with nf := true } = .next t :=
  ⟨rfl, ⟨_, rfl⟩, ⟨_, rfl⟩, _, rfl⟩

theorem witness_IllIsSticky : (ready [] []).wasReset = true ∧ (∃ t, step (ready [offerOf 0x03] []) = .next t) ∧
    (∃ t, step { ready [offerOf 0x12] [] with ill := true } = .next t) ∧
    ∃ t, step { ready [resetOf] [] with ill := true } = .next t :=
  ⟨rfl, ⟨_, rfl⟩, ⟨_, rfl⟩, _, rfl⟩

theorem witness_SineCommandsAreIdempotent : ∃ t u, (Instr.sinW1 0).isSine = true ∧
    exec (.sinW1 0) State.reset = .next t ∧ exec (.sinW1 0) t = .next u :=
  ⟨_, _, rfl, rfl, rfl⟩

/-- A queue one below `DEPTH`, at an edge that delivers and accepts. -/
theorem witness_StepRunsDecodedCommand : ∃ (s t : State) (e : Edge), s.edges = [e] ∧ e.rst = false ∧
    s.requestStable e = true ∧ s.accepts e = true ∧ decode e.req = .ok .rdstat ∧
    exec .rdstat (s.settleChannels e) = .next t :=
  ⟨ready [{ offerOf 0x02 with rspReady := true }] [waiting, waiting, waiting], _, _, rfl, rfl, rfl, rfl, rfl, rfl⟩

theorem witness_StepRunsIllegalCommand : ∃ (s : State) (e : Edge), s.edges = [e] ∧ e.rst = false ∧
    s.requestStable e = true ∧ s.accepts e = true ∧ decode e.req = .error .reservedOp :=
  ⟨ready [offerOf 0x03] [], _, rfl, rfl, rfl, rfl, rfl⟩

/-- The request was on offer before, and the queue is one below `DEPTH`: the block is willing, and the block may
wait no longer. -/
theorem witness_AcceptStepExecutes : ∃ (s : State) (e e' : Edge), s.wasReset = true ∧ s.edges = [e, e'] ∧
    e.rst = false ∧ s.requestStable e = true ∧ e.reqValid = true ∧ e.blockReady = true ∧
    s.queue.length < s.cfg.depth ∧ e'.blockReady = false ∧ s.readyBound e' = 0 :=
  ⟨{ ready [offerOf 0x02, { offerOf 0x02 with blockReady := false }] [waiting, waiting, waiting] with
      held := some ⟨0x02, 0⟩ }, _, _, rfl, rfl, rfl, rfl, rfl, rfl, by decide, rfl, rfl⟩

/-- Room for one more, a wait that may last and one that may not, three edges of which the block may wait at two, an edge that accepts, and a full queue that accepts nothing. -/
theorem witness_RequestTransferRule :
    ((ready [] [waiting, waiting, waiting]).reqReady quiet = true ∧
      (ready [] [waiting, waiting, waiting]).queue.length < (ready [] []).cfg.depth) ∧
    (0 < (ready [] []).readyBound slow ∧ (ready [] []).readyBound quiet = 0) ∧
    ((ready [slow, slow, slow] []).wasReset = true ∧
      (ready [] []).readyBound slow < (ready [slow, slow, slow] []).edges.length ∧
      NoReset 3 (ready [slow, slow, slow] []) ∧ ∃ u, stepN 2 (ready [slow, slow, slow] []) = .next u) ∧
    ((∃ t, step (ready [offerOf 0x02] []) = .next t) ∧ (ready [offerOf 0x02] []).reqReady (offerOf 0x02) = true) ∧
    (∃ t, step (ready [offerOf 0x02] [waiting, waiting, waiting, waiting]) = .next t) ∧
    (ready [offerOf 0x02] [waiting, waiting, waiting, waiting]).reqReady (offerOf 0x02) = false :=
  ⟨by decide, by decide, ⟨rfl, by decide, by unfold NoReset; decide, _, rfl⟩, ⟨⟨_, rfl⟩, by decide⟩, ⟨_, rfl⟩, by decide⟩

/-- A dropped request, a changed one, one given up in reset, and one held while the block waits. -/
theorem witness_ChangedRequestRefused :
    (quiet.rst = false ∧ quiet.reqValid = false ∧
      step { ready [quiet] [] with held := some ⟨0x02, 0⟩ } = .refused .requestChanged) ∧
    ((offerOf 0x12).req ≠ ⟨0x02, 0⟩ ∧
      step { ready [offerOf 0x12] [] with held := some ⟨0x02, 0⟩ } = .refused .requestChanged) ∧
    (∃ t, step { ready [{ quiet with rst := true }] [] with held := some ⟨0x02, 0⟩ } = .next t) ∧
    ∃ t, step { ready [{ offerOf 0x02 with blockReady := false, readyWithin := 1 }] [] with
      held := some ⟨0x02, 0⟩ } = .next t ∧ t.held = some ⟨0x02, 0⟩ :=
  ⟨⟨rfl, rfl, rfl⟩, ⟨by decide, rfl⟩, ⟨_, rfl⟩, _, rfl, rfl⟩

/-- A delivery, a response kept on offer, and each reason for no delivery. -/
theorem witness_ResponseTransferRule :
    ((ready [] [waiting]).rspValid { quiet with rspReady := true } = true ∧
      ∃ t, step (ready [{ quiet with rspReady := true }] [waiting]) = .next t) ∧
    ((ready [] [waiting]).rspValid quiet = true ∧ ∃ t, step (ready [quiet] [waiting]) = .next t) ∧
    (∃ t, step (ready [quiet] []) = .next t) ∧ (∃ t, step (ready [resetOf] [waiting]) = .next t) ∧
    (0 < (ready [slow] [waiting]).offerBound slow ∧ ∃ t, step (ready [slow] [waiting]) = .next t) :=
  ⟨⟨by decide, _, rfl⟩, ⟨by decide, _, rfl⟩, ⟨_, rfl⟩, ⟨_, rfl⟩, by decide, _, rfl⟩

/-- A full queue. -/
theorem witness_QueueIsFifo : ∃ t, step (ready [offerOf 0x02] [waiting, waiting, waiting, waiting]) = .next t ∧
    (ready [] [waiting, waiting, waiting, waiting]).queue.length ≤ State.reset.cfg.depth ∧
    (ready [] []).wasReset = true ∧ (offerOf 0x02).rst = false :=
  ⟨_, rfl, by decide, rfl, rfl⟩

/-- One reset edge and two, the last to come. -/
theorem witness_ResetEdgesClear : resetOf.rst = true ∧ (1 ≤ 2 ∧ 2 ≤ (ready [resetOf, resetOf] [waiting]).edges.length) ∧
    ∀ e ∈ (ready [resetOf, resetOf] [waiting]).edges.take 2, e.rst = true := by decide

theorem witness_OfferedDuringReset : ∃ (s : State) (e e' : Edge), s.edges = [e, e'] ∧ e.rst = true ∧
    e.reqValid = true ∧ e'.rst = false ∧ e'.reqValid = true ∧ e'.req = e.req ∧ e'.blockReady = true ∧ s.cfg.depth = 1 :=
  ⟨{ ready [resetOf, offerOf 0x02] [waiting] with cfg := ⟨.four, 1, 1⟩ }, _, _, rfl, rfl, rfl, rfl, rfl, rfl, rfl, rfl⟩

/-- A reset edge, from a state before the first reset and from one after it, and the most records `Q` can hold. -/
theorem witness_ResetStateValues : resetOf.rst = true ∧ (∃ t, step (ready [resetOf] [waiting]) = .next t) ∧
    (∃ t, step (poweredUp [resetOf]) = .next t) ∧ (poweredUp []).wasReset = false ∧
    [waiting, waiting, waiting, waiting].length ≤ (poweredUp []).cfg.depth :=
  ⟨rfl, ⟨_, rfl⟩, ⟨_, rfl⟩, rfl, by decide⟩

theorem witness_IdleKeepsState : (ready [quiet, quiet] [waiting]).wasReset = true ∧
    (ready [quiet, quiet] [waiting]).held = none ∧
    ∀ e ∈ (ready [quiet, quiet] [waiting]).edges, e.rst = false ∧ e.reqValid = false ∧ e.rspReady = false := by decide

/-- A host that offers to a full queue and takes nothing. -/
theorem witness_BackPressureHangs : (ready [] []).wasReset = true ∧
    (∀ e ∈ [offerOf 0x02, offerOf 0x02], e.rst = false ∧ e.rspReady = false) ∧
    (ready [] [waiting, waiting, waiting, waiting]).queue.length = State.reset.cfg.depth ∧
    ∃ t, stepN 2 (ready [offerOf 0x02, offerOf 0x02] [waiting, waiting, waiting, waiting]) = .next t :=
  ⟨rfl, by decide, by decide, _, rfl⟩

/-- The block delays at one edge and offers at the next; it delays at the two edges it may; it has not begun. -/
theorem witness_DeliveryComes : (∃ (t : State) (e : Edge), (∀ e' ∈ [slow, e], e'.rst = false ∧ e'.rspReady = true) ∧
      e.blockOffer = true ∧ stepN 2 (ready [slow, e] [waiting]) = .next t) ∧
    ((ready [] [waiting]).offerBound slow = 2 ∧ (∀ e ∈ [slow, slow, slow], e.rst = false ∧ e.rspReady = true) ∧
      ∃ t, stepN 3 (ready [slow, slow, slow] [waiting]) = .next t) ∧
    (ready [] [waiting]).wasReset = true ∧ (ready [] [waiting]).held = none ∧
    (ready [] [waiting]).offered = false ∧ (ready [] [waiting]).offerWithin = none :=
  ⟨⟨_, { quiet with rspReady := true }, by decide, rfl, rfl⟩, ⟨rfl, by decide, _, rfl⟩, rfl, rfl, rfl, rfl⟩

theorem witness_StreamIsSequential : (ready [] []).wasReset = true ∧ (∀ e ∈ [offerOf 0x02, offerOf 0x12].take 2, e.rst = false) ∧
    ∃ t, stepN 2 (ready [offerOf 0x02, offerOf 0x12] []) = .next t :=
  ⟨rfl, by decide, _, rfl⟩

theorem witness_ParametersNeverChange : ∃ t, stepN 2 (ready [resetOf, offerOf 0x02] []) = .next t := ⟨_, rfl⟩

/-- A full queue whose head is on offer. -/
theorem witness_StepKeepsInvariant : ∃ s t : State, s.Inv ∧ s.queue.length = s.cfg.depth ∧ step s = .next t :=
  ⟨{ ready [{ quiet with rspReady := true }] (List.replicate 4 waiting) with offered := true }, _,
    ⟨by decide, by decide, by decide, by decide +kernel, by decide⟩, rfl, rfl⟩

/-- A full queue: the word the host places runs there too. -/
theorem witness_FetchedWordRuns : ∃ s : State, s.Inv ∧ s.queue.length = s.cfg.depth ∧
    decodeTableWord 8 0x12 = some .rdclrstat :=
  ⟨ready [] (List.replicate 4 waiting), ⟨by decide, by decide, by decide, by decide +kernel, by decide⟩, rfl, rfl⟩

end Sys2Proof.Tests
end

section
/-! PROOF. The statements about the state and its steps (10_state.md; 70_reset_and_hazards.md R130, R131): the fields
of STATUS, the two sticky flags, the accept step, the queue and the reset edges. -/

namespace Sys2Proof.Machine

/-! ## The fields of STATUS (10_state.md R12, R15) -/

/-- Each field of the STATUS word stands where 10_state.md R12 puts it. -/
theorem statusWord_fields (s : State) :
    s.statusWord.getLsbD 0 = s.nf ∧ s.statusWord.getLsbD 1 = s.ill ∧
    s.statusWord.extractLsb' 2 2 = 0 ∧ s.statusWord.extractLsb' 4 2 = s.cfg.lanes.code ∧
    s.statusWord.extractLsb' 6 26 = 0 := by
  unfold State.statusWord
  generalize s.cfg.lanes.code = l, s.ill = a, s.nf = b
  revert l a b
  decide

/-- The code of a lane count names it, and is never the reserved 0b11 (10_state.md R15; 30_encoding.md R52). -/
theorem ofCode_code (W : LaneCount) : LaneCount.ofCode W.code = some W ∧ W.code ≠ 0b11 := by
  cases W <;> decide

/-- Settles O37: the fields of the STATUS word, with the code of the lane count. -/
theorem statusLayout : Obligations.StatusLayout := by
  intro s
  obtain ⟨hnf, hill, hgap, hlanes, htop⟩ := statusWord_fields s
  obtain ⟨hcode, hreserved⟩ := ofCode_code s.cfg.lanes
  rw [hlanes]
  refine ⟨hnf, hill, hgap, ?_, hcode, hreserved, htop⟩
  cases s.cfg.lanes <;> rfl

/-! ## The three edges after the first reset -/

/-- After the first reset an edge that goes on is a reset, executes the one request it accepts, or accepts none. -/
theorem edge_cases {s t : State} {e : Edge} {rest : List Edge} (hw : s.wasReset = true) (hE : s.edges = e :: rest)
    (h : step s = .next t) :
    (e.rst = true ∧ acceptedAt s = [] ∧ t = { s.resetEdge with edges := rest }) ∨
    (e.rst = false ∧ acceptedAt s = [e.req] ∧
      ∃ u, executeRequest e.req (s.settleChannels e) = .next u ∧ t = u.closeEdge none rest) ∨
    (e.rst = false ∧ acceptedAt s = [] ∧ t = (s.settleChannels e).closeEdge e.offer rest) := by
  have hacc := acceptedAt_cons hE
  obtain ⟨hnil, -⟩ | ⟨e', rest', hE', hc⟩ := step_next h
  · simp [hE] at hnil
  obtain ⟨rfl, rfl⟩ := List.cons.inj (hE.symm.trans hE')
  obtain ⟨hr, ht⟩ | ⟨-, hw', -⟩ | ⟨hr, -, hst, ha, _, _, _, -, he, ht⟩ | ⟨hr, -, -, ha, ht⟩ := hc
  · exact .inl ⟨hr, by simp [hacc, (reset_quiet hr s).1], ht⟩
  · simp [hw] at hw'
  · exact .inr (.inl ⟨hr, by simp [hacc, hst, ha], _, he, ht⟩)
  · exact .inr (.inr ⟨hr, by simp [hacc, ha], ht⟩)

/-! ## What executing a request does to the two flags -/

@[simp] theorem hasNonFinite_rdstat : Instr.rdstat.hasNonFinite = false := rfl
@[simp] theorem hasNonFinite_rdclrstat : Instr.rdclrstat.hasNonFinite = false := rfl

/-- Both flags after a command, from the flags before it (10_state.md R13, R14). -/
theorem exec_flags {i : Instr} {s t : State} (h : exec i s = .next t) :
    t.nf = (!decide (i = .rdclrstat) && (s.nf || (i.fits s.cfg.lanes && i.hasNonFinite))) ∧
    t.ill = (!decide (i = .rdclrstat) && (s.ill || !i.fits s.cfg.lanes)) := by
  obtain ⟨hs, hf, he⟩ | ⟨hs, hf, W, hW, he⟩ | ⟨rfl, he⟩ | ⟨rfl, he⟩ := exec_answers i s <;>
    rw [← next_inj (he.symm.trans h)]
  · simp [hf, ((isSine_iff i).1 hs).2]
  · simp [hf, ((isSine_iff i).1 hs).2, anyNf_eq hs hW]
  · simp [Instr.fits]
  · simp

/-- A request raises NF exactly when it is a command that fits with a non-finite evaluated lane, and clears it
exactly when it is RDCLRSTAT (10_state.md R13). -/
theorem executeRequest_nf {r : Request} {s t : State} (h : executeRequest r s = .next t) :
    (s.nf = false → (t.nf = true ↔
      ∃ i, decode r = .ok i ∧ i.fits s.cfg.lanes = true ∧ i.hasNonFinite = true)) ∧
    (s.nf = true → (t.nf = false ↔ decode r = .ok .rdclrstat)) := by
  cases hd : decode r with
  | error err =>
    rw [executeRequest_error hd] at h
    simp [← next_inj h]
  | ok i =>
    rw [executeRequest_ok hd] at h
    rw [(exec_flags h).1]
    constructor
    · intro hs
      by_cases hi : i = .rdclrstat <;> simp [hs, hi]
    · intro hs
      simp [hs]

/-- A request raises ILL exactly when it decodes to no command that fits, and clears it exactly when it is
RDCLRSTAT (10_state.md R14). -/
theorem executeRequest_ill {r : Request} {s t : State} (h : executeRequest r s = .next t) :
    (s.ill = false → (t.ill = true ↔ ∀ i, decode r = .ok i → i.fits s.cfg.lanes = false)) ∧
    (s.ill = true → (t.ill = false ↔ decode r = .ok .rdclrstat)) := by
  cases hd : decode r with
  | error err =>
    rw [executeRequest_error hd] at h
    simp [← next_inj h]
  | ok i =>
    rw [executeRequest_ok hd] at h
    rw [(exec_flags h).2]
    constructor
    · intro hs
      by_cases hi : i = .rdclrstat <;> simp [hs, hi, Instr.fits]
    · intro hs
      simp [hs]

/-- Settles O40: a reset clears NF, an accepted request does what `executeRequest_nf` says, and no other edge
touches it. -/
theorem nfIsSticky : Obligations.NfIsSticky := by
  intro s t e rest hw hE h
  obtain ⟨hr, hacc, rfl⟩ | ⟨hr, hacc, u, hu, rfl⟩ | ⟨hr, hacc, rfl⟩ := edge_cases hw hE h
  · simp [hacc, hr]
  · simpa [hacc, hr] using executeRequest_nf hu
  · simp [hacc, hr]

/-- Settles O41: a reset clears ILL, an accepted request does what `executeRequest_ill` says, and no other edge
touches it. -/
theorem illIsSticky : Obligations.IllIsSticky := by
  intro s t e rest hw hE h
  obtain ⟨hr, hacc, rfl⟩ | ⟨hr, hacc, u, hu, rfl⟩ | ⟨hr, hacc, rfl⟩ := edge_cases hw hE h
  · simp [hacc, hr]
  · simpa [hacc, hr] using executeRequest_ill hu
  · simp [hacc, hr]

/-! ## Executing a request is EXEC of the specification -/

/-- A word outside the table is ILLEGAL in EXEC (30_encoding.md R55). -/
theorem specExec_of_error {r : Request} {err : DecodeError} (h : decode r = .error err) (lanes : LaneCount)
    (st : Sticky) : specExec lanes r st = specIllegal r st := by
  have hc : r.cmd ∉ legalWords := decode_error_iff.1 ⟨err, h⟩
  simp only [legalWords, List.mem_cons, List.not_mem_nil, or_false, not_or] at hc
  simp only [specExec, hc, if_false]

/-- EXEC of a command word of the table: the common body of a radian or turns command, or a status command
(30_encoding.md R55). -/
theorem specExec_of_decode {r : Request} {i : Instr} (h : decode r = .ok i) (lanes : LaneCount) (st : Sticky) :
    specExec lanes r st =
      if i.isSine then specSine i.laneFunction i.lanesRead lanes r st
      else specStatus lanes r st (if i = .rdclrstat then { nf := false, ill := false } else st) := by
  rw [specExec, ← (decode_ok_iff.1 h).1]
  cases i <;> rfl

/-- The four `nf` bits as a number, and as a word. -/
theorem nfNumber_bits (W : Nat) (x : Bus) :
    BitVec.ofNat 4 (nfNumber W x) = nfBits (laneNf W 0 x) (laneNf W 1 x) (laneNf W 2 x) (laneNf W 3 x) ∧
    decide (nfNumber W x ≠ 0) =
      (nfBits (laneNf W 0 x) (laneNf W 1 x) (laneNf W 2 x) (laneNf W 3 x) != 0#4) := by
  rw [nfBits_eq, nfNumber]
  generalize laneNf W 0 x = a, laneNf W 1 x = b, laneNf W 2 x = c, laneNf W 3 x = d
  revert a b c d
  decide

/-- A lane of the machine is the lane of EXEC when its operand stands on the bus (40_sine.md R70). -/
theorem selectLane_eq_spec {f : Word → LaneResult} (hf : ∀ w, (f w).nf = !isFinite w) {W : LaneCount} {x : Bus}
    {v : Word} {k : Nat} (hv : k < W.count → v = laneOfBus x k) :
    selectLane W f k v = { y := laneY f W.count k x, nf := laneNf W.count k x } := by
  unfold selectLane laneY laneNf
  by_cases hk : k < W.count
  · simp [hk, hv hk, ← hf]
  · simp [hk]

/-- SIN_CMD(W) and SINT_CMD(W) of EXEC, W not above `LANES`: the machine's record, and its effect on NF
(40_sine.md R92, R93). -/
theorem specSine_eq {f : Word → LaneResult} (hf : ∀ w, (f w).nf = !isFinite w) {W lanes : LaneCount}
    (hW : W.count ≤ lanes.count) {r : Request} {v : Lanes}
    (hv : ∀ k : Fin 4, k.val < W.count → v.get k = laneOfBus r.x k) (st : Sticky) :
    specSine f W.count lanes r st =
      (sineResponse f r.cmd W v, { st with nf := st.nf || (sineResponse f r.cmd W v).nf != 0#4 }) := by
  have h0 : selectLane W f 0 v.l0 = _ := selectLane_eq_spec hf (hv 0)
  have h1 : selectLane W f 1 v.l1 = _ := selectLane_eq_spec hf (hv 1)
  have h2 : selectLane W f 2 v.l2 = _ := selectLane_eq_spec hf (hv 2)
  have h3 : selectLane W f 3 v.l3 = _ := selectLane_eq_spec hf (hv 3)
  obtain ⟨hbits, hany⟩ := nfNumber_bits W.count r.x
  have hr : sineResponse f r.cmd W v =
      { y := ⟨laneY f W.count 0 r.x, laneY f W.count 1 r.x, laneY f W.count 2 r.x, laneY f W.count 3 r.x⟩
        nf := BitVec.ofNat 4 (nfNumber W.count r.x)
        ill := false
        cmd := r.cmd } := by
    rw [hbits]
    simp [sineResponse, h0, h1, h2, h3]
  rw [specSine, if_neg (by omega), hr, hany, hbits]

/-- Executing a request has the effect of `EXEC(c, X, STATUS)`, and no other (30_encoding.md R55). -/
theorem executeRequest_eq_specExec (r : Request) (s : State) :
    executeRequest r s = .next { s with
      nf := (specExec s.cfg.lanes r s.sticky).2.nf
      ill := (specExec s.cfg.lanes r s.sticky).2.ill
      queue := s.queue ++ [(specExec s.cfg.lanes r s.sticky).1] } := by
  cases hd : decode r with
  | error err =>
    rw [executeRequest_error hd, specExec_of_error hd]
    rfl
  | ok i =>
    have hword := (decode_ok_iff.1 hd).1
    rw [executeRequest_ok hd, specExec_of_decode hd]
    obtain ⟨hs, hf, he⟩ | ⟨hs, hf, W, hW, he⟩ | ⟨rfl, he⟩ | ⟨rfl, he⟩ := exec_answers i s
    · have hwide : i.lanesRead > s.cfg.lanes.count := by
        simpa [hf] using fits_iff i s.cfg.lanes
      rw [if_pos hs, specSine, if_pos hwide, he, hword]
      rfl
    · have hlanes : ∀ k : Fin 4, k.val < W.count → i.operands.get k = laneOfBus r.x k := fun k hk => by
        rw [operands_of_decode hd, if_pos (hW ▸ hk)]
      rw [if_pos hs, ← hW, specSine_eq (laneFunction_nf hs) (hW ▸ (fits_iff i _).1 hf) hlanes, he, hword]
      rfl
    · rw [he, statusWord_eq, if_neg (by decide), specStatus, ← hword]
      rfl
    · rw [he, statusWord_eq, if_neg (by decide), specStatus, ← hword]
      rfl

/-! ## The accept step (10_state.md R24) -/

/-- A request transfer happens exactly as 70_reset_and_hazards.md R135 says. -/
theorem accepts_iff (s : State) (e : Edge) : s.accepts e = true ↔
    s.wasReset = true ∧ e.rst = false ∧ e.reqValid = true ∧ s.queue.length < s.cfg.depth ∧
      (e.blockReady = true ∨ s.readyBound e = 0) := by
  cases hw : s.wasReset <;> cases hr : e.rst <;> simp [State.accepts, State.reqReady, State.hasRoom, hw, hr]

/-- The state after an edge that accepts: EXEC of the request on the flags before the edge, its record at the tail
of `Q`, behind what the response transfer of the same edge leaves there. -/
theorem step_of_accepts {s : State} {e : Edge} {rest : List Edge} (hE : s.edges = e :: rest)
    (hst : s.requestStable e = true) (ha : s.accepts e = true) :
    step s = .next { s.settleChannels e with
      nf := (specExec s.cfg.lanes e.req s.sticky).2.nf
      ill := (specExec s.cfg.lanes e.req s.sticky).2.ill
      queue := (s.settleChannels e).queue ++ [(specExec s.cfg.lanes e.req s.sticky).1]
      held := none
      edges := rest } := by
  obtain ⟨_, _, _, -, he, hstep⟩ := step_accept hE hst ha
  have hexec := he.symm.trans (executeRequest_eq_specExec e.req (s.settleChannels e))
  have hsticky : (s.settleChannels e).sticky = s.sticky := by simp [State.sticky]
  rw [hstep, ← hsticky, ← settleChannels_cfg s e]
  exact congrArg (fun u : State => (.next (u.closeEdge none rest) : Result)) (next_inj hexec)

/-- Settles O45: the premises are those of a request transfer, and the response transfer of the same edge leaves
the responses of before in order. -/
theorem acceptStepExecutes : Obligations.AcceptStepExecutes := by
  intro s e rest hw hE hr hst hv hb hroom
  refine ⟨_, step_of_accepts hE hst ((accepts_iff s e).2 ⟨hw, hr, hv, hroom, hb⟩), rfl, ?_, ?_,
    settleChannels_cfg s e, rfl⟩
  · rw [← settleChannels_responses s e]
    simp [State.responses]
  · exact List.getLast?_concat

/-! ## The queue (10_state.md R16) -/

/-- The response transfer never lengthens `Q`. -/
theorem settleChannels_queue_length_le (s : State) (e : Edge) :
    (s.settleChannels e).queue.length ≤ s.queue.length := by
  rw [settleChannels_queue]
  split <;> simp

/-- The response transfer hands over nothing, or the head of `Q`. -/
theorem settleChannels_taken_cases (s : State) (e : Edge) :
    (s.settleChannels e).taken = s.taken ∨
      ∃ p, s.queue.head? = some p ∧ (s.settleChannels e).taken = s.taken ++ [p] := by
  rw [settleChannels_taken]
  cases hq : s.queue with
  | nil => simp
  | cons p q => split <;> simp

/-- An edge that goes on keeps at most `DEPTH` records in `Q`, before the first reset too. -/
theorem step_keeps_room {s t : State} (h : step s = .next t) (hroom : s.queue.length ≤ s.cfg.depth) :
    t.queue.length ≤ t.cfg.depth := by
  obtain ⟨-, rfl⟩ | ⟨e, rest, -, hc⟩ := step_next h
  · exact hroom
  have hsettle := settleChannels_queue_length_le s e
  obtain ⟨-, rfl⟩ | ⟨-, -, rfl⟩ | ⟨-, -, -, ha, _, _, _, -, -, rfl⟩ | ⟨-, -, -, -, rfl⟩ := hc
  · simp
  · simp
  · have hlt := accepts_room ha
    simp only [settleChannels_cfg, List.length_append, List.length_singleton]
    omega
  · simpa using hsettle.trans hroom

/-- After the first reset and without another, an edge leaves all responses of before, in order, adds at most one
behind them, and hands over at most the head of `Q`. -/
theorem step_fifo {s t : State} {e : Edge} {rest : List Edge} (hw : s.wasReset = true) (hE : s.edges = e :: rest)
    (hr : e.rst = false) (h : step s = .next t) :
    (∃ added, t.responses = s.responses ++ added ∧ added.length ≤ 1) ∧
      (t.taken = s.taken ∨ ∃ p, s.queue.head? = some p ∧ t.taken = s.taken ++ [p]) := by
  have htaken := settleChannels_taken_cases s e
  have hresp := settleChannels_responses s e
  obtain ⟨hr', -⟩ | ⟨-, -, u, hu, rfl⟩ | ⟨-, -, rfl⟩ := edge_cases hw hE h
  · simp [hr] at hr'
  · obtain ⟨_, _, p, -, he⟩ := executeRequest_cases e.req (s.settleChannels e)
    obtain rfl := next_inj (he.symm.trans hu)
    refine ⟨⟨[p], ?_, le_rfl⟩, htaken⟩
    rw [← hresp]
    simp [State.responses]
  · exact ⟨⟨[], hresp.trans (List.append_nil _).symm, Nat.zero_le 1⟩, htaken⟩

/-- Settles O49: the reset state, the one record each request appends, the room every edge keeps, and the order of
the responses. -/
theorem queueIsFifo : Obligations.QueueIsFifo := by
  refine ⟨rfl, ?_, fun s t e rest hE h => ⟨step_keeps_room h, fun hw hr => step_fifo hw hE hr h⟩⟩
  intro r s t h
  obtain ⟨_, _, p, -, he⟩ := executeRequest_cases r s
  exact ⟨p, congrArg State.queue (next_inj (h.symm.trans he))⟩

/-! ## Reset edges (10_state.md R26; 70_reset_and_hazards.md R130, R131) -/

/-- The step at a reset edge, from any state. -/
theorem step_of_rst {s : State} {e : Edge} {rest : List Edge} (hE : s.edges = e :: rest) (hr : e.rst = true) :
    step s = .next { s.resetEdge with edges := rest } := by
  simp [step, hE, hr]

/-- Any number of reset edges have the effect of one. -/
theorem stepN_of_rst (n : Nat) (s : State) (hn : n + 1 ≤ s.edges.length)
    (hrst : ∀ e ∈ s.edges.take (n + 1), e.rst = true) :
    stepN (n + 1) s = .next { s.resetEdge with edges := s.edges.drop (n + 1) } := by
  induction n generalizing s with
  | zero =>
    obtain ⟨e, rest, hE⟩ := List.exists_cons_of_length_pos hn
    simp [stepN, step_of_rst hE (hrst e (by simp [hE])), hE]
  | succ n ih =>
    obtain ⟨e, rest, hE⟩ := List.exists_cons_of_length_pos (Nat.zero_lt_of_lt hn)
    have hlen : n + 1 ≤ rest.length := by simpa [hE] using hn
    have hrest : ∀ e' ∈ rest.take (n + 1), e'.rst = true := fun e' he' => hrst e' (by simp [hE, he'])
    rw [stepN, step_of_rst hE (hrst e (by simp [hE])), hE]
    exact ih { s.resetEdge with edges := rest } hlen hrest

/-- A state with an empty `Q` offers no response after the first reset. -/
theorem rspValid_of_empty {s : State} (hw : s.wasReset = true) (hq : s.queue = []) (e : Edge) :
    s.rspValid e = false := by
  simp [State.rspValid, hw, hq]

/-- Settles O50: nothing transfers at a reset edge, and a run of reset edges ends where the first one led. -/
theorem resetEdgesClear : Obligations.ResetEdgesClear := by
  constructor
  · intro s e hr
    obtain ⟨hacc, hvalid, hdel⟩ := reset_quiet hr s
    exact ⟨hacc, hvalid, by simp [State.rspRecord, hr, hvalid], hdel⟩
  · intro n s h1 hn hrst
    obtain ⟨m, rfl⟩ := Nat.exists_eq_add_of_le' h1
    refine ⟨_, stepN_of_rst m s hn hrst, rfl, rfl, rfl, rfl, rfl, rfl, rfl, rfl, ?_, rspValid_of_empty rfl rfl⟩
    rw [statusWord_eq]
    simp [statusValue, State.sticky]

end Sys2Proof.Machine
end

section
/-! PROOF. Sequential consistency (20_memory.md R40): a run from a state after the first reset is the stream of its
accepted requests, by induction over the edges. -/

namespace Sys2Proof.Machine

/-! ## Streams -/

@[simp] theorem specStream_nil (lanes : LaneCount) (st : Sticky) : specStream lanes st [] = ([], st) := rfl

theorem specStream_cons (lanes : LaneCount) (st : Sticky) (r : Request) (rs : List Request) :
    specStream lanes st (r :: rs) =
      ((specExec lanes r st).1 :: (specStream lanes (specExec lanes r st).2 rs).1,
        (specStream lanes (specExec lanes r st).2 rs).2) := rfl

/-- A stream cut in two: the second part starts from the STATUS the first one leaves (20_memory.md R40). -/
theorem specStream_append (lanes : LaneCount) (st : Sticky) (rs rs' : List Request) :
    specStream lanes st (rs ++ rs') =
      ((specStream lanes st rs).1 ++ (specStream lanes (specStream lanes st rs).2 rs').1,
        (specStream lanes (specStream lanes st rs).2 rs').2) := by
  induction rs generalizing st with
  | nil => simp
  | cons r rs ih => simp [specStream_cons, ih]

/-! ## What an edge keeps, and what it adds -/

/-- Every edge that goes on keeps the parameters and uses up the first of the coming edges. -/
theorem step_cfg_edges {s t : State} (h : step s = .next t) : t.cfg = s.cfg ∧ t.edges = s.edges.tail := by
  obtain ⟨hE, rfl⟩ | ⟨e, rest, hE, hc⟩ := step_next h
  · simp [hE]
  obtain ⟨-, rfl⟩ | ⟨-, -, rfl⟩ | ⟨-, -, -, -, _, _, _, -, -, rfl⟩ | ⟨-, -, -, -, rfl⟩ := hc <;> simp [hE]

/-- No edge takes a state back before the first reset. -/
theorem step_wasReset {s t : State} (hw : s.wasReset = true) (h : step s = .next t) : t.wasReset = true := by
  obtain ⟨-, rfl⟩ | ⟨e, rest, -, hc⟩ := step_next h
  · exact hw
  obtain ⟨-, rfl⟩ | ⟨-, hw', -⟩ | ⟨-, -, -, -, _, _, _, -, -, rfl⟩ | ⟨-, -, -, -, rfl⟩ := hc
  · rfl
  · simp [hw] at hw'
  · simp [hw]
  · simp [hw]

@[simp] theorem settleChannels_sticky (s : State) (e : Edge) : (s.settleChannels e).sticky = s.sticky := by
  simp [State.sticky]

@[simp] theorem closeEdge_responses (s : State) (held : Option Request) (rest : List Edge) :
    (s.closeEdge held rest).responses = s.responses := rfl

@[simp] theorem closeEdge_sticky (s : State) (held : Option Request) (rest : List Edge) :
    (s.closeEdge held rest).sticky = s.sticky := rfl

/-- Executing a request adds its EXEC record behind the responses, and leaves the STATUS of EXEC
(30_encoding.md R55). -/
theorem executeRequest_responses {r : Request} {s u : State} (h : executeRequest r s = .next u) :
    u.responses = s.responses ++ [(specExec s.cfg.lanes r s.sticky).1] ∧
      u.sticky = (specExec s.cfg.lanes r s.sticky).2 := by
  rw [← next_inj ((executeRequest_eq_specExec r s).symm.trans h)]
  simp [State.responses, State.sticky]

/-- One edge without reset, after the first one, is the stream of the at most one request it accepts. -/
theorem step_sequential {s t : State} (hw : s.wasReset = true) (hr : ∀ e ∈ s.edges.take 1, e.rst = false)
    (h : step s = .next t) :
    t.responses = s.responses ++ (specStream s.cfg.lanes s.sticky (acceptedAt s)).1 ∧
      t.sticky = (specStream s.cfg.lanes s.sticky (acceptedAt s)).2 := by
  cases hE : s.edges with
  | nil =>
    obtain rfl : s = t := next_inj (by simpa [step, hE] using h)
    simp [acceptedAt, hE]
  | cons e rest =>
    obtain ⟨hrst, -⟩ | ⟨-, hacc, u, hu, rfl⟩ | ⟨-, hacc, rfl⟩ := edge_cases hw hE h
    · simp [hr e (by simp [hE])] at hrst
    · simpa [hacc, specStream_cons] using executeRequest_responses hu
    · simp [hacc]

/-! ## Runs -/

/-- A run without reset starts with an edge without reset, and goes on as one. -/
theorem noReset_succ {n : Nat} {s t : State} (ht : t.edges = s.edges.tail) (h : NoReset (n + 1) s) :
    (∀ e ∈ s.edges.take 1, e.rst = false) ∧ NoReset n t := by
  unfold NoReset at h ⊢
  rw [ht]
  cases hE : s.edges with
  | nil => simp
  | cons e rest => simpa [hE] using h

/-- The requests accepted in a run are those of its first edge, then those of the rest. -/
theorem acceptedIn_succ {s t : State} (h : step s = .next t) (n : Nat) :
    acceptedIn (n + 1) s = acceptedAt s ++ acceptedIn n t := by
  simp [acceptedIn, h]

/-- Settles O56, by induction on the number of edges: the first edge is the stream of what it accepts
(`step_sequential`), and the rest of the run is a stream from the STATUS the first edge leaves. -/
theorem streamIsSequential : Obligations.StreamIsSequential := by
  intro n
  induction n with
  | zero =>
    rintro s t - - h
    obtain rfl := next_inj h
    simp [acceptedIn]
  | succ n ih =>
    intro s u hw hr h
    obtain ⟨t, hst, hrun⟩ := stepN_succ h
    obtain ⟨hcfg, hedges⟩ := step_cfg_edges hst
    obtain ⟨hfirst, hrest⟩ := noReset_succ hedges hr
    obtain ⟨hresp, hsticky⟩ := step_sequential hw hfirst hst
    obtain ⟨hresp', hsticky'⟩ := ih t u (step_wasReset hw hst) hrest hrun
    rw [hcfg, hsticky] at hresp' hsticky'
    rw [acceptedIn_succ hst, specStream_append, hresp', hsticky', hresp]
    simp

end Sys2Proof.Machine
end

section
/-! PROOF. The listing holds the sine (20_memory.md R31): each entry of the first half lies with its sine between the
midpoints to the neighbouring words, and the second half mirrors the first. -/

namespace Sys2Proof.Trig

open Machine

/-- The sine bracket lies strictly between the midpoints from w to the words next to it. Midpoints are doubled, and
both sides are whole numbers of 2^-229. -/
def Bracket.Pins (b : Bracket) (w : Word) : Prop :=
  1 ≤ (lowBits w).toNat ∧
    (codeMag ((lowBits w).toNat - 1) + codeMag (lowBits w).toNat) * unit < 2 * b.sinLo * 2 ^ 149 ∧
    2 * b.sinHi * 2 ^ 149 < (codeMag (lowBits w).toNat + codeMag ((lowBits w).toNat + 1)) * unit

/-- A word pinned by a bracket of sin x is the only one nearest sin x. -/
theorem nearest_of_pins {b : Bracket} {w : Word} {x : ℝ} (hb : b.Holds x) (hp : b.Pins w)
    (hs : signBit w = false) (v : Word) (hv : valQ v ≠ valQ w) :
    |(valQ w : ℝ) - Real.sin x| < |(valQ v : ℝ) - Real.sin x| := by
  obtain ⟨hlo, hhi, -, -⟩ := hb
  obtain ⟨hc, hbelow, habove⟩ := hp
  have hU : (0 : ℝ) < unit := by positivity
  refine nearest_of_mid hs hc (lt_of_mul_lt_mul_right ?_ hU.le) (lt_of_mul_lt_mul_right ?_ hU.le) v hv
  · calc ((codeMag ((lowBits w).toNat - 1) + codeMag (lowBits w).toNat : ℕ) : ℝ) * unit
        < 2 * (b.sinLo : ℝ) * 2 ^ 149 := by exact_mod_cast hbelow
      _ ≤ 2 * (unit * Real.sin x) * 2 ^ 149 := by gcongr
      _ = 2 * (Real.sin x * 2 ^ 149) * unit := by ring
  · calc 2 * (Real.sin x * 2 ^ 149) * (unit : ℝ)
        = 2 * (unit * Real.sin x) * 2 ^ 149 := by ring
      _ ≤ 2 * (b.sinHi : ℝ) * 2 ^ 149 := by gcongr
      _ < ((codeMag (lowBits w).toNat + codeMag ((lowBits w).toNat + 1) : ℕ) : ℝ) * unit := by
        exact_mod_cast habove

/-- The brackets pin every entry of the first half, by running them over the listing. -/
theorem brackets_pin_rom : ∀ i < 512, (brackets (i + 1)).Pins (rom (i + 1)) := by
  unfold Bracket.Pins
  decide +kernel

/-- The listing is symmetric (20_memory.md R32). -/
theorem rom_mirror : ∀ i < 1025, rom (1024 - i) = rom i := by decide +kernel

/-- The sine is symmetric about the middle of [0, π]. -/
theorem sin_mirror {i : ℕ} (hi : i ≤ 1024) :
    Real.sin ((1024 - i : ℕ) * Real.pi / 1024) = Real.sin (i * Real.pi / 1024) := by
  rw [← Real.sin_pi_sub, Nat.cast_sub hi]
  congr 1
  push_cast
  ring

/-- Every entry of the first half is the only word nearest its sine. -/
theorem rom_nearest_firstHalf {i : ℕ} (h1 : 1 ≤ i) (h2 : i ≤ 512) (v : Word) (hv : valQ v ≠ valQ (rom i)) :
    |(valQ (rom i) : ℝ) - Real.sin (i * Real.pi / 1024)| < |(valQ v : ℝ) - Real.sin (i * Real.pi / 1024)| := by
  obtain ⟨j, rfl⟩ := Nat.exists_eq_add_of_le' h1
  exact nearest_of_pins (brackets_hold (j + 1) h2) (brackets_pin_rom j h2) (rom_facts (j + 1) (by omega)).1 v hv

/-- Settles O35: the first half by the brackets, the second half by symmetry. -/
theorem romHoldsTheSine : Obligations.RomHoldsTheSine := by
  refine ⟨by decide, by decide, fun i h1 h2 => ⟨isFinite_rom (by omega), fun v _ hv => ?_⟩⟩
  rcases le_total i 512 with h | h
  · exact rom_nearest_firstHalf h1 h v hv
  · rw [← rom_mirror i (by omega)] at hv ⊢
    rw [← sin_mirror (by omega)]
    exact rom_nearest_firstHalf (by omega) (by omega) v hv

end Sys2Proof.Trig
end

section
/-! PROOF. The statements about the encoding and what a request executes (30_encoding.md R55 to R59): words too wide
for `LANES`, words outside the table, EXEC, the response record, and the operand lanes. -/

namespace Sys2Proof

/-! ## Lane counts of the command words (30_encoding.md R52, R55) -/

/-- A command asks for at most the four lanes of the bus. -/
theorem lanesRead_le_four (i : Instr) : i.lanesRead ≤ 4 := by
  cases i <;> simp [Instr.lanesRead]

/-- The words that need more than one lane. -/
theorem one_lt_lanesRead_iff (i : Instr) :
    1 < i.lanesRead ↔ i.word = 0x04 ∨ i.word = 0x05 ∨ i.word = 0x08 ∨ i.word = 0x09 := by
  cases i <;> simp only [Instr.lanesRead, Instr.word, Instr.kind] <;> decide

/-- The words that need more than two lanes. -/
theorem two_lt_lanesRead_iff (i : Instr) : 2 < i.lanesRead ↔ i.word = 0x08 ∨ i.word = 0x09 := by
  cases i <;> simp only [Instr.lanesRead, Instr.word, Instr.kind] <;> decide

/-- A command does not fit when it asks for more lanes than there are (30_encoding.md R59). -/
theorem not_fits_iff (i : Instr) (lanes : LaneCount) : i.fits lanes = false ↔ lanes.count < i.lanesRead := by
  rw [← Bool.not_eq_true, fits_iff, not_le]

/-- Commands of one kind ask for the same number of lanes. -/
theorem lanesRead_of_kind_eq {i i' : Instr} (h : i'.kind = i.kind) : i'.lanesRead = i.lanesRead := by
  rw [← onLanes_operands i', h]
  cases i <;> rfl

namespace Machine

/-! ## Illegal requests (30_encoding.md R56, R59) -/

/-- A request that decodes to no command that fits is executed as an illegal command. -/
theorem executeRequest_illegal {r : Request} {s : State}
    (h : ∀ i, decode r = .ok i → i.fits s.cfg.lanes = false) :
    executeRequest r s = .next (s.takeIllegal r.cmd) := by
  cases hd : decode r with
  | error e => exact executeRequest_error hd s
  | ok i => rw [executeRequest_ok hd, exec_unfit (h i hd), (decode_ok_iff.1 hd).1]

/-- Settles O11: each lane count compared with the lanes a command asks for. -/
theorem tooWideCommandIllegal : Obligations.TooWideCommandIllegal := by
  refine ⟨fun i => (fits_iff i .four).2 (lanesRead_le_four i), fun i => ?_, fun i => ?_, fun i s hf => exec_unfit hf⟩
  · rw [not_fits_iff, ← two_lt_lanesRead_iff, count_two]
  · rw [not_fits_iff, ← one_lt_lanesRead_iff, count_one]

/-- No legal word is in a class of 30_encoding.md R56. -/
theorem legalWords_in_no_class : ∀ c ∈ legalWords,
    ¬ (c.extractLsb' 0 2 = 0b11 ∨ c.extractLsb' 2 2 = 0b11 ∨ c.extractLsb' 5 3 ≠ 0 ∨
      (c.getLsbD 4 = true ∧ (c.extractLsb' 0 2 = 0b00 ∨ c.extractLsb' 0 2 = 0b01)) ∨
      (c.extractLsb' 0 2 = 0b10 ∧ c.extractLsb' 2 2 ≠ 0b00)) := by
  decide

/-- Settles O12: the words are counted, the classes are checked on the eight legal words, and a word outside the
table does not decode. -/
theorem illegalWordExecuted : Obligations.IllegalWordExecuted := by
  refine ⟨by decide +kernel, fun c hclass hmem => legalWords_in_no_class c hmem hclass, fun r s hr => ?_⟩
  obtain ⟨e, he⟩ := decode_error_iff.2 hr
  exact executeRequest_error he s

/-- Settles O13, by the machine's effect of a request as EXEC gives it, for the eight words and all others. -/
theorem execMatchesPseudocode : Obligations.ExecMatchesPseudocode := executeRequest_eq_specExec

/-! ## The response record (30_encoding.md R58) -/

/-- The record of a radian or turns command that fits, lane by lane of its request. -/
theorem sineResponse_of_decode {r : Request} {i : Instr} (hd : decode r = .ok i) (hs : i.isSine = true)
    {W : LaneCount} (hW : W.count = i.lanesRead) (k : Fin 4) :
    (sineResponse i.laneFunction i.word W i.operands).y.get k =
        (if k.val < i.lanesRead then (i.laneFunction (laneOfBus r.x k)).y else 0) ∧
      (sineResponse i.laneFunction i.word W i.operands).nf.getLsbD k =
        (decide (k.val < i.lanesRead) && !isFinite (laneOfBus r.x k)) := by
  rw [sineResponse_y, sineResponse_nf, laneFunction_nf hs, hW, operands_of_decode hd]
  by_cases hk : k.val < i.lanesRead <;> simp [hk]

/-- Settles O15: a command that fits answers its lanes or STATUS, any other request is illegal, and `rsp_y` is the bus
image of the lanes. -/
theorem responseRecordFields : Obligations.ResponseRecordFields := by
  refine ⟨fun r i s t hd hf h => ?_, fun r s t hill h => ?_, fun p k => laneOfBus_toBus p.y k⟩
  · have hword := (decode_ok_iff.1 hd).1
    have hqueue {u : State} (he : exec i s = .next u) : t.queue = u.queue :=
      congrArg State.queue (next_inj (h.symm.trans ((executeRequest_ok hd s).trans he)))
    obtain ⟨-, hwide, -⟩ | ⟨hs, -, W, hW, he⟩ | ⟨rfl, he⟩ | ⟨rfl, he⟩ := exec_answers i s
    · simp [hf] at hwide
    · exact ⟨_, hqueue he, rfl, hword, fun _ k => sineResponse_of_decode hd hs hW k, fun hn => by simp [hs] at hn⟩
    · exact ⟨_, hqueue he, rfl, hword, nofun, fun _ => ⟨rfl, rfl⟩⟩
    · exact ⟨_, hqueue he, rfl, hword, nofun, fun _ => ⟨rfl, rfl⟩⟩
  · exact congrArg State.queue (next_inj (h.symm.trans (executeRequest_illegal hill)))

/-! ## The operand lanes (30_encoding.md R57) -/

/-- Requests with one command word and one value on each lane the command reads are executed alike. -/
theorem executeRequest_congr {r r' : Request} {i : Instr} (hd : decode r = .ok i) (hc : r'.cmd = r.cmd)
    (hx : ∀ k : Fin 4, k.val < i.lanesRead → laneOfBus r'.x k = laneOfBus r.x k) (s : State) :
    executeRequest r' s = executeRequest r s := by
  rw [executeRequest_ok hd, executeRequest_ok (decode_congr hd hc hx)]

/-- A request with the command word of an illegal one is illegal too. -/
theorem unfit_of_same_word {r r' : Request} {lanes : LaneCount} (hc : r'.cmd = r.cmd)
    (h : ∀ i, decode r = .ok i → i.fits lanes = false) (i' : Instr) (hd' : decode r' = .ok i') :
    i'.fits lanes = false := by
  obtain ⟨i, hd, hk⟩ := decode_same_word hd' hc.symm
  rw [not_fits_iff, ← lanesRead_of_kind_eq hk, ← not_fits_iff]
  exact h i hd

/-- Settles O19: a decoded command is the same on the same lanes read, a status command reads none, and an illegal one
is answered by its word alone. -/
theorem operandLanes : Obligations.OperandLanes := by
  refine ⟨fun x k j hj => ?_, fun r i k hd hk => ?_, fun r r' i s hd hc hx => executeRequest_congr hd hc hx s,
    fun r r' s hc h => ?_⟩
  · simp [laneOfBus, hj]
  · rw [operands_of_decode hd, if_pos hk]
  · by_cases hill : ∀ i, decode r = .ok i → i.fits s.cfg.lanes = false
    · rw [executeRequest_illegal hill, executeRequest_illegal (unfit_of_same_word hc hill), hc]
    · push Not at hill
      obtain ⟨i, hd, hf⟩ := hill
      have hs : i.isSine = false := (h i hd).resolve_right hf
      have hread : i.lanesRead = 0 := by simpa [Instr.isSine] using hs
      exact executeRequest_congr hd hc (fun k hk => by omega) s

end Machine

end Sys2Proof
end

section
/-! PROOF. The statements about the radian and turns commands and their lanes (40_sine.md R70 to R78, R87, R91 to R93):
the common bodies, the lanes, the division by `TAU_F32`, the reduction, the interpolation and the sign. -/

namespace Sys2Proof.Machine

/-! ## The common bodies (40_sine.md R92, R93) -/

/-- A sine command that fits, from the four selected lanes: NF takes up their flags and one record is appended. -/
theorem sineCommand_fits {f : Word → LaneResult} {W : LaneCount} {x : Lanes} {s : State} (a0 a1 a2 a3 : LaneResult)
    (c : Byte) (hW : W.count ≤ s.cfg.lanes.count) (h0 : selectLane W f 0 x.l0 = a0) (h1 : selectLane W f 1 x.l1 = a1)
    (h2 : selectLane W f 2 x.l2 = a2) (h3 : selectLane W f 3 x.l3 = a3) :
    sineCommand f c W x s = .next { s with
      nf := s.nf || (a0.nf || a1.nf || a2.nf || a3.nf)
      queue := s.queue ++ [{ y := ⟨a0.y, a1.y, a2.y, a3.y⟩,
                             nf := BitVec.ofNat 4 (a0.nf.toNat + 2 * a1.nf.toNat + 4 * a2.nf.toNat + 8 * a3.nf.toNat),
                             ill := false, cmd := c }] } := by
  rw [sineCommand, if_pos hW]
  simp only [State.respond, State.raiseNf, sineResponse, h0, h1, h2, h3, nfBits_ne_zero]
  rw [nfBits_eq]

section Widths
variable (f : Word → LaneResult) (c : Byte) (x0 x1 x2 x3 : Word) (s : State)

/-- The one-lane body, on any implementation. -/
theorem sineCommand_one : sineCommand f c .one ⟨x0, 0, 0, 0⟩ s = .next { s with
    nf := s.nf || (f x0).nf
    queue := s.queue ++ [{ y := ⟨(f x0).y, 0, 0, 0⟩, nf := BitVec.ofNat 4 (f x0).nf.toNat, ill := false, cmd := c }] } := by
  simpa using sineCommand_fits (W := .one) (x := ⟨x0, 0, 0, 0⟩) (f x0) ⟨0, false⟩ ⟨0, false⟩ ⟨0, false⟩ c
    (one_le_count s.cfg.lanes) rfl rfl rfl rfl

/-- The two-lane body, on an implementation of at least two lanes. -/
theorem sineCommand_two (h : 2 ≤ s.cfg.lanes.count) : sineCommand f c .two ⟨x0, x1, 0, 0⟩ s = .next { s with
    nf := s.nf || (f x0).nf || (f x1).nf
    queue := s.queue ++ [{ y := ⟨(f x0).y, (f x1).y, 0, 0⟩,
                           nf := BitVec.ofNat 4 ((f x0).nf.toNat + 2 * (f x1).nf.toNat), ill := false, cmd := c }] } := by
  simpa [Bool.or_assoc] using sineCommand_fits (W := .two) (x := ⟨x0, x1, 0, 0⟩) (f x0) (f x1) ⟨0, false⟩ ⟨0, false⟩ c
    h rfl rfl rfl rfl

/-- The four-lane body, on an implementation of four lanes. -/
theorem sineCommand_four (h : 4 ≤ s.cfg.lanes.count) : sineCommand f c .four ⟨x0, x1, x2, x3⟩ s = .next { s with
    nf := s.nf || (f x0).nf || (f x1).nf || (f x2).nf || (f x3).nf
    queue := s.queue ++ [{ y := ⟨(f x0).y, (f x1).y, (f x2).y, (f x3).y⟩,
                           nf := BitVec.ofNat 4 ((f x0).nf.toNat + 2 * (f x1).nf.toNat + 4 * (f x2).nf.toNat +
                             8 * (f x3).nf.toNat),
                           ill := false, cmd := c }] } := by
  simpa [Bool.or_assoc] using sineCommand_fits (W := .four) (x := ⟨x0, x1, x2, x3⟩) (f x0) (f x1) (f x2) (f x3) c
    h rfl rfl rfl rfl

end Widths

/-- Settles O7: each radian command is the common body of its width with the radian lane. -/
theorem radianCommandsAnswer : Obligations.RadianCommandsAnswer := by
  rintro s x0 x1 x2 x3 _ _ _ _ rfl rfl rfl rfl
  exact ⟨sineCommand_one sinLane 0x00 x0 s, sineCommand_two sinLane 0x04 x0 x1 s,
    sineCommand_four sinLane 0x08 x0 x1 x2 x3 s⟩

/-- Settles O8: each turns command is the common body of its width with the turns lane. -/
theorem turnsCommandsAnswer : Obligations.TurnsCommandsAnswer := by
  rintro s x0 x1 x2 x3 _ _ _ _ rfl rfl rfl rfl
  exact ⟨sineCommand_one sintLane 0x01 x0 s, sineCommand_two sintLane 0x05 x0 x1 s,
    sineCommand_four sintLane 0x09 x0 x1 x2 x3 s⟩

/-! ## The lanes of a response (40_sine.md R70, R71) -/

/-- A word is non-finite when its exponent field is 0xFF (00_scope.md R5). -/
theorem isFinite_eq_false_iff (w : Word) : isFinite w = false ↔ w.extractLsb' 23 8 = 0xFF := by
  simp [isFinite, expField]

/-- A non-finite word gives +0.0 and the flag on both lane functions. -/
theorem lanes_of_not_finite {w : Word} (h : isFinite w = false) :
    sinLane w = ⟨0x00000000, true⟩ ∧ sintLane w = ⟨0x00000000, true⟩ := by
  simp [sinLane, sintLane, h]

/-- Settles O17: both lane functions begin with the test of the exponent field. -/
theorem nonFiniteLaneGivesZero : Obligations.NonFiniteLaneGivesZero := by
  refine fun w => ⟨fun h => lanes_of_not_finite ((isFinite_eq_false_iff w).2 h), fun h => ?_⟩
  have hfin : isFinite w = true := by rwa [← Bool.not_eq_false, isFinite_eq_false_iff]
  simp [sinLane_nf, sintLane_nf, hfin]

/-- The response to a radian or turns request that fits: lanes below W hold the lane function of their own operand and
its flag, the others are zero. -/
theorem executeRequest_lanes {r : Request} {i : Instr} {s t : State} (hd : decode r = .ok i) (hs : i.isSine = true)
    (hf : i.fits s.cfg.lanes = true) (h : executeRequest r s = .next t) :
    ∃ p, t.queue = s.queue ++ [p] ∧ ∀ k : Fin 4,
      p.y.get k = (if k.val < i.lanesRead then (i.laneFunction (laneOfBus r.x k)).y else 0) ∧
      p.nf.getLsbD k = (decide (k.val < i.lanesRead) && !isFinite (laneOfBus r.x k)) := by
  obtain ⟨W, hW, he⟩ := exec_sine_fits hs hf
  rw [executeRequest_ok hd, he] at h
  exact ⟨_, congrArg State.queue (next_inj h.symm), sineResponse_of_decode hd hs hW⟩

/-- Commands of one kind have the same lane function. -/
theorem laneFunction_of_kind_eq {i i' : Instr} (h : i'.kind = i.kind) : i'.laneFunction = i.laneFunction := by
  rw [← onLanes_operands i', h]
  cases i <;> rfl

/-- Settles O18: both responses are read lane by lane, with one lane count and one lane function. -/
theorem lanesAreIndependent : Obligations.LanesAreIndependent := by
  intro r r' i s s' t t' k hd hs hf hc hcfg h h'
  obtain ⟨i', hd', hkind⟩ := decode_same_word hd hc
  have hread : i'.lanesRead = i.lanesRead := lanesRead_of_kind_eq hkind
  have hs' : i'.isSine = true := by rwa [Instr.isSine, hread]
  have hf' : i'.fits s'.cfg.lanes = true := by rwa [fits_iff, hread, hcfg, ← fits_iff]
  obtain ⟨p, hq, hp⟩ := executeRequest_lanes hd hs hf h
  obtain ⟨p', hq', hp'⟩ := executeRequest_lanes hd' hs' hf' h'
  obtain ⟨hy, hnf⟩ := hp k
  obtain ⟨hy', hnf'⟩ := hp' k
  rw [hread, laneFunction_of_kind_eq hkind] at hy'
  rw [hread] at hnf'
  refine ⟨p, p', hq, hq', fun hk => ⟨by rw [hy, if_pos hk], fun hx => ?_⟩, fun hk => ?_⟩
  · rw [hy, hy', hnf, hnf', hx]
    exact ⟨rfl, rfl⟩
  · rw [hy, hy', hnf, hnf']
    simp [hk]

/-! ## The division by `TAU_F32` (40_sine.md R72) -/

/-- `TAU_F32` is at least 1. -/
theorem one_le_abs_tau : 1 ≤ |valQ tauF32| := by
  rw [abs_valQ, mag_tau]
  norm_num

/-- The quotient of a finite word by `TAU_F32` is rounded to nearest, ties to even. -/
theorem radianToTurns_nearest {w : Word} (h : isFinite w = true) :
    NearestEven (valQ w / valQ tauF32) (radianToTurns w) := by
  refine rneQuot_nearest (abs_pos.1 (zero_lt_one.trans_le one_le_abs_tau)) (le_trans ?_ (abs_le_max h))
  rw [abs_div]
  exact div_le_self (abs_nonneg _) one_le_abs_tau

/-- `TAU_F32` is positive, so the quotient has the sign of the dividend. -/
theorem signBit_radianToTurns (w : Word) : signBit (radianToTurns w) = signBit w := by
  rw [radianToTurns, rneQuot, signBit_withSign, show signBit tauF32 = false by decide, Bool.xor_false]

/-- The quotient of a zero is a zero. -/
theorem radianToTurns_zero {w : Word} (h0 : valQ w = 0) : valQ (radianToTurns w) = 0 := by
  rw [valQ_eq_zero] at h0 ⊢
  rw [mag_eq_zero, radianToTurns, rneQuot, lowBits_withSign, h0]
  decide +kernel

/-- The quotient of a nonzero finite word has a smaller code: half of a magnitude is at most the magnitude one code
down, and the least subnormal rounds to 0. -/
theorem radianToTurns_code_lt {w : Word} (hw : isFinite w = true) (h0 : (lowBits w).toNat ≠ 0) :
    (lowBits (radianToTurns w)).toNat < (lowBits w).toNat := by
  rw [isFinite_iff] at hw
  rw [radianToTurns, rneQuot, lowBits_withSign, mag_eq_codeMag]
  obtain h1 | ⟨c, hc⟩ : (lowBits w).toNat = 1 ∨ ∃ c, (lowBits w).toNat = c + 2 := by
    rcases Nat.lt_or_ge (lowBits w).toNat 2 with h | h
    · left; omega
    · exact .inr ⟨_, (Nat.sub_add_cancel h).symm⟩
  · rw [h1]
    decide +kernel
  · rw [hc] at hw ⊢
    have hhalf : codeMag (c + 2) ≤ 2 * codeMag (c + 1) := codeMag_double (by omega)
    have htau : 2 * 2 ^ 149 ≤ mag tauF32 := by rw [mag_tau]; norm_num
    refine Nat.lt_succ_of_le (rneMag_le (lt_of_lt_of_le (by positivity) htau) (by omega) ?_)
    calc codeMag (c + 2) * 2 ^ 149 ≤ 2 * codeMag (c + 1) * 2 ^ 149 := Nat.mul_le_mul_right _ hhalf
      _ = codeMag (c + 1) * (2 * 2 ^ 149) := by ring
      _ ≤ codeMag (c + 1) * mag tauF32 := Nat.mul_le_mul_left _ htau

/-- The quotient of a nonzero finite word is smaller in magnitude (40_sine.md R72, R78). -/
theorem abs_radianToTurns_lt {w : Word} (hw : isFinite w = true) (h0 : valQ w ≠ 0) :
    |valQ (radianToTurns w)| < |valQ w| := by
  have hcode : (lowBits w).toNat ≠ 0 := by
    rwa [ne_eq, valQ_eq_zero, mag_eq_codeMag, ← codeMag_zero, codeMag_inj] at h0
  rw [abs_valQ, abs_valQ, div_lt_div_iff_of_pos_right (by positivity), Nat.cast_lt, mag_eq_codeMag, mag_eq_codeMag,
    codeMag_lt_iff]
  exact radianToTurns_code_lt hw hcode

/-- Settles O22: the rounded quotient is nearest, of a smaller code, and keeps the sign. -/
theorem radianLaneDividesByTau : Obligations.RadianLaneDividesByTau := by
  refine fun w hw => ⟨radianToTurns_nearest hw, radianToTurns_finite hw, if_pos hw, ?_, fun _ => signBit_radianToTurns w⟩
  by_cases h0 : valQ w = 0
  · exact .inr ⟨radianToTurns_zero h0, h0⟩
  · exact .inl (abs_radianToTurns_lt hw h0)

/-! ## The reduction (40_sine.md R73 to R75) -/

/-- Twice the magnitude, as a fraction of whole numbers. -/
theorem two_mul_abs_valQ (w : Word) : 2 * |valQ w| = (mag w : ℚ) / (2 ^ 148 : ℕ) := by
  rw [abs_valQ]
  push_cast
  ring

/-- The fraction of the reduction is what the magnitude leaves modulo 2^138. -/
theorem reduceMag_frac (a : Nat) : (reduceMag a).frac = a % 2 ^ 138 :=
  Nat.mod_mod_of_dvd a (pow_dvd_pow 2 (by norm_num))

/-- What a magnitude leaves modulo a power of two is a significand of at most 24 bits, shifted. -/
theorem mag_mod_split (w : Word) (n : Nat) : ∃ m s, mag w % 2 ^ n = m * 2 ^ s ∧ m < 2 ^ 24 := by
  obtain ⟨M, s, hM, hlt, -, -⟩ := mag_split w
  rcases le_total s n with h | h
  · obtain ⟨d, rfl⟩ := Nat.exists_eq_add_of_le' h
    exact ⟨_, s, by rw [hM, shift_mod], (Nat.mod_le _ _).trans_lt hlt⟩
  · refine ⟨0, 0, ?_, by norm_num⟩
    rw [hM, Nat.mod_eq_zero_of_dvd ((pow_dvd_pow 2 h).mul_left M), Nat.zero_mul]

/-- What a magnitude leaves modulo 2^n, over 2^n, is the value of a finite word. -/
theorem exists_word_mod (w : Word) {n : Nat} (hn : n ≤ 149) :
    ∃ v : Word, isFinite v = true ∧ valQ v = ((mag w % 2 ^ n : ℕ) : ℚ) / 2 ^ n := by
  obtain ⟨m, s, hm, hlt⟩ := mag_mod_split w n
  obtain ⟨d, hd⟩ := Nat.exists_eq_add_of_le hn
  have hscale : m * 2 ^ (s + d) = mag w % 2 ^ n * 2 ^ d := by rw [hm, pow_add, mul_assoc]
  obtain ⟨v, hv, hval⟩ := exists_word (b := s + d) hlt (by
    rw [hscale, hd, pow_add]
    exact Nat.mul_le_mul_right _ (Nat.mod_lt _ (by positivity)).le)
  refine ⟨v, hv, ?_⟩
  rw [hval, hscale, hd, pow_add]
  push_cast
  field_simp

/-- A fraction below its denominator is in the unit interval. -/
theorem mod_div_mem (a n : Nat) : 0 ≤ ((a % 2 ^ n : ℕ) : ℚ) / 2 ^ n ∧ ((a % 2 ^ n : ℕ) : ℚ) / 2 ^ n < 1 := by
  refine ⟨by positivity, ?_⟩
  rw [div_lt_one (by positivity)]
  exact_mod_cast Nat.mod_lt a (show 0 < 2 ^ n by positivity)

/-- Settles O23: h, r, p and f are fractions of whole numbers over 2^148 and 2^138, and their floors are the quotients
`reduceMag` takes. -/
theorem reductionIsExact : Obligations.ReductionIsExact := by
  intro w a h r p f k i hw ha hh hk hr hp hi hf
  have hh' : h = (mag w : ℚ) / (2 ^ 148 : ℕ) := by rw [hh, ha, two_mul_abs_valQ]
  have hk' : k = (mag w / 2 ^ 148 : ℕ) := by rw [hk, hh', floor_div]
  have hr' : r = ((mag w % 2 ^ 148 : ℕ) : ℚ) / 2 ^ 148 := by
    rw [hr, hh', hk', Int.cast_natCast, sub_floor _ _ (by positivity)]
    push_cast
    rfl
  have hp' : p = ((mag w % 2 ^ 148 : ℕ) : ℚ) / (2 ^ 138 : ℕ) := by
    rw [hp, hr']
    push_cast
    ring
  have hi' : i = (reduceMag (mag w)).i := by rw [hi, hp', floor_div]; rfl
  have hf' : f = ((reduceMag (mag w)).frac : ℚ) / 2 ^ 138 := by
    rw [hf, hp', hi', Int.cast_natCast]
    refine (sub_floor _ _ (by positivity)).trans ?_
    push_cast
    rfl
  have hi_lt := reduceMag_i_lt (mag w)
  have hq : (reduceMag (mag w)).q = true ↔ k % 2 = 1 := by
    rw [hk']
    simp only [reduceMag, decide_eq_true_eq]
    omega
  rw [reduceMag_frac] at hf'
  obtain ⟨hr0, hr1⟩ := mod_div_mem (mag w) 148
  obtain ⟨hf0, hf1⟩ := mod_div_mem (mag w) 138
  rw [reduceMag_frac, hr', hf']
  exact ⟨by omega, hr0, hr1, by omega, by omega, hf0, hf1, hq, hi'.symm, rfl, exists_word_mod w (by norm_num),
    exists_word_mod w (by norm_num)⟩

/-! ## The integer formulation (40_sine.md R91) -/

section Shifted
variable {M n s : Nat}

/-- A significand shifted past the parity bit: a whole number of turns. -/
theorem reduceMag_shift_above (h : 149 ≤ s) : reduceMag (M * 2 ^ s) = ⟨false, 0, 0⟩ := by
  obtain ⟨d, rfl⟩ := Nat.exists_eq_add_of_le h
  have hM : M * 2 ^ (149 + d) = M * 2 ^ d * 2 * 2 ^ 148 := by rw [pow_add]; ring
  rw [hM]
  simp [reduceMag]

/-- A significand with at most 10 bits below the parity bit: a table entry. -/
theorem reduceMag_shift_entry (hn : n ≤ 10) (hs : n + s = 148) :
    reduceMag (M * 2 ^ s) = ⟨decide (M / 2 ^ n % 2 = 1), M % 2 ^ n * 2 ^ (10 - n), 0⟩ := by
  have hs' : s = 10 - n + 138 := by omega
  have hR : M % 2 ^ n * 2 ^ s = M % 2 ^ n * 2 ^ (10 - n) * 2 ^ 138 := by rw [hs', pow_add, mul_assoc]
  rw [reduceMag, ← hs, shift_div, shift_mod, hR, Nat.mul_div_cancel _ (by positivity), Nat.mul_mod_left]

/-- A significand with more than 10 bits below the parity bit: those above the last n are the index, the last n the
fraction. -/
theorem reduceMag_shift_below (hs : n + 10 + s = 148) :
    reduceMag (M * 2 ^ s) =
      ⟨decide (M / 2 ^ (n + 10) % 2 = 1), M % 2 ^ (n + 10) / 2 ^ n, M % 2 ^ (n + 10) % 2 ^ n * 2 ^ s⟩ := by
  have hs' : 138 = n + s := by omega
  rw [reduceMag, ← hs, shift_div, shift_mod, hs', shift_div, shift_mod]

end Shifted

/-- The bit procedure in the significand M and the shift s of the magnitude, where the rule's n is 148 - s. -/
theorem reduceByBits_eq {w : Word} {M s : Nat}
    (hM : M = if (expField w).toNat = 0 then (fracField w).toNat else (fracField w).toNat + 2 ^ 23)
    (hs : s = (expField w).toNat - 1) {n : Int} (hn : n = 148 - s) :
    reduceByBits w =
      if n ≤ 0 then (if n = 0 then M % 2 else 0, 0, 0)
      else if n.toNat ≤ 10 then (M / 2 ^ n.toNat % 2, M % 2 ^ n.toNat * 2 ^ (10 - n.toNat), 0)
      else (M / 2 ^ n.toNat % 2, M % 2 ^ n.toNat / 2 ^ (n.toNat - 10),
        (M % 2 ^ n.toNat % 2 ^ (n.toNat - 10) : Nat) / (2 : ℚ) ^ (n.toNat - 10)) := by
  have he : -((if (expField w).toNat = 0 then (-149 : Int) else (expField w).toNat - 150) + 1) = n := by
    split <;> omega
  simp only [reduceByBits, ← hM, he, Nat.shiftRight_eq_div_pow, Nat.shiftLeft_eq]

/-- The parity bit, as a number. -/
theorem toNat_parity (x : Nat) : (decide (x % 2 = 1)).toNat = x % 2 := by
  rcases Nat.mod_two_eq_zero_or_one x with h | h <;> simp [h]

/-- Settles O25, by the place of the parity bit in the shifted significand. -/
theorem integerFormulationAgrees : Obligations.IntegerFormulationAgrees := by
  intro w _
  obtain ⟨M, s, hmag, -, hM, hs⟩ := mag_split w
  rw [reduceByBits_eq hM hs rfl, hmag]
  rcases lt_trichotomy s 148 with hlt | rfl | hgt
  · rw [if_neg (by omega), show ((148 : Int) - s).toNat = 148 - s by omega]
    split
    · next hn =>
      rw [reduceMag_shift_entry hn (by omega), toNat_parity]
      simp
    · next hn =>
      obtain ⟨n, hn⟩ : ∃ n, 148 - s = n + 10 := ⟨138 - s, by omega⟩
      have hs138 : (2 : ℚ) ^ 138 = 2 ^ n * 2 ^ s := by rw [← pow_add]; congr 1; omega
      rw [hn, reduceMag_shift_below (n := n) (by omega), toNat_parity, hs138]
      push_cast
      field_simp
  · rw [reduceMag_shift_entry (n := 0) (by omega) rfl, toNat_parity]
    simp [Nat.mod_one]
  · rw [if_pos (by omega), if_neg (by omega), reduceMag_shift_above (by omega)]
    simp

/-! ## The interpolation (40_sine.md R76, R78) -/

/-- The rounded difference is the nearest word, ties to even. -/
theorem rneDiff_nearest {a b : Word} (h : |valQ a - valQ b| ≤ valQ maxFinite) :
    NearestEven (valQ a - valQ b) (rneDiff a b) := by
  rw [sub_eq_add_neg, ← valQ_negate] at h ⊢
  exact rneSum_nearest h

/-- 1 is inside the finite range. -/
theorem one_le_valQ_max : 1 ≤ valQ maxFinite := by
  rw [valQ_max]
  norm_num

/-- A word of sign bit 0 has the value of its magnitude. -/
theorem valQ_of_pos {w : Word} (h : signBit w = false) : valQ w = (mag w : ℚ) / 2 ^ 149 := by
  simp [valQ_eq, h]

/-- Neighbouring entries are within a factor of 2 of each other, or one of them is an end of the listing. -/
theorem valQ_rom_close {i : Nat} (hi : i ≤ 1023) :
    (valQ (rom (i + 1)) ≤ 2 * valQ (rom i) ∧ valQ (rom i) ≤ 2 * valQ (rom (i + 1))) ∨
      valQ (rom i) = 0 ∨ valQ (rom (i + 1)) = 0 := by
  rcases Nat.eq_zero_or_pos i with rfl | hpos
  · exact .inr (.inl ((valQ_eq_zero _).2 (by decide)))
  rcases hi.eq_or_lt with rfl | hlt
  · exact .inr (.inr ((valQ_eq_zero _).2 (by decide)))
  · obtain ⟨j, rfl⟩ := Nat.exists_eq_add_of_le' hpos
    obtain ⟨hle, hge⟩ := rom_close j (by omega)
    left
    rw [valQ_rom (by omega), valQ_rom (by omega), ← mul_div_assoc, ← mul_div_assoc,
      div_le_div_iff_of_pos_right (by positivity), div_le_div_iff_of_pos_right (by positivity)]
    exact_mod_cast And.intro hge hle

section Interpolation
variable {i frac : Nat}

/-- The difference of neighbouring entries is exact. -/
theorem valQ_interpolate_d (hi : i ≤ 1023) : valQ (interpolate i frac).d = valQ (rom (i + 1)) - valQ (rom i) := by
  rw [← units_valQ, ← units_valQ, ← units_valQ, show (interpolate i frac).d = rneDiff (rom (i + 1)) (rom i) from rfl,
    (rom_diff (by omega)).2]
  push_cast
  ring

/-- The difference of neighbouring entries is at most 1 in magnitude. -/
theorem abs_interpolate_d_le (hi : i ≤ 1023) : |valQ (interpolate i frac).d| ≤ 1 := by
  obtain ⟨h0, h1⟩ := valQ_rom_bounds (i := i) (by omega)
  obtain ⟨h0', h1'⟩ := valQ_rom_bounds (i := i + 1) (by omega)
  rw [valQ_interpolate_d hi, abs_le]
  constructor <;> linarith

/-- The difference rounds the exact difference of the two entries. -/
theorem interpolate_d_nearest (hi : i ≤ 1023) :
    NearestEven (valQ (rom (i + 1)) - valQ (rom i)) (interpolate i frac).d := by
  refine rneDiff_nearest (le_trans ?_ one_le_valQ_max)
  rw [← valQ_interpolate_d (frac := frac) hi]
  exact abs_interpolate_d_le hi

/-- The product with the fraction is at most the difference in magnitude. -/
theorem abs_interpolate_m_le (hi : i ≤ 1023) (hf : frac < 2 ^ 138) :
    |valQ (interpolate i frac).m| ≤ |valQ (interpolate i frac).d| := by
  rw [abs_valQ, abs_valQ, div_le_div_iff_of_pos_right (by positivity), Nat.cast_le]
  exact mag_rneScale_le (by positivity) hf.le (rom_diff (by omega)).1

/-- The interpolated word has sign bit 0, and its bits are at most those of 1.0. -/
theorem interpolate_y_bounds (hi : i ≤ 1023) (hf : frac < 2 ^ 138) :
    signBit (interpolate i frac).y = false ∧ (lowBits (interpolate i frac).y).toNat ≤ 0x3F800000 := by
  obtain ⟨hs, -, hle⟩ := interpolate_between (i := i) (by omega) hf.le
  obtain ⟨-, hlo⟩ := rom_facts i (by omega)
  obtain ⟨-, hhi⟩ := rom_facts (i + 1) (by omega)
  exact ⟨hs, hle.trans (max_le hlo hhi)⟩

/-- A fraction over 2^138 is below 1. -/
theorem frac_div_lt_one (hf : frac < 2 ^ 138) : (frac : ℚ) / 2 ^ 138 < 1 := by
  rw [div_lt_one (by positivity)]
  exact_mod_cast hf

/-- The product rounds the exact product of the fraction and the difference. -/
theorem interpolate_m_nearest (hi : i ≤ 1023) (hf : frac < 2 ^ 138) :
    NearestEven ((frac : ℚ) / 2 ^ 138 * valQ (interpolate i frac).d) (interpolate i frac).m := by
  have hcast : (frac : ℚ) / 2 ^ 138 = (frac : ℚ) / (2 ^ 138 : ℕ) := by push_cast; rfl
  rw [hcast]
  refine rneScale_nearest (by positivity) (le_trans ?_ one_le_valQ_max)
  rw [← hcast, abs_mul, abs_of_nonneg (by positivity)]
  exact mul_le_one₀ (frac_div_lt_one hf).le (abs_nonneg _) (abs_interpolate_d_le hi)

/-- The result rounds the exact sum of the lower entry and the product. -/
theorem interpolate_y_nearest (hi : i ≤ 1023) (hf : frac < 2 ^ 138) :
    NearestEven (valQ (rom i) + valQ (interpolate i frac).m) (interpolate i frac).y := by
  have hm := (abs_interpolate_m_le hi hf).trans (abs_interpolate_d_le hi)
  obtain ⟨h0, h1⟩ := valQ_rom_bounds (i := i) (by omega)
  have htwo : (2 : ℚ) ≤ valQ maxFinite := by rw [valQ_max]; norm_num
  refine rneSum_nearest (le_trans ((abs_add_le _ _).trans ?_) htwo)
  rw [abs_of_nonneg h0]
  exact (add_le_add h1 hm).trans (by norm_num)

end Interpolation

/-- Settles O26: each operation rounds its exact result, which lies in the finite range, and the difference needs no
rounding. -/
theorem interpolationRoundsEachStep : Obligations.InterpolationRoundsEachStep := fun _ _ hi hf =>
  ⟨valQ_rom_close hi, interpolate_d_nearest hi, valQ_interpolate_d hi, interpolate_m_nearest hi hf,
    interpolate_y_nearest hi hf⟩

/-! ## The sign (40_sine.md R77) -/

/-- The interpolated word of any reduced magnitude has sign bit 0, and its bits are at most those of 1.0. -/
theorem interpolate_reduce_bounds (a : Nat) :
    signBit (interpolate (reduceMag a).i (reduceMag a).frac).y = false ∧
      (lowBits (interpolate (reduceMag a).i (reduceMag a).frac).y).toNat ≤ 0x3F800000 :=
  interpolate_y_bounds (Nat.le_of_lt_succ (reduceMag_i_lt a)) (reduceMag_frac_lt a)

/-- The result of a turns lane on a finite word. -/
theorem sintLane_y {w : Word} (hw : isFinite w = true) : (sintLane w).y = turnsValue w := by
  simp [sintLane, hw]

/-- A sign over 31 zeros is +0.0 or -0.0. -/
theorem withSign_zero (s : Bool) : withSign s 0 = if s then 0x80000000 else 0x00000000 := by
  cases s <;> decide

/-- Settles O27: the result is the sign over the lower bits of y, and y has sign bit 0. -/
theorem signIsRestored : Obligations.SignIsRestored := by
  rintro w _ _ hw rfl rfl
  obtain ⟨hs, -⟩ := interpolate_reduce_bounds (mag w)
  rw [sintLane_y hw, turnsValue]
  generalize (interpolate (reduceMag (mag w)).i (reduceMag (mag w)).frac).y = y at hs ⊢
  refine ⟨signBit_withSign _ _, fun j hj => ?_, hs, ?_, fun h0 => ?_⟩
  · simp [getLsbD_withSign, hj, lowBits]
  · rw [abs_valQ, mag_withSign, ← mag_eq_codeMag, valQ_of_pos hs]
  · rw [valQ_eq_zero, mag_eq_zero] at h0
    rw [h0, withSign_zero]
    rfl

/-! ## The range of the results (40_sine.md R78) -/

/-- A word whose bits below the sign are at most those of 1.0 is finite and at most 1 in magnitude. -/
theorem tame_of_lowBits_le {w : Word} (h : (lowBits w).toNat ≤ 0x3F800000) : isFinite w = true ∧ |valQ w| ≤ 1 := by
  refine ⟨(isFinite_iff w).2 (h.trans_lt (by decide)), ?_⟩
  rw [abs_valQ, div_le_one (by positivity), mag_eq_codeMag]
  exact_mod_cast codeMag_one ▸ codeMag_le_iff.2 h

/-- A turns lane answers a finite word of magnitude at most 1, whatever its operand. -/
theorem sintLane_tame (w : Word) : isFinite (sintLane w).y = true ∧ |valQ (sintLane w).y| ≤ 1 := by
  apply tame_of_lowBits_le
  cases hw : isFinite w with
  | true =>
    rw [sintLane_y hw, turnsValue, lowBits_withSign]
    exact (interpolate_reduce_bounds (mag w)).2
  | false =>
    rw [(lanes_of_not_finite hw).2]
    decide

/-- A radian lane answers a finite word of magnitude at most 1, whatever its operand. -/
theorem sinLane_tame (w : Word) : isFinite (sinLane w).y = true ∧ |valQ (sinLane w).y| ≤ 1 := by
  cases hw : isFinite w with
  | true =>
    rw [show sinLane w = sintLane (radianToTurns w) from if_pos hw]
    exact sintLane_tame _
  | false =>
    rw [(lanes_of_not_finite hw).1]
    exact tame_of_lowBits_le (by decide)

/-- Settles O28: the lanes, the example, the quotient, and the operands and results of the three operations. -/
theorem laneResultsAreTame : Obligations.LaneResultsAreTame := by
  refine ⟨fun w => ?_, by decide +kernel, fun w hw h0 => abs_radianToTurns_lt hw h0, fun i frac hi hf => ?_⟩
  · obtain ⟨hsin, hsin1⟩ := sinLane_tame w
    exact ⟨hsin, hsin1, sintLane_tame w⟩
  · have hrom {j : Nat} (hj : j ≤ 1024) : |valQ (rom j)| ≤ 1 := (tame_of_lowBits_le (rom_facts j (by omega)).2).2
    have hd := abs_interpolate_d_le (frac := frac) hi
    exact ⟨hrom (by omega), hrom (by omega), frac_div_lt_one hf, hd, (abs_interpolate_m_le hi hf).trans hd,
      (tame_of_lowBits_le (interpolate_y_bounds hi hf).2).2⟩

/-! ## The grid points (40_sine.md R87) -/

/-- Adding a zero leaves the bits below the sign as they are. -/
theorem lowBits_rneSum_zero {a z : Word} (ha : isFinite a = true) (hz : mag z = 0) : lowBits (rneSum a z) = lowBits a := by
  have huz : units z = 0 := by simp [units, hz]
  have hua : (units a).natAbs = mag a := by
    unfold units
    split <;> simp
  rw [rneSum, huz, add_zero]
  split
  · next h0 =>
    have hm : mag a = 0 := by rw [← hua, h0]; rfl
    rw [lowBits_withSign, (mag_eq_zero a).1 hm]
  · rw [lowBits_withSign, hua, BitVec.toNat_eq]
    exact rneMag_exact one_pos ((isFinite_iff a).1 ha) (by rw [mag_eq_codeMag, mul_one])

/-- Interpolation at fraction 0 gives the table entry. -/
theorem lowBits_interpolate_zero {i : Nat} (hi : i ≤ 1023) : lowBits (interpolate i 0).y = lowBits (rom i) := by
  refine lowBits_rneSum_zero (isFinite_rom (by omega)) ?_
  rw [rneScale, Nat.zero_mul, mag_withSign]
  decide

/-- A magnitude of j/2048 reduces to entry j mod 1024 of half-period j / 1024. -/
theorem reduceMag_grid (j : Nat) : reduceMag (j * 2 ^ 138) = ⟨decide (j / 1024 % 2 = 1), j % 1024, 0⟩ := by
  rw [reduceMag, show (148 : Nat) = 10 + 138 from rfl, shift_div, shift_mod, Nat.mul_div_cancel _ (by positivity),
    Nat.mul_mod_left]
  rfl

/-- A word of magnitude j/2048 in units. -/
theorem mag_of_grid {w : Word} {j : Nat} (h : |valQ w| = (j : ℚ) / 2048) : mag w = j * 2 ^ 138 := by
  rw [abs_valQ, div_eq_div_iff (by positivity) (by norm_num)] at h
  have hQ : (mag w : ℚ) = ((j * 2 ^ 138 : ℕ) : ℚ) := by
    push_cast
    linarith
  exact_mod_cast hQ

/-- A word of sign bit 0 whose magnitude is n/m of the 2^149 units of 1 has the value n/m. -/
theorem valQ_of_mag {w : Word} {n m : Nat} (hs : signBit w = false) (hm : 0 < m) (h : m * mag w = n * 2 ^ 149) :
    valQ w = (n : ℚ) / m := by
  rw [valQ_of_pos hs, div_eq_div_iff (by positivity) (by positivity)]
  rw [mul_comm]
  exact_mod_cast h

/-- Settles O29: the grid by its reduction, and the three exact values by running the lane. -/
theorem gridPointsAreExact : Obligations.GridPointsAreExact := by
  refine ⟨fun w j hw h => ?_, by decide, by decide +kernel, by decide +kernel, (valQ_eq_zero _).2 (by decide), ?_,
    by decide +kernel, ?_, by decide +kernel⟩
  · have hi : j % 1024 ≤ 1023 := by omega
    rw [sintLane_y hw, turnsValue, mag_of_grid h, reduceMag_grid, lowBits_interpolate_zero hi]
    exact ⟨rfl, rfl⟩
  · simpa using valQ_of_mag (w := radianToTurns 0x40490FDB) (n := 1) (m := 2) (by decide +kernel) (by norm_num)
      (by decide +kernel)
  · simpa using valQ_of_mag (w := radianToTurns 0x3FC90FDB) (n := 1) (m := 4) (by decide +kernel) (by norm_num)
      (by decide +kernel)

end Sys2Proof.Machine
end

section
/-! PROOF. The status commands (41_status.md R100, R101): the value both answer, the flags RDCLRSTAT clears, and the
STATUS that the commands before a read left. -/

namespace Sys2Proof.Machine

/-! ## The value of STATUS and the state after a command -/

/-- The two flags of a state are its sticky bits. -/
theorem sticky_of_flags {s : State} {a b : Bool} (hnf : s.nf = a) (hill : s.ill = b) :
    s.sticky = { nf := a, ill := b } := by
  subst hnf hill
  rfl

/-- With both flags 0 STATUS is the LANES code alone (41_status.md R100). -/
theorem statusValue_clear (lanes : LaneCount) :
    statusValue lanes { nf := false, ill := false } = BitVec.ofNat 32 (16 * lanes.code.toNat) := by
  simp [statusValue]

/-- RDSTAT appends the value of STATUS and does nothing else (41_status.md R100). -/
theorem exec_rdstat (s : State) :
    exec .rdstat s = .next (s.respond (statusResponse 0x02 (statusValue s.cfg.lanes s.sticky))) := by
  rw [← statusWord_eq]
  rfl

/-- RDCLRSTAT appends the value of STATUS before the clear, clears both flags, and does nothing else
(41_status.md R101). -/
theorem exec_rdclrstat (s : State) :
    exec .rdclrstat s = .next (s.clearFlags.respond (statusResponse 0x12 (statusValue s.cfg.lanes s.sticky))) := by
  rw [← statusWord_eq]
  rfl

/-- A command keeps the parameters. -/
theorem exec_cfg {i : Instr} {s t : State} (h : exec i s = .next t) : t.cfg = s.cfg := by
  obtain ⟨_, _, _, -, he⟩ := exec_cases i s
  rw [← next_inj (he.symm.trans h)]

/-- A request keeps the parameters. -/
theorem executeRequest_cfg {r : Request} {s t : State} (h : executeRequest r s = .next t) : t.cfg = s.cfg := by
  obtain ⟨_, _, _, -, he⟩ := executeRequest_cases r s
  rw [← next_inj (he.symm.trans h)]

/-- The first request of a list goes on, and the rest is executed from the state it leaves. -/
theorem executeAll_cons {r : Request} {rs : List Request} {s u : State} (h : executeAll (r :: rs) s = .next u) :
    ∃ t, executeRequest r s = .next t ∧ executeAll rs t = .next u := by
  have he := executeRequest_eq_specExec r s
  exact ⟨_, he, by simpa [executeAll, he] using h⟩

/-- A list of requests keeps the parameters and leaves the STATUS of its stream (20_memory.md R40), by induction
over the list. -/
theorem executeAll_status {rs : List Request} {s t : State} (h : executeAll rs s = .next t) :
    t.cfg = s.cfg ∧ t.sticky = (specStream s.cfg.lanes s.sticky rs).2 := by
  induction rs generalizing s with
  | nil =>
    obtain rfl := next_inj h
    exact ⟨rfl, rfl⟩
  | cons r rs ih =>
    obtain ⟨u, hu, hrest⟩ := executeAll_cons h
    obtain ⟨hcfg, hsticky⟩ := ih hrest
    rw [executeRequest_cfg hu, (executeRequest_responses hu).2] at hsticky
    exact ⟨hcfg.trans (executeRequest_cfg hu), hsticky⟩

/-! ## The two commands -/

/-- An RDSTAT whose state has the value v of STATUS answers v. -/
theorem rdstat_reads {s : State} {v : Word} (hv : statusValue s.cfg.lanes s.sticky = v) :
    ∃ t p, exec .rdstat s = .next t ∧ t.queue = s.queue ++ [p] ∧ p.y.l0 = v :=
  ⟨_, _, exec_rdstat s, rfl, hv⟩

/-- Settles O9: what an RDSTAT reads is the value of STATUS in its state, which is the one the list of commands left
(`executeAll_status`), the LANES code alone with both flags 0, the same after a first RDSTAT, and LANES with NF after
the SIN.W1 of +Inf. -/
theorem rdstatAnswersStatus : Obligations.RdstatAnswersStatus := by
  refine ⟨fun x => decode_of_word .rdstat rfl, exec_rdstat, fun rs s t h => ?_, fun s hnf hill => ?_,
    fun s t u ht hu => ?_, fun s t hlanes hnf hill h => ?_⟩
  · obtain ⟨hcfg, hsticky⟩ := executeAll_status h
    exact rdstat_reads (by rw [hcfg, hsticky])
  · exact rdstat_reads (by rw [sticky_of_flags hnf hill, statusValue_clear])
  · obtain rfl := next_inj ((exec_rdstat s).symm.trans ht)
    obtain rfl := next_inj ((exec_rdstat _).symm.trans hu)
    exact ⟨_, List.append_assoc ..⟩
  · obtain ⟨hnf', hill'⟩ := exec_flags h
    rw [hlanes, hnf] at hnf'
    rw [hlanes, hill] at hill'
    have hsticky : t.sticky = { nf := true, ill := false } :=
      sticky_of_flags (hnf'.trans (by decide)) (hill'.trans (by decide))
    refine rdstat_reads ?_
    rw [exec_cfg h, hlanes, hsticky]
    decide

/-- Settles O10: the answer is the value of STATUS before the clear, a later command starts from cleared flags, and
0x16 is no command's word. -/
theorem rdclrstatAnswersAndClears : Obligations.RdclrstatAnswersAndClears := by
  refine ⟨fun x => decode_of_word .rdclrstat rfl, exec_rdclrstat, fun s t u r ht hu => ?_, fun s hnf hill => ?_,
    fun x s => ?_, fun s hlanes hnf hill => ?_⟩
  · obtain rfl := next_inj ((exec_rdclrstat s).symm.trans ht)
    exact (executeRequest_responses hu).2
  · obtain ⟨hbit0, hbit1, -⟩ := statusWord_fields s
    rw [statusWord_eq] at hbit0 hbit1
    exact ⟨_, _, exec_rdclrstat s, (sticky_of_flags hnf hill).symm, rfl, hbit0.trans hnf, hbit1.trans hill⟩
  · have hword : (0x16 : Byte) ∉ legalWords := by decide
    obtain ⟨e, he⟩ := (decode_error_iff (r := ⟨0x16, x⟩)).2 hword
    exact ⟨_, executeRequest_error he s, rfl, rfl⟩
  · have hread : statusValue s.cfg.lanes s.sticky = 0x00000023 := by
      rw [hlanes, sticky_of_flags hnf hill]
      decide
    have hleft : statusValue s.cfg.lanes { nf := false, ill := false } = 0x00000020 := by
      rw [hlanes]
      decide
    exact ⟨_, _, exec_rdclrstat s, rfl, hread, (statusWord_eq _).trans hleft⟩

end Sys2Proof.Machine
end

section
/-! PROOF. The statements about the two exceptional conditions (60_exceptions.md R111, R113): the lanes that report a
non-finite operand, and the priority of the illegal command. -/

namespace Sys2Proof.Machine

/-! ## Non-finite operands (60_exceptions.md R111) -/

/-- A radian or turns lane with a non-finite operand answers +0.0 (40_sine.md R71). -/
theorem laneFunction_y_of_not_finite {i : Instr} (hs : i.isSine = true) {w : Word} (hw : isFinite w = false) :
    (i.laneFunction w).y = 0x00000000 := by
  obtain ⟨hsin, hsint⟩ := lanes_of_not_finite hw
  cases i with
  | rdstat => cases hs
  | rdclrstat => cases hs
  | sinW1 _ => exact congrArg LaneResult.y hsin
  | sinW2 _ _ => exact congrArg LaneResult.y hsin
  | sinW4 _ _ _ _ => exact congrArg LaneResult.y hsin
  | sintW1 _ => exact congrArg LaneResult.y hsint
  | sintW2 _ _ => exact congrArg LaneResult.y hsint
  | sintW4 _ _ _ _ => exact congrArg LaneResult.y hsint

/-- An evaluated lane of the record of a radian or turns command: the lane function on the operand, and the flag of a
non-finite one. -/
theorem sineResponse_evaluated {i : Instr} (hs : i.isSine = true) {W : LaneCount} (hW : W.count = i.lanesRead)
    (c : Byte) {k : Fin 4} (hk : k.val < i.lanesRead) :
    (sineResponse i.laneFunction c W i.operands).y.get k = (i.laneFunction (i.operands.get k)).y ∧
    (sineResponse i.laneFunction c W i.operands).nf.getLsbD k = !isFinite (i.operands.get k) := by
  rw [sineResponse_y, sineResponse_nf, laneFunction_nf hs, hW]
  simp [hk]

/-- Settles O38: the flags are those of `exec_flags`, and each evaluated lane of the record is answered on its own. -/
theorem nonFiniteIsRecorded : Obligations.NonFiniteIsRecorded := by
  intro i s t hs hf h
  obtain ⟨hnf, hill⟩ := exec_flags h
  have hclr : i ≠ .rdclrstat := ((isSine_iff i).1 hs).2
  obtain ⟨W, hW, he⟩ := exec_sine_fits hs hf
  refine ⟨by simp [hnf, hclr, hf], (statusWord_fields t).1, by simp [hill, hclr, hf], _,
    congrArg State.queue (next_inj (h.symm.trans he)), rfl, fun k hk => ?_⟩
  obtain ⟨hy, hbit⟩ := sineResponse_evaluated hs hW i.word hk
  exact ⟨fun hfin => ⟨hbit.trans (by simp [hfin]), hy.trans (laneFunction_y_of_not_finite hs hfin)⟩,
    fun hfin => ⟨hbit.trans (by simp [hfin]), hy⟩⟩

/-! ## The illegal command comes first (60_exceptions.md R113) -/

/-- A status command fits every implementation. -/
theorem fits_of_status {i : Instr} (h : i.isSine = false) (lanes : LaneCount) : i.fits lanes = true := by
  obtain rfl | rfl := status_of_not_sine h <;> rfl

/-- A status command sets no flag. -/
theorem status_sets_no_flag {i : Instr} {s t : State} (hs : i.isSine = false) (h : exec i s = .next t) :
    t.ill = (s.ill && t.ill) ∧ t.nf = (s.nf && t.nf) := by
  obtain ⟨hnf, hill⟩ := exec_flags h
  obtain rfl | rfl := status_of_not_sine hs
  · simp [hnf, hill, Instr.fits]
  · simp [hnf, hill]

/-- Settles O39: an illegal request has the record and the flags of `takeIllegal`; one that decodes to a command that
fits has the record of `responseRecordFields`, with `ill` 0. -/
theorem illegalComesFirst : Obligations.IllegalComesFirst := by
  intro r s t h
  by_cases hillegal : ∀ i, decode r = .ok i → i.fits s.cfg.lanes = false
  · obtain rfl := next_inj ((executeRequest_illegal hillegal).symm.trans h)
    have hfits {i : Instr} (hd : decode r = .ok i) : i.fits s.cfg.lanes ≠ true := by simp [hillegal i hd]
    exact ⟨illegalResponse r.cmd, rfl, fun _ => ⟨rfl, rfl, rfl⟩, fun i hd _ hf => absurd hf (hfits hd),
      fun i hd hs => absurd (fits_of_status hs _) (hfits hd), iff_of_true rfl hillegal⟩
  · obtain ⟨i, hd, hf⟩ : ∃ i, decode r = .ok i ∧ i.fits s.cfg.lanes = true := by simpa using hillegal
    have hunique {j : Instr} (hj : decode r = .ok j) : i = j := Except.ok.inj (hd.symm.trans hj)
    obtain ⟨p, hq, hill, -, hsine, hstatus⟩ := responseRecordFields.1 r i s t hd hf h
    rw [executeRequest_ok hd] at h
    refine ⟨p, hq, by simp [hill], fun j hj hs _ k => ?_, fun j hj hs => ?_, iff_of_false (by simp [hill]) hillegal⟩
    · obtain rfl := hunique hj
      exact (hsine hs k).2
    · obtain rfl := hunique hj
      exact ⟨hill, (hstatus hs).2, status_sets_no_flag hs h⟩

end Sys2Proof.Machine
end

section
/-! PROOF. The response transfer (70_reset_and_hazards.md R137), and a command offered during reset (R141). -/

namespace Sys2Proof.Machine

/-! ## The response on offer -/

/-- A response transfer happens exactly as 10_state.md R25 and 70_reset_and_hazards.md R137 say. -/
theorem delivers_iff (s : State) (e : Edge) : s.delivers e = true ↔
    s.wasReset = true ∧ e.rst = false ∧ s.queue ≠ [] ∧
      (s.offered = true ∨ e.blockOffer = true ∨ s.offerBound e = 0) ∧ e.rspReady = true := by
  cases hw : s.wasReset <;> cases hr : e.rst <;> simp [State.delivers, State.rspValid, hw, hr, and_assoc, or_assoc]

/-- After the first reset the host alone decides whether a response on offer is taken. -/
theorem delivers_of_rspValid {s : State} {e : Edge} (hw : s.wasReset = true) (hv : s.rspValid e = true) :
    s.delivers e = e.rspReady := by
  simp [State.delivers, hw, hv]

/-- After the first reset the wires of a response on offer show the head of `Q` (10_state.md R20). -/
theorem rspRecord_of_rspValid {s : State} {e : Edge} (hw : s.wasReset = true) (hv : s.rspValid e = true) :
    s.rspRecord e = s.queue.head? := by
  simp [State.rspRecord, hw, hv]

/-- A head on offer is on offer at every edge without reset, whatever the block chooses at it. -/
theorem rspValid_of_offered {s : State} {e : Edge} (hw : s.wasReset = true) (hr : e.rst = false)
    (hq : s.queue ≠ []) (ho : s.offered = true) : s.rspValid e = true := by
  simp [rspValid_eq hw hr, hq, ho]

/-! ## What an edge does to the response channel -/

/-- After the first reset and without another, an edge does to the response channel what the response transfer does,
and adds at most behind what that leaves in `Q`. -/
theorem step_response_channel {s t : State} {e : Edge} {rest : List Edge} (hw : s.wasReset = true)
    (hE : s.edges = e :: rest) (hr : e.rst = false) (h : step s = .next t) :
    t.taken = (s.settleChannels e).taken ∧ t.offered = (s.settleChannels e).offered ∧
      ∃ added, t.queue = (s.settleChannels e).queue ++ added := by
  obtain ⟨hr', -⟩ | ⟨-, -, u, hu, rfl⟩ | ⟨-, -, rfl⟩ := edge_cases hw hE h
  · simp [hr] at hr'
  · obtain ⟨_, _, p, -, he⟩ := executeRequest_cases e.req (s.settleChannels e)
    obtain rfl := next_inj (he.symm.trans hu)
    exact ⟨rfl, rfl, [p], rfl⟩
  · exact ⟨rfl, rfl, [], (List.append_nil _).symm⟩

/-- An edge without a response transfer hands over nothing, in reset and before the first one too. -/
theorem step_taken_of_not_delivers {s t : State} {e : Edge} {rest : List Edge} (hE : s.edges = e :: rest)
    (hd : s.delivers e = false) (h : step s = .next t) : t.taken = s.taken := by
  have hsettle : (s.settleChannels e).taken = s.taken := by simp [settleChannels_taken, hd]
  obtain ⟨hnil, -⟩ | ⟨e', rest', hE', hc⟩ := step_next h
  · simp [hE] at hnil
  obtain ⟨rfl, rfl⟩ := List.cons.inj (hE.symm.trans hE')
  obtain ⟨-, rfl⟩ | ⟨-, -, rfl⟩ | ⟨hr, hw, -⟩ | ⟨hr, hw, -⟩ := hc
  · rfl
  · rfl
  · exact (step_response_channel hw hE hr h).1.trans hsettle
  · exact (step_response_channel hw hE hr h).1.trans hsettle

/-- A taken response leaves `Q` for the host, and what waits behind it keeps its place. -/
theorem step_hands_over_head {s t : State} {e : Edge} {rest : List Edge} {p : Response} {q : List Response}
    (hw : s.wasReset = true) (hE : s.edges = e :: rest) (hr : e.rst = false) (hq : s.queue = p :: q)
    (hd : s.delivers e = true) (h : step s = .next t) :
    t.taken = s.taken ++ [p] ∧ ∃ added, t.queue = q ++ added := by
  obtain ⟨htaken, -, hqueue⟩ := step_response_channel hw hE hr h
  simp only [settleChannels_taken, settleChannels_queue, hd, hq, if_true] at htaken hqueue
  exact ⟨htaken, hqueue⟩

/-- A response on offer that is not taken is on offer, with its fields unchanged, at whatever edge without reset comes
next (70_reset_and_hazards.md R137): the edge keeps it at the head of `Q` and marks it as offered. -/
theorem step_keeps_offer {s t : State} {e : Edge} {rest : List Edge} {p : Response} {q : List Response}
    (hw : s.wasReset = true) (hE : s.edges = e :: rest) (hr : e.rst = false) (hq : s.queue = p :: q)
    (hv : s.rspValid e = true) (hd : s.delivers e = false) (h : step s = .next t) {e' : Edge} (hr' : e'.rst = false) :
    t.rspValid e' = true ∧ t.rspRecord e' = some p := by
  obtain ⟨-, hoffered, added, hqueue⟩ := step_response_channel hw hE hr h
  simp only [settleChannels_offered, settleChannels_queue, hd, hq, hv, Bool.false_eq_true, if_false] at hoffered hqueue
  have hw' := step_wasReset hw h
  have hv' : t.rspValid e' = true := rspValid_of_offered hw' hr' (by simp [hqueue]) hoffered
  exact ⟨hv', by simp [rspRecord_of_rspValid hw' hv', hqueue]⟩

/-- Settles O48: with a response on offer the host decides between `step_hands_over_head` and `step_keeps_offer`; each
reason for no delivery contradicts a condition of `delivers_iff`. -/
theorem responseTransferRule : Obligations.ResponseTransferRule := by
  refine ⟨fun s t e rest p q hw hE hr hq hv h => ?_, fun s t e rest hE hwhy h => ?_⟩
  · have hd := delivers_of_rspValid hw hv
    refine ⟨by simp [rspRecord_of_rspValid hw hv, hq], fun hready => ?_, fun hready => ?_⟩
    · exact step_hands_over_head hw hE hr hq (hd.trans hready) h
    · have hd' := hd.trans hready
      exact ⟨step_taken_of_not_delivers hE hd' h, fun e' hr' => step_keeps_offer hw hE hr hq hv hd' h hr'⟩
  · refine step_taken_of_not_delivers hE (Bool.eq_false_iff.2 fun hd => ?_) h
    obtain ⟨-, hr, hq, hoffer, hready⟩ := (delivers_iff s e).1 hd
    obtain hq' | hready' | hr' | ⟨ho, hb, hn⟩ := hwhy
    · exact hq hq'
    · simp [hready] at hready'
    · simp [hr] at hr'
    · simp [ho, hb, hn.ne'] at hoffer

/-! ## A command offered during reset (70_reset_and_hazards.md R141) -/

/-- An empty `Q` stays empty in the response transfer, and nothing is handed over. -/
theorem settleChannels_of_empty {s : State} (hq : s.queue = []) (e : Edge) :
    (s.settleChannels e).queue = [] ∧ (s.settleChannels e).taken = s.taken := by
  simp [settleChannels_queue, settleChannels_taken, hq]

/-- An edge that accepts a request with `Q` empty leaves the one response of that request, and hands over nothing. -/
theorem step_accept_of_empty {s : State} {e : Edge} {rest : List Edge} (hE : s.edges = e :: rest)
    (hst : s.requestStable e = true) (ha : s.accepts e = true) (hq : s.queue = []) :
    ∃ u p, step s = .next u ∧ u.queue = [p] ∧ p.cmd = e.req.cmd ∧ u.taken = s.taken := by
  obtain ⟨_, _, p, hp, -, hstep⟩ := step_accept hE hst ha
  obtain ⟨hqueue, htaken⟩ := settleChannels_of_empty hq e
  exact ⟨_, p, hstep, by simp [hqueue], hp, htaken⟩

/-- Settles O51: the reset edge empties `Q` and leaves no duty to the host, so the next edge accepts by
`accepts_iff`. -/
theorem offeredDuringReset : Obligations.OfferedDuringReset := by
  intro s e e' rest hE hr _ hr' hv' hreq hready hdepth
  have ha : ({ s.resetEdge with edges := e' :: rest } : State).accepts e' = true :=
    (accepts_iff _ e').2 ⟨rfl, hr', hv', hdepth, .inl hready⟩
  obtain ⟨u, p, hu, hq, hp, htaken⟩ := step_accept_of_empty rfl rfl ha rfl
  exact ⟨_, u, p, step_of_rst hE hr, rfl, rfl, hu, hq, hp.trans (by rw [hreq]), htaken⟩

end Sys2Proof.Machine
end

section
/-! PROOF. The statements about the encoding (30_encoding.md R50 to R57, R62, R63): the two round trips, the table of
command words, the classes of rejected words, and the assembler. -/

namespace Sys2Proof

open Machine

/-! ## The round trips (30_encoding.md R57, R62) -/

/-- The request of a command decodes to the command. -/
@[simp] theorem decode_encode (i : Instr) : decode (encode i) = .ok i := by
  refine decode_ok_iff.2 ⟨rfl, ?_⟩
  rw [encode, ofBus_toBus, onLanes_operands]

/-- Settles O3: the word of a command is the word of its kind, and its bus holds its operands. -/
theorem decodeOfEncode : Obligations.DecodeOfEncode := decode_encode

/-- Settles O4: a decoded command has the word of its request, and its operands are the lanes it reads. -/
theorem encodeOfDecode : Obligations.EncodeOfDecode := fun _ _ h =>
  ⟨(decode_ok_iff.1 h).1, fun k => (laneOfBus_toBus _ k).trans (operands_of_decode h k)⟩

/-! ## The command words (30_encoding.md R55, R56) -/

/-- A request decodes exactly when its word is one of the eight. -/
theorem decode_ok_iff_mem {r : Request} : (∃ i, decode r = .ok i) ↔ r.cmd ∈ legalWords := by
  rw [← not_iff_not, ← decode_error_iff]
  cases decode r <;> simp

/-- Settles O1: each word is the word of its kind, read on the lanes of the bus. -/
theorem legalWordsDecodeAsTabled : Obligations.LegalWordsDecodeAsTabled :=
  ⟨fun _ => ⟨decode_of_word (.sin .one) rfl, decode_of_word (.sin .two) rfl, decode_of_word (.sin .four) rfl,
    decode_of_word (.sint .one) rfl, decode_of_word (.sint .two) rfl, decode_of_word (.sint .four) rfl,
    decode_of_word .rdstat rfl, decode_of_word .rdclrstat rfl⟩, fun _ => decode_ok_iff_mem⟩

/-- The eight legal words as numbers. -/
theorem mem_legalWords_iff (c : Byte) : c ∈ legalWords ↔
    c.toNat = 0 ∨ c.toNat = 4 ∨ c.toNat = 8 ∨ c.toNat = 1 ∨ c.toNat = 5 ∨ c.toNat = 9 ∨ c.toNat = 2 ∨
      c.toNat = 18 := by
  simp [legalWords, ← BitVec.toNat_inj]

/-- Settles O2: the classes are those of the numbers below 256 that are none of the eight. -/
theorem rejectedWordClasses : Obligations.RejectedWordClasses := by
  rintro r c rfl
  have hlt := r.cmd.isLt
  rw [decode_error_iff, mem_legalWords_iff]
  omega

/-- Settles O5: the first four words are those of their kinds, and the last two have a reserved or forbidden `WC`. -/
theorem writtenOutWordsDecode : Obligations.WrittenOutWordsDecode := by
  refine ⟨(decode_of_word (.sin .two) rfl).trans ?_, (decode_of_word (.sint .four) rfl).trans ?_,
    (decode_of_word (.sin .one) rfl).trans ?_, decode_of_word .rdclrstat rfl, ?_, ?_⟩ <;> decide

/-! ## The assembler (30_encoding.md R62, R63) -/

/-- A line that stands for a command assembles to that command's request. -/
theorem assemble_of_instrOfLine {l : AsmLine} {i : Instr} (h : instrOfLine l = some i) : assemble l = encode i := by
  cases l with
  | cmd c xs => cases h
  | _ => exact congrArg encode (Option.some.inj h)

/-- Lane k of a `.cmd` line is the word of its operand k, or 0x00000000 (30_encoding.md R62). -/
theorem lanesOfOperands_get (xs : List AsmOperand) (k : Fin 4) :
    (lanesOfOperands xs).get k = ((xs.map operandWord)[k.val]?).getD 0 := by
  rw [← List.getD_eq_getElem?_getD]
  fin_cases k <;> rfl

/-- Settles O6: every line but a `.cmd` assembles to a request the decoder takes back, a `.cmd` puts its operands on
the bus, and `nop` is an RDSTAT. -/
theorem assembledLinesDecode : Obligations.AssembledLinesDecode := by
  refine ⟨fun _ => rfl, fun _ => rfl, rfl, fun l i h => ?_, fun c xs => ⟨rfl, fun k => ?_⟩, fun s => ?_⟩
  · rw [assemble_of_instrOfLine h, decode_encode]
  · exact (laneOfBus_toBus _ k).trans (lanesOfOperands_get xs k)
  · exact ⟨_, (executeRequest_ok (decode_encode .rdstat) s).trans (exec_rdstat s)⟩

end Sys2Proof
end

section
/-! PROOF. The statements about one command and one edge (10_state.md R13 to R16, R24; 60_exceptions.md R110;
70_reset_and_hazards.md R133, R135, R136): the frame, idempotence, the worked examples, the accept step, the request
transfer and the reset state. -/

namespace Sys2Proof.Machine

/-! ## One command -/

/-- Settles O14: a command sets the two flags and appends one record, and the flags are those of `exec_flags`. -/
theorem frameOfEveryCommand : Obligations.FrameOfEveryCommand := by
  intro i s t h
  obtain ⟨hnf, hill⟩ := exec_flags h
  obtain ⟨_, _, p, hp, he⟩ := exec_cases i s
  obtain rfl := next_inj (he.symm.trans h)
  refine ⟨rfl, rfl, rfl, rfl, rfl, rfl, rfl, rfl, ⟨p, rfl, hp⟩, fun hf hi => hill.trans ?_,
    fun hwhy => hnf.trans ?_⟩
  · simp [hf, hi]
  · obtain hf | rfl | ⟨hi, hfin⟩ := hwhy
    · have hi : i ≠ .rdclrstat := by rintro rfl; cases hf
      simp [hf, hi]
    · simp
    · simp [hi, hfin]

/-- Settles O16: a request always goes on with one record, and there is no fault (60_exceptions.md R110). -/
theorem everyCommandAnswersOnce : Obligations.EveryCommandAnswersOnce := by
  refine ⟨fun r s => ?_, fun s f hfault => ?_⟩
  · obtain ⟨_, _, p, hp, he⟩ := executeRequest_cases r s
    exact ⟨_, p, he, rfl, hp⟩
  · cases f

/-- A lane count is known by its number of lanes. -/
theorem count_injective {W W' : LaneCount} (h : W.count = W'.count) : W = W' := by
  cases W <;> cases W' <;> simp_all

/-- Settles O42: the record depends on the parameters alone, and a flag raised twice is raised. -/
theorem sineCommandsAreIdempotent : Obligations.SineCommandsAreIdempotent := by
  intro i s t u hs ht hu
  cases hf : i.fits s.cfg.lanes with
  | false =>
    obtain rfl := next_inj ((exec_unfit hf).symm.trans ht)
    obtain rfl := next_inj ((exec_unfit (s := s.takeIllegal i.word) hf).symm.trans hu)
    exact ⟨rfl, rfl, illegalResponse i.word, List.append_assoc ..⟩
  | true =>
    obtain ⟨W, hW, he⟩ := exec_sine_fits hs hf
    obtain rfl := next_inj (he.symm.trans ht)
    obtain ⟨W', hW', he'⟩ := exec_sine_fits (s := (s.raiseNf _).respond _) hs hf
    obtain rfl := next_inj (he'.symm.trans hu)
    obtain rfl := count_injective (hW.trans hW'.symm)
    exact ⟨by simp, rfl, _, List.append_assoc ..⟩

/-- The radian lanes of the worked examples (40_sine.md R81 to R83). -/
theorem radian_examples :
    sinLane 0x3F800000 = ⟨0x3F576AA1, false⟩ ∧
    (sinLane 0x3FC90FDB = ⟨0x3F800000, false⟩ ∧ sinLane 0x40490FDB = ⟨0x80000000, false⟩) ∧
    sinLane 0x00000000 = ⟨0x00000000, false⟩ ∧ sinLane 0x80000000 = ⟨0x80000000, false⟩ ∧
    sinLane 0x4096CBE4 = ⟨0xBF800000, false⟩ ∧ sinLane 0x7FC00000 = ⟨0x00000000, true⟩ := by
  decide +kernel

/-- The turns lanes of the worked examples (40_sine.md R84 to R86). -/
theorem turns_examples :
    sintLane 0x3E000000 = ⟨0x3F3504F3, false⟩ ∧
    (sintLane 0x3E800000 = ⟨0x3F800000, false⟩ ∧ sintLane 0x3F400000 = ⟨0xBF800000, false⟩) ∧
    sintLane 0x3DCCCCCD = ⟨0x3F167911, false⟩ ∧ sintLane 0x3EFFFFFF = ⟨0x34490000, false⟩ ∧
    sintLane 0xC0100000 = ⟨0xBF800000, false⟩ ∧ sintLane 0x4A800001 = ⟨0x80000000, false⟩ := by
  decide +kernel

/-- Settles O33: each example is the body of its width with the lanes run. -/
theorem workedExamplesHold : Obligations.WorkedExamplesHold := by
  intro s hlanes hnf
  have h2 : 2 ≤ s.cfg.lanes.count := by rw [hlanes]; decide
  have h4 : 4 ≤ s.cfg.lanes.count := by rw [hlanes]; decide
  obtain ⟨one, ⟨two0, two1⟩, four0, four1, four2, four3⟩ := radian_examples
  obtain ⟨tone, ⟨ttwo0, ttwo1⟩, tfour0, tfour1, tfour2, tfour3⟩ := turns_examples
  refine ⟨(sineCommand_one ..).trans ?_, (sineCommand_two _ _ _ _ _ h2).trans ?_,
    (sineCommand_four _ _ _ _ _ _ _ h4).trans ?_, (sineCommand_one ..).trans ?_,
    (sineCommand_two _ _ _ _ _ h2).trans ?_, (sineCommand_four _ _ _ _ _ _ _ h4).trans ?_⟩
  · rw [one, hnf]; rfl
  · rw [two0, two1, hnf]; rfl
  · rw [four0, four1, four2, four3, hnf]; rfl
  · rw [tone, hnf]; rfl
  · rw [ttwo0, ttwo1, hnf]; rfl
  · rw [tfour0, tfour1, tfour2, tfour3, hnf]; rfl

/-! ## The accept step (10_state.md R24) -/

/-- After the first reset and outside reset a request transfer is `req_valid` and `req_ready` together. -/
theorem accepts_eq {s : State} {e : Edge} (hw : s.wasReset = true) (hr : e.rst = false) :
    s.accepts e = (e.reqValid && s.reqReady e) := by
  simp [State.accepts, hw, hr]

/-- An edge that accepts executes its request on what the response transfer of the same edge leaves. -/
theorem step_eq_execute {s : State} {e : Edge} {rest : List Edge} (hE : s.edges = e :: rest)
    (hst : s.requestStable e = true) (ha : s.accepts e = true) :
    step s = andThen (executeRequest e.req (s.settleChannels e)) (·.closeEdge none rest) := by
  obtain ⟨hw, hr, -⟩ := (accepts_iff s e).1 ha
  simp [step, hE, hr, hw, hst, ha]

/-- Settles O43: the request executes its command. -/
theorem stepRunsDecodedCommand : Obligations.StepRunsDecodedCommand := by
  intro s t e rest i hE _ hst ha hd ht
  rw [step_eq_execute hE hst ha, executeRequest_ok hd, ht]
  rfl

/-- Settles O44: the request executes the illegal command. -/
theorem stepRunsIllegalCommand : Obligations.StepRunsIllegalCommand := by
  intro s e rest err hE _ hst ha hd
  rw [step_eq_execute hE hst ha, executeRequest_error hd]
  rfl

/-! ## The host's entry -/

section Fetch
variable {s : State} (w : Nat)

/-- The state the host's entry makes has room in `Q`. -/
theorem withFetchWord_room (hs : s.Inv) : (s.withFetchWord 8 w).queue.length < s.cfg.depth := by
  have hroom := hs.room
  have hdepth : 1 ≤ s.cfg.depth := by
    have := hs.params
    simp only [Config.wf, Bool.and_eq_true, decide_eq_true_eq] at this
    exact this.1
  simp only [State.withFetchWord, List.length_drop]
  omega

/-- The block is willing at the edge the host's entry places. -/
theorem withFetchWord_accepts (hs : s.Inv) :
    (s.withFetchWord 8 w).accepts (fetchEdge (w % 2 ^ 8)) = true :=
  (accepts_iff _ _).2 ⟨rfl, rfl, rfl, withFetchWord_room w hs, .inl rfl⟩

/-- A response is on offer at the placed edge exactly when one was before. -/
theorem withFetchWord_rspValid (hs : s.Inv) :
    (s.withFetchWord 8 w).rspValid (fetchEdge (w % 2 ^ 8)) = (s.withFetchWord 8 w).offered := by
  have hoffer := hs.offer
  rw [rspValid_eq rfl rfl]
  cases ho : (s.withFetchWord 8 w).offered with
  | false => simp [fetchEdge, State.offerBound, State.withFetchWord]
  | true =>
    obtain ⟨ho', hsurplus⟩ : s.offered = true ∧ s.queue.length + 1 - s.cfg.depth = 0 := by
      simpa [State.withFetchWord] using ho
    simp [State.withFetchWord, hsurplus, hoffer ho']

/-- The placed edge does nothing to the channels: the host takes nothing, the block offers nothing new and keeps no
request waiting. -/
theorem withFetchWord_settle (hs : s.Inv) :
    (s.withFetchWord 8 w).settleChannels (fetchEdge (w % 2 ^ 8)) = s.withFetchWord 8 w := by
  have hvalid := withFetchWord_rspValid w hs
  have hready : (s.withFetchWord 8 w).reqReady (fetchEdge (w % 2 ^ 8)) = true :=
    (accepts_eq rfl rfl).symm.trans (withFetchWord_accepts w hs)
  have hdel : (s.withFetchWord 8 w).delivers (fetchEdge (w % 2 ^ 8)) = false := by simp [State.delivers, fetchEdge]
  have hnr : (s.withFetchWord 8 w).nextReadyWithin (fetchEdge (w % 2 ^ 8)) = none := by
    rw [State.nextReadyWithin, hready]
    simp
  have hno : (s.withFetchWord 8 w).nextOfferWithin (fetchEdge (w % 2 ^ 8)) = none := by
    simp [State.nextOfferWithin, fetchEdge]
  rw [State.settleChannels, State.settleResponse, hdel, hvalid, hnr, hno]
  rfl

end Fetch

/-- The request the host's entry places decodes to the command of the word. -/
theorem decode_of_decodeTableWord {w : Nat} {i : Instr} (h : decodeTableWord 8 w = some i) :
    decode (fetchEdge (w % 2 ^ 8)).req = .ok i := by
  rw [decodeTableWord] at h
  split at h
  · next hw =>
    rw [fetchEdge, Nat.mod_eq_of_lt hw.2]
    cases hd : decode { cmd := BitVec.ofNat 8 w, x := 0 } with
    | ok j =>
      rw [hd] at h
      exact congrArg _ (Option.some.inj h)
    | error e =>
      rw [hd] at h
      cases h
  · cases h

/-- Settles O60: the placed edge accepts the placed word and does nothing else, and a command does not see the coming
edges. -/
theorem fetchedWordRuns : Obligations.FetchedWordRuns := by
  intro s w i hs hd
  obtain ⟨nf, ill, p, -, he⟩ := exec_cases i (s.withFetchWord 8 w)
  refine ⟨_, exec_withEdges s.edges he, ?_⟩
  refine stepRunsDecodedCommand _ _ (fetchEdge (w % 2 ^ 8)) s.edges i rfl rfl rfl (withFetchWord_accepts w hs)
    (decode_of_decodeTableWord hd) ?_
  rw [withFetchWord_settle w hs]
  exact he

end Sys2Proof.Machine
end

section
/-! PROOF. The request channel and the reset state (70_reset_and_hazards.md R133, R135, R136; 10_state.md R23): when
`req_ready` may be 0 and for how long, the host that changes its request, and what reset leaves. -/

namespace Sys2Proof.Machine

/-! ## The request transfer (70_reset_and_hazards.md R135) -/

/-- What an edge after the first reset and outside reset leaves: with a request transfer one response more, which
carries the command word, and without one the same responses and flags, and the request on offer. -/
theorem step_request_channel {s t : State} {e : Edge} {rest : List Edge} (hw : s.wasReset = true)
    (hE : s.edges = e :: rest) (hr : e.rst = false) (h : step s = .next t) :
    (s.accepts e = true ∧ t.held = none ∧ ∃ p, t.responses = s.responses ++ [p] ∧ p.cmd = e.req.cmd) ∨
    (s.accepts e = false ∧ t = (s.settleChannels e).closeEdge e.offer rest) := by
  have hresp := settleChannels_responses s e
  obtain ⟨hnil, -⟩ | ⟨e', rest', hE', hc⟩ := step_next h
  · simp [hE] at hnil
  obtain ⟨rfl, rfl⟩ := List.cons.inj (hE.symm.trans hE')
  obtain ⟨hr', -⟩ | ⟨-, hw', -⟩ | ⟨-, -, -, ha, _, _, p, hp, -, rfl⟩ | ⟨-, -, -, ha, rfl⟩ := hc
  · simp [hr] at hr'
  · simp [hw] at hw'
  · refine .inl ⟨ha, rfl, p, ?_, hp⟩
    rw [← hresp]
    simp [State.responses]
  · exact .inr ⟨ha, rfl⟩

/-- An edge with room at which `req_ready` stays 0 accepts nothing and uses up one edge of the wait. -/
theorem step_waits {s t : State} {e : Edge} {rest : List Edge} (hw : s.wasReset = true) (hE : s.edges = e :: rest)
    (hr : e.rst = false) (hroom : s.queue.length < s.cfg.depth) (hready : s.reqReady e = false)
    (h : step s = .next t) :
    t.readyWithin = some (s.readyBound e - 1) ∧ t.queue.length < t.cfg.depth := by
  obtain ⟨-, hnext⟩ := readyBound_countdown hw hr (by simpa [State.hasRoom] using hroom) hready
  obtain ⟨ha, -⟩ | ⟨-, rfl⟩ := step_request_channel hw hE hr h
  · simp [accepts_eq hw hr, hready] at ha
  · exact ⟨hnext, by simpa using (settleChannels_queue_length_le s e).trans_lt hroom⟩

/-- A wait for `req_ready` ends within its bound, by induction on the bound. -/
theorem reqReady_within {n : Nat} {s u : State} {e : Edge} {rest : List Edge} (hw : s.wasReset = true)
    (hE : s.edges = e :: rest) (hroom : s.queue.length < s.cfg.depth) (hn : s.readyBound e = n)
    (hlen : n < s.edges.length) (hrst : NoReset (n + 1) s) (h : stepN n s = .next u) :
    ∃ (k : Nat) (t : State) (e' : Edge) (rest' : List Edge), k ≤ n ∧ stepN k s = .next t ∧
      t.edges = e' :: rest' ∧ t.reqReady e' = true := by
  induction n generalizing s e rest with
  | zero =>
    have hr : e.rst = false := hrst e (by simp [hE])
    refine ⟨0, s, e, rest, le_rfl, rfl, hE, ?_⟩
    simp [reqReady_eq hw hr, State.hasRoom, hroom, hn]
  | succ n ih =>
    cases hready : s.reqReady e with
    | true => exact ⟨0, s, e, rest, Nat.zero_le _, rfl, hE, hready⟩
    | false =>
      obtain ⟨t, hst, hrun⟩ := stepN_succ h
      obtain ⟨-, hedges⟩ := step_cfg_edges hst
      obtain ⟨hfirst, hrest⟩ := noReset_succ hedges hrst
      obtain ⟨hwithin, hroom'⟩ := step_waits hw hE (hfirst e (by simp [hE])) hroom hready hst
      have htl : t.edges = rest := by simp [hedges, hE]
      have hlen' : n < t.edges.length := by simpa [htl, hE] using hlen
      obtain ⟨e', rest', hE'⟩ := List.exists_cons_of_length_pos (Nat.zero_lt_of_lt hlen')
      obtain ⟨k, v, e'', rest'', hk, hv, hE'', hready'⟩ :=
        ih (step_wasReset hw hst) hE' hroom' (by rw [State.readyBound, hwithin, hn]; rfl) hlen' hrest hrun
      exact ⟨k + 1, v, e'', rest'', Nat.succ_le_succ hk, by simp [stepN, hst, hv], hE'', hready'⟩

/-- Settles O46: `req_ready` as `reqReady_eq` gives it, the end of its wait, and the two kinds of edge. -/
theorem requestTransferRule : Obligations.RequestTransferRule := by
  refine ⟨fun s e hw hr h => ?_, fun s e hw hr hroom => ⟨fun hpos => ?_, fun h0 => ?_⟩,
    fun s u e rest hw hE hroom hlen hrst h => reqReady_within hw hE hroom rfl hlen hrst h,
    fun s t e rest hw hE hr h => ?_⟩
  · rw [reqReady_eq hw hr, Bool.and_eq_true] at h
    simpa [State.hasRoom] using h.1
  · simp [reqReady_eq hw hr, State.hasRoom, hroom, hpos.ne']
  · simp [reqReady_eq hw hr, State.hasRoom, hroom, h0]
  · obtain ⟨ha, -, hp⟩ | ⟨ha, rfl⟩ := step_request_channel hw hE hr h
    · rw [accepts_eq hw hr, Bool.and_eq_true] at ha
      exact ⟨fun _ => hp, fun hno => absurd ha hno⟩
    · rw [accepts_eq hw hr] at ha
      exact ⟨fun hyes => by simp [hyes] at ha, fun _ => by simp⟩

/-! ## Request stability (70_reset_and_hazards.md R136) -/

/-- The host breaks its duty exactly when it drops or changes the request it must hold. -/
theorem requestStable_eq_false_iff (s : State) (e : Edge) :
    s.requestStable e = false ↔ ∃ r, s.held = some r ∧ (e.reqValid = false ∨ e.req ≠ r) := by
  unfold State.requestStable
  cases s.held <;> cases e.reqValid <;> simp

/-- A host that breaks its duty is refused. -/
theorem step_of_unstable {s : State} {e : Edge} {rest : List Edge} (hw : s.wasReset = true) (hE : s.edges = e :: rest)
    (hr : e.rst = false) (hst : s.requestStable e = false) : step s = .refused .requestChanged := by
  simp [step, hE, hr, hw, hst]

/-- Nothing else is refused. -/
theorem unstable_of_refused {s : State} {c : Refusal} (h : step s = .refused c) :
    c = .requestChanged ∧ s.wasReset = true ∧ ∃ e rest, s.edges = e :: rest ∧ e.rst = false ∧
      s.requestStable e = false := by
  obtain ⟨-, hs⟩ | ⟨e, rest, hE, hc⟩ := step_cases s
  · cases h.symm.trans hs
  obtain ⟨-, hs⟩ | ⟨-, -, hs⟩ | ⟨-, -, -, -, hs⟩ | ⟨-, -, -, -, hs⟩ | ⟨hr, hw, hst, hs⟩ := hc
  · cases h.symm.trans hs
  · cases h.symm.trans hs
  · obtain ⟨_, _, _, -, he⟩ := executeRequest_cases e.req (s.settleChannels e)
    rw [he] at hs
    cases h.symm.trans hs
  · cases h.symm.trans hs
  · cases h.symm.trans hs
    exact ⟨rfl, hw, e, rest, hE, hr, hst⟩

/-- Settles O47: a step is refused exactly when the host breaks its duty, and the request held after an edge is the
one that edge offered and did not accept. -/
theorem changedRequestRefused : Obligations.ChangedRequestRefused := by
  refine ⟨fun s e rest r hw hE hr hheld hbreak => ?_, fun s c h => ?_, fun s t e rest hE hr h => ?_,
    fun s t e rest hw hE hr h => ?_⟩
  · exact step_of_unstable hw hE hr ((requestStable_eq_false_iff s e).2 ⟨r, hheld, hbreak⟩)
  · obtain ⟨hc, hw, e, rest, hE, hr, hst⟩ := unstable_of_refused h
    obtain ⟨r, hheld, hbreak⟩ := (requestStable_eq_false_iff s e).1 hst
    exact ⟨hc, hw, e, rest, r, hE, hr, hheld, hbreak⟩
  · rw [← next_inj ((step_of_rst hE hr).symm.trans h)]
    rfl
  · obtain ⟨ha, hheld, -⟩ | ⟨ha, rfl⟩ := step_request_channel hw hE hr h
    · rw [accepts_eq hw hr, Bool.and_eq_true] at ha
      simp [hheld, ha]
    · rw [accepts_eq hw hr] at ha
      rw [closeEdge_held, Edge.offer]
      cases hv : e.reqValid <;> simp_all

/-! ## Edges that wait -/

/-- An edge at which the host offers nothing and takes, and the block neither accepts nor offers, for n edges if it
may. -/
def waitEdge (n : Nat) : Edge :=
  { rst := false
    reqValid := false
    req := { cmd := 0, x := 0 }
    rspReady := true
    blockReady := false
    blockOffer := false
    readyWithin := n
    offerWithin := n
    unspecified := .zero }

/-- The edge of a host that offers nothing, and need not, only settles the channels. -/
theorem step_of_no_offer {s : State} {e : Edge} {rest : List Edge} (hw : s.wasReset = true) (hE : s.edges = e :: rest)
    (hr : e.rst = false) (hheld : s.held = none) (hv : e.reqValid = false) :
    step s = .next ((s.settleChannels e).closeEdge none rest) := by
  simp [step, hE, hr, hw, State.requestStable, hheld, State.accepts, hv, Edge.offer]

/-- While edges of its wait are left the block may keep `req_ready` 0, and after one of them there is one less. -/
theorem readyBound_waitEdge {s : State} {m n : Nat} (hw : s.wasReset = true) (hm : m + 1 ≤ n)
    (hb : m + 1 ≤ s.readyBound (waitEdge n)) (held : Option Request) (rest : List Edge) :
    s.reqReady (waitEdge n) = false ∧
      m ≤ ((s.settleChannels (waitEdge n)).closeEdge held rest).readyBound (waitEdge n) := by
  have hready : s.reqReady (waitEdge n) = false := by
    have hpos : s.readyBound (waitEdge n) ≠ 0 := by omega
    simp [reqReady_eq hw (e := waitEdge n) rfl, hpos, show (waitEdge n).blockReady = false from rfl]
  refine ⟨hready, ?_⟩
  simp only [State.readyBound, closeEdge_readyWithin, settleChannels_readyWithin, State.nextReadyWithin, hready]
  split
  · exact Nat.le_sub_one_of_lt hb
  · exact Nat.le_of_succ_le hm

/-- At every edge of a run of waiting edges `req_ready` is 0, by induction on the number of the edge. -/
theorem reqReady_of_waiting {k m n : Nat} {s : State} (hw : s.wasReset = true) (hheld : s.held = none)
    (hE : s.edges = List.replicate m (waitEdge n)) (hm : m ≤ n) (hb : m ≤ s.readyBound (waitEdge n)) (hk : k < m) :
    ∃ (t : State) (e : Edge) (rest : List Edge), stepN k s = .next t ∧ t.edges = e :: rest ∧
      t.reqReady e = false := by
  induction k generalizing m s with
  | zero =>
    obtain ⟨m, rfl⟩ := Nat.exists_eq_add_of_lt hk
    rw [Nat.zero_add] at *
    exact ⟨s, _, _, rfl, hE, (readyBound_waitEdge hw hm hb none []).1⟩
  | succ k ih =>
    obtain ⟨m, rfl⟩ : ∃ j, m = j + 1 := ⟨m - 1, by omega⟩
    have hstep := step_of_no_offer hw hE rfl hheld rfl
    have hb' := (readyBound_waitEdge hw hm hb none (List.replicate m (waitEdge n))).2
    obtain ⟨t, e, rest, ht, hE', hready⟩ :=
      ih (s := (s.settleChannels (waitEdge n)).closeEdge none _) (by simpa using hw) rfl rfl (by omega) hb' (by omega)
    exact ⟨t, e, rest, by simp [stepN, hstep, ht], hE', hready⟩

/-! ## The reset state and the state before the first reset (10_state.md R23; 70_reset_and_hazards.md R133) -/

/-- An edge before the first reset with any wires and any state after it. -/
def garbageEdge (ready valid nf ill : Bool) (p : Response) (q : List Response) : Edge :=
  { waitEdge 0 with
    unspecified := { reqReady := ready, rspValid := valid, rsp := p, nf := nf, ill := ill, queue := q } }

/-- Settles O52: the values of reset by its definition, the power-up phase by an edge of any unspecified values, and
the wait after reset by as many waiting edges as asked for. -/
theorem resetStateValues : Obligations.ResetStateValues := by
  refine ⟨⟨rfl, rfl, rfl, by decide, by decide, rspValid_of_empty rfl rfl⟩, fun s t e rest hE hr h => ?_,
    fun s ready valid nf ill p q hw hq => ⟨garbageEdge ready valid nf ill p q, rfl, ?_, ?_, ?_, fun rest => ?_⟩,
    fun s b => ⟨{ garbageEdge b false false false (illegalResponse 0) [] with rst := true }, rfl, ?_⟩,
    fun s e n hr => ⟨List.replicate n (waitEdge n), List.length_replicate, ?_, fun k hk => ?_⟩⟩
  · rw [← next_inj ((step_of_rst hE hr).symm.trans h)]
    exact ⟨rfl, rfl, rfl, rfl, rfl, rfl, rfl, rfl, rfl⟩
  · simp [State.reqReady, hw, garbageEdge]
  · simp [State.rspValid, hw, garbageEdge, waitEdge]
  · simp [State.rspRecord, hw, garbageEdge, waitEdge]
  · refine ⟨{ s.powerUpEdge (garbageEdge ready valid nf ill p q) with edges := rest }, ?_, hw, rfl, rfl, ?_, rfl,
      rfl⟩
    · simp [step, hw, garbageEdge, waitEdge, State.powerUpEdge]
    · exact List.take_of_length_le hq
  · simp [State.reqReady, garbageEdge]
  · exact fun e' he' => (List.eq_of_mem_replicate he').symm ▸ rfl
  · obtain ⟨t, e', rest', ht, hE', hready⟩ :=
      reqReady_of_waiting (s := { s.resetEdge with edges := List.replicate n (waitEdge n) }) rfl rfl rfl le_rfl
        le_rfl hk
    exact ⟨t, e', rest', by rw [stepN, step_of_rst rfl hr]; exact ht, hE', hready⟩

end Sys2Proof.Machine
end

section
/-! PROOF. The invariant (10_state.md R16, R25; 40_sine.md R78; 60_exceptions.md R113): every response appended is well
formed, and every edge keeps the rest. -/

namespace Sys2Proof.Machine

/-! ## Well-formed responses -/

/-- A tame word is a finite one of value at most 1 in magnitude (40_sine.md R78). -/
theorem tameWord_iff (w : Word) : tameWord w = true ↔ isFinite w = true ∧ |valQ w| ≤ 1 := by
  rw [tameWord, Bool.and_eq_true, decide_eq_true_eq, abs_valQ, div_le_one (by positivity)]
  norm_cast

/-- A word whose bits below the sign are at most those of 1.0 is tame. -/
theorem tameWord_of_lowBits_le {w : Word} (h : (lowBits w).toNat ≤ 0x3F800000) : tameWord w = true :=
  (tameWord_iff w).2 (tame_of_lowBits_le h)

@[simp] theorem tameWord_zero : tameWord 0#32 = true := tameWord_of_lowBits_le (by decide)

/-- The lanes of a radian or turns command answer tame words. -/
theorem laneFunction_tame (i : Instr) (w : Word) : tameWord (i.laneFunction w).y = true := by
  have hsin := (tameWord_iff _).2 (sinLane_tame w)
  have hsint := (tameWord_iff _).2 (sintLane_tame w)
  cases i with
  | sinW1 _ => exact hsin
  | sinW2 _ _ => exact hsin
  | sinW4 _ _ _ _ => exact hsin
  | sintW1 _ => exact hsint
  | sintW2 _ _ => exact hsint
  | sintW4 _ _ _ _ => exact hsint
  | rdstat => exact tameWord_zero
  | rdclrstat => exact tameWord_zero

/-- A selected lane answers a tame word when the lane function does: the others are zero (40_sine.md R70). -/
theorem selectLane_tame {f : Word → LaneResult} (hf : ∀ w, tameWord (f w).y = true) (W : LaneCount) (k : Nat)
    (x : Word) : tameWord (selectLane W f k x).y = true := by
  rw [selectLane_y]
  split
  · exact hf x
  · exact tameWord_zero

/-- The record of a radian or turns command is well formed. -/
theorem sineResponse_wf (i : Instr) (c : Byte) (W : LaneCount) (x : Lanes) :
    (sineResponse i.laneFunction c W x).wf = true := by
  have htame := selectLane_tame (laneFunction_tame i) W
  simp [Response.wf, sineResponse, htame]

/-- STATUS is at most 0x23, a tame word (10_state.md R12). -/
theorem statusValue_tame (lanes : LaneCount) (st : Sticky) : tameWord (statusValue lanes st) = true := by
  obtain ⟨nf, ill⟩ := st
  apply tameWord_of_lowBits_le
  revert nf ill
  cases lanes <;> decide

/-- The record of a status command is well formed. -/
theorem statusResponse_wf (c : Byte) (lanes : LaneCount) (st : Sticky) :
    (statusResponse c (statusValue lanes st)).wf = true := by
  simp [Response.wf, statusResponse, statusValue_tame]

/-- The record of an illegal command is well formed: it answers zeros (60_exceptions.md R112). -/
theorem illegalResponse_wf (c : Byte) : (illegalResponse c).wf = true := by
  simp [Response.wf, illegalResponse]

/-- Executing a request adds one well-formed record behind the responses. -/
theorem executeRequest_wf {r : Request} {s t : State} (h : executeRequest r s = .next t) :
    ∃ p, p.wf = true ∧ t.responses = s.responses ++ [p] := by
  cases hd : decode r with
  | error err =>
    obtain rfl := next_inj ((executeRequest_error hd s).symm.trans h)
    exact ⟨_, illegalResponse_wf r.cmd, (List.append_assoc ..).symm⟩
  | ok i =>
    rw [executeRequest_ok hd] at h
    obtain ⟨-, -, he⟩ | ⟨-, -, W, -, he⟩ | ⟨rfl, -⟩ | ⟨rfl, -⟩ := exec_answers i s
    · obtain rfl := next_inj (he.symm.trans h)
      exact ⟨_, illegalResponse_wf i.word, (List.append_assoc ..).symm⟩
    · obtain rfl := next_inj (he.symm.trans h)
      exact ⟨_, sineResponse_wf i i.word W i.operands, (List.append_assoc ..).symm⟩
    · obtain rfl := next_inj ((exec_rdstat s).symm.trans h)
      exact ⟨_, statusResponse_wf _ _ _, (List.append_assoc ..).symm⟩
    · obtain rfl := next_inj ((exec_rdclrstat s).symm.trans h)
      exact ⟨_, statusResponse_wf _ _ _, (List.append_assoc ..).symm⟩

/-! ## The invariant -/

/-- Settles O58: the default parameters are legal, and nothing waits, is on offer or was handed over. -/
theorem resetMeetsInvariant : Obligations.ResetMeetsInvariant :=
  ⟨rfl, Nat.zero_le _, nofun, fun _ _ h => absurd h List.not_mem_nil, fun _ h => absurd h List.not_mem_nil⟩

/-- All responses after the first reset are well formed. -/
theorem State.Inv.responses_wf {s : State} (hs : s.Inv) (hw : s.wasReset = true) :
    ∀ r ∈ s.responses, r.wf = true := by
  intro r hr
  obtain hr | hr := List.mem_append.1 hr
  · exact hs.handed r hr
  · exact hs.waiting hw r hr

/-- After the first reset and without another, an edge keeps the responses of before and adds only well-formed ones. -/
theorem step_keeps_wf {s t : State} {e : Edge} {rest : List Edge} (hs : s.Inv) (hw : s.wasReset = true)
    (hE : s.edges = e :: rest) (hr : e.rst = false) (h : step s = .next t) : ∀ r ∈ t.responses, r.wf = true := by
  have hwf := hs.responses_wf hw
  rw [← settleChannels_responses s e] at hwf
  obtain ⟨hr', -⟩ | ⟨-, -, u, hu, rfl⟩ | ⟨-, -, rfl⟩ := edge_cases hw hE h
  · simp [hr] at hr'
  · obtain ⟨p, hp, hresp⟩ := executeRequest_wf hu
    intro r hmem
    rw [closeEdge_responses, hresp, List.mem_append, List.mem_singleton] at hmem
    obtain hmem | rfl := hmem
    · exact hwf r hmem
    · exact hp
  · exact hwf

/-- After the first reset and without another, an edge leaves a response on offer only in a non-empty `Q`. -/
theorem step_keeps_offer_nonempty {s t : State} {e : Edge} {rest : List Edge} (hw : s.wasReset = true)
    (hE : s.edges = e :: rest) (hr : e.rst = false) (h : step s = .next t) (ho : t.offered = true) :
    t.queue ≠ [] := by
  obtain ⟨-, hoffered, added, hqueue⟩ := step_response_channel hw hE hr h
  rw [hoffered, settleChannels_offered] at ho
  rw [hqueue, settleChannels_queue]
  split at ho
  · cases ho
  · next hd => simp [hd, rspValid_nonempty hw ho]

/-- After the first reset and without another, an edge keeps the invariant. -/
theorem step_keeps_inv_of_no_reset {s t : State} {e : Edge} {rest : List Edge} (hs : s.Inv) (hw : s.wasReset = true)
    (hE : s.edges = e :: rest) (hr : e.rst = false) (h : step s = .next t) : t.Inv := by
  have hwf := step_keeps_wf hs hw hE hr h
  exact ⟨(step_cfg_edges h).1 ▸ hs.params, step_keeps_room h hs.room, step_keeps_offer_nonempty hw hE hr h,
    fun _ r hmem => hwf r (List.mem_append_right _ hmem), fun r hmem => hwf r (List.mem_append_left _ hmem)⟩

/-- Settles O59: a reset and an edge before the first reset leave nothing on offer and hand over nothing, and any other
edge keeps the invariant by `step_keeps_inv_of_no_reset`. -/
theorem stepKeepsInvariant : Obligations.StepKeepsInvariant := by
  intro s t hs h
  have hroom := step_keeps_room h hs.room
  obtain ⟨-, rfl⟩ | ⟨e, rest, hE, hc⟩ := step_next h
  · exact hs
  obtain ⟨-, rfl⟩ | ⟨-, hw, rfl⟩ | ⟨hr, hw, -⟩ | ⟨hr, hw, -⟩ := hc
  · exact ⟨hs.params, hroom, nofun, fun _ _ hmem => absurd hmem List.not_mem_nil, hs.handed⟩
  · exact ⟨hs.params, hroom, nofun, fun hw' => by simp [hw] at hw', hs.handed⟩
  · exact step_keeps_inv_of_no_reset hs hw hE hr h
  · exact step_keeps_inv_of_no_reset hs hw hE hr h

/-- Settles O57, by induction over the edges. -/
theorem parametersNeverChange : Obligations.ParametersNeverChange := by
  intro n s t h
  suffices hcfg : t.cfg = s.cfg by
    obtain ⟨-, -, -, hs, -⟩ := statusWord_fields s
    obtain ⟨-, -, -, ht, -⟩ := statusWord_fields t
    exact ⟨hcfg, by rw [hs, ht, hcfg]⟩
  induction n generalizing s with
  | zero => rw [next_inj h]
  | succ n ih =>
    obtain ⟨u, hst, hrun⟩ := stepN_succ h
    exact (ih u hrun).trans (step_cfg_edges hst).1

end Sys2Proof.Machine
end

section
/-! PROOF. Runs (60_exceptions.md R122; 70_reset_and_hazards.md R139, R142; 10_state.md R25): an idle host, a host that
takes nothing, and the delivery of the head of `Q`. -/

namespace Sys2Proof.Machine

/-! ## An idle host (60_exceptions.md R122) -/

/-- Without a response transfer the response channel keeps `Q` and the responses handed over. -/
theorem settleChannels_of_not_delivers {s : State} {e : Edge} (hd : s.delivers e = false) :
    (s.settleChannels e).queue = s.queue ∧ (s.settleChannels e).taken = s.taken := by
  simp [settleChannels_queue, settleChannels_taken, hd]

/-- Nothing is handed over to a host that takes nothing. -/
theorem delivers_of_not_taking {s : State} {e : Edge} (h : e.rspReady = false) : s.delivers e = false := by
  simp [State.delivers, h]

/-- Settles O53, by induction on the number of edges: an idle edge only settles the channels, and hands over nothing. -/
theorem idleKeepsState : Obligations.IdleKeepsState := by
  intro n
  induction n with
  | zero => exact fun s _ _ _ => ⟨s, rfl, rfl, rfl, rfl⟩
  | succ n ih =>
    intro s hw hheld hidle
    cases hE : s.edges with
    | nil =>
      obtain ⟨t, ht, hkeep⟩ := ih s hw hheld hidle
      exact ⟨t, by simp [stepN, step, hE, ht], hkeep⟩
    | cons e rest =>
      obtain ⟨hr, hv, hready⟩ := hidle e (by simp [hE])
      have hstep := step_of_no_offer hw hE hr hheld hv
      obtain ⟨hqueue, htaken⟩ := settleChannels_of_not_delivers (s := s) (delivers_of_not_taking hready)
      obtain ⟨t, ht, hstatus, hq, hk⟩ := ih ((s.settleChannels e).closeEdge none rest) (by simpa using hw) rfl
        (fun e' he' => hidle e' (by simp [hE, show e' ∈ rest from he']))
      refine ⟨t, by simp [stepN, hstep, ht], hstatus.trans ?_, hq.trans hqueue, hk.trans htaken⟩
      simp [State.statusWord]

/-! ## A host that takes nothing (70_reset_and_hazards.md R139) -/

/-- What a run to a host that takes nothing does: nothing is handed over, `Q` grows by the requests accepted, within
`DEPTH`, and without one the flags and `Q` stay. -/
structure HeldBack (s t : State) (accepted : List Request) : Prop where
  wasReset : t.wasReset = true
  cfg : t.cfg = s.cfg
  taken : t.taken = s.taken
  length : t.queue.length = s.queue.length + accepted.length
  room : t.queue.length ≤ s.cfg.depth
  still : accepted = [] → t.queue = s.queue ∧ t.nf = s.nf ∧ t.ill = s.ill

/-- One run after another. -/
theorem HeldBack.trans {s t u : State} {as bs : List Request} (h : HeldBack s t as) (h' : HeldBack t u bs) :
    HeldBack s u (as ++ bs) where
  wasReset := h'.wasReset
  cfg := h'.cfg.trans h.cfg
  taken := h'.taken.trans h.taken
  length := by rw [h'.length, h.length, List.length_append, Nat.add_assoc]
  room := h.cfg ▸ h'.room
  still hnil := by
    obtain ⟨rfl, rfl⟩ := List.append_eq_nil_iff.1 hnil
    obtain ⟨hq, hnf, hill⟩ := h.still rfl
    obtain ⟨hq', hnf', hill'⟩ := h'.still rfl
    exact ⟨hq'.trans hq, hnf'.trans hnf, hill'.trans hill⟩

/-- One edge of a host that takes nothing. -/
theorem step_heldBack {s t : State} (hw : s.wasReset = true)
    (hback : ∀ e ∈ s.edges, e.rst = false ∧ e.rspReady = false) (hroom : s.queue.length ≤ s.cfg.depth)
    (h : step s = .next t) : HeldBack s t (acceptedAt s) := by
  cases hE : s.edges with
  | nil =>
    obtain rfl : s = t := next_inj (by simpa [step, hE] using h)
    exact ⟨hw, rfl, rfl, by simp [acceptedAt, hE], hroom, fun _ => ⟨rfl, rfl, rfl⟩⟩
  | cons e rest =>
    obtain ⟨hr, hready⟩ := hback e (by simp [hE])
    obtain ⟨hqueue, htaken⟩ := settleChannels_of_not_delivers (s := s) (delivers_of_not_taking hready)
    have hcfg := (step_cfg_edges h).1
    have hroom' : t.queue.length ≤ s.cfg.depth := hcfg ▸ step_keeps_room h hroom
    obtain ⟨hr', -⟩ | ⟨-, hacc, u, hu, rfl⟩ | ⟨-, hacc, rfl⟩ := edge_cases hw hE h
    · simp [hr] at hr'
    · obtain ⟨_, _, p, -, he⟩ := executeRequest_cases e.req (s.settleChannels e)
      obtain rfl := next_inj (he.symm.trans hu)
      exact ⟨step_wasReset hw h, hcfg, htaken, by simp [hacc, hqueue], hroom', fun hnil => by simp [hacc] at hnil⟩
    · exact ⟨step_wasReset hw h, hcfg, htaken, by simp [hacc, hqueue], hroom',
        fun _ => ⟨hqueue, by simp, by simp⟩⟩

/-- Any number of edges of a host that takes nothing, by induction on their number. -/
theorem stepN_heldBack {n : Nat} {s t : State} (hw : s.wasReset = true)
    (hback : ∀ e ∈ s.edges, e.rst = false ∧ e.rspReady = false) (hroom : s.queue.length ≤ s.cfg.depth)
    (h : stepN n s = .next t) : HeldBack s t (acceptedIn n s) := by
  induction n generalizing s with
  | zero =>
    obtain rfl := next_inj h
    exact ⟨hw, rfl, rfl, rfl, hroom, fun _ => ⟨rfl, rfl, rfl⟩⟩
  | succ n ih =>
    obtain ⟨u, hst, hrun⟩ := stepN_succ h
    have hfirst := step_heldBack hw hback hroom hst
    have hback' : ∀ e ∈ u.edges, e.rst = false ∧ e.rspReady = false := fun e he =>
      hback e (List.mem_of_mem_tail ((step_cfg_edges hst).2 ▸ he))
    rw [acceptedIn_succ hst]
    exact hfirst.trans (ih hfirst.wasReset hback' (hfirst.cfg ▸ hfirst.room) hrun)

/-- Settles O54: `Q` grows by the requests accepted and stays within `DEPTH`, so a full `Q` accepts none. -/
theorem backPressureHangs : Obligations.BackPressureHangs := by
  intro n s t hw hback hroom h
  have hrun := stepN_heldBack hw hback hroom h
  have hlen := hrun.length
  have hmax := hrun.room
  refine ⟨hrun.taken, by omega, fun hfull => ?_⟩
  have hnone : acceptedIn n s = [] := List.eq_nil_of_length_eq_zero (by omega)
  obtain ⟨hq, hnf, hill⟩ := hrun.still hnone
  refine ⟨hq, hnf, hill, hnone, fun e hr => ?_⟩
  simp [reqReady_eq hrun.wasReset hr, State.hasRoom, hq, hrun.cfg, hfull]

/-! ## The delivery of the head of `Q` (10_state.md R25; 70_reset_and_hazards.md R142) -/

/-- An edge erases nothing that was handed over. -/
theorem step_keeps_taken {s t : State} (h : step s = .next t) : ∃ more, t.taken = s.taken ++ more := by
  obtain ⟨-, rfl⟩ | ⟨e, rest, hE, -⟩ := step_next h
  · exact ⟨[], (List.append_nil _).symm⟩
  cases hd : s.delivers e with
  | false => exact ⟨[], (step_taken_of_not_delivers hE hd h).trans (List.append_nil _).symm⟩
  | true =>
    obtain ⟨hw, hr, -⟩ := (delivers_iff s e).1 hd
    obtain ⟨-, htaken | ⟨p, -, htaken⟩⟩ := step_fifo hw hE hr h
    · exact ⟨[], htaken.trans (List.append_nil _).symm⟩
    · exact ⟨[p], htaken⟩

/-- A run erases nothing that was handed over. -/
theorem stepN_keeps_taken {n : Nat} {s t : State} (h : stepN n s = .next t) :
    ∃ more, t.taken = s.taken ++ more := by
  induction n generalizing s with
  | zero => exact ⟨[], by rw [next_inj h, List.append_nil]⟩
  | succ n ih =>
    obtain ⟨u, hst, hrun⟩ := stepN_succ h
    obtain ⟨p, hp⟩ := step_keeps_taken hst
    obtain ⟨q, hq⟩ := ih hrun
    exact ⟨p ++ q, by rw [hq, hp, List.append_assoc]⟩

/-- The response p was handed over next after those of before, and perhaps more behind it. -/
def HandedNext (s t : State) (p : Response) : Prop := ∃ more, t.taken = s.taken ++ p :: more

/-- What is handed over at the first edge stays handed over. -/
theorem handedNext_of_step {n : Nat} {s t u : State} {p : Response} (h : t.taken = s.taken ++ [p])
    (hrun : stepN n t = .next u) : HandedNext s u p := by
  obtain ⟨more, hmore⟩ := stepN_keeps_taken hrun
  exact ⟨more, by rw [hmore, h, List.append_assoc]; rfl⟩

/-- After the first reset and without another, an edge leaves the wait for `rsp_valid` that the response channel
leaves. -/
theorem step_offerWithin {s t : State} {e : Edge} {rest : List Edge} (hw : s.wasReset = true)
    (hE : s.edges = e :: rest) (hr : e.rst = false) (h : step s = .next t) :
    t.offerWithin = s.nextOfferWithin e := by
  obtain ⟨hr', -⟩ | ⟨-, -, u, hu, rfl⟩ | ⟨-, -, rfl⟩ := edge_cases hw hE h
  · simp [hr] at hr'
  · obtain ⟨_, _, _, -, he⟩ := executeRequest_cases e.req (s.settleChannels e)
    rw [← next_inj (he.symm.trans hu)]
    rfl
  · rfl

/-- At an edge of a host that takes, the head of `Q` is handed over, or it stays the head and one edge of its delay
is used up. -/
theorem step_delivers_or_delays {s t : State} {e : Edge} {rest : List Edge} {p : Response} {q : List Response}
    (hw : s.wasReset = true) (hE : s.edges = e :: rest) (hq : s.queue = p :: q) (hr : e.rst = false)
    (hready : e.rspReady = true) (h : step s = .next t) :
    t.taken = s.taken ++ [p] ∨
    (e.blockOffer = false ∧ 0 < s.offerBound e ∧ t.taken = s.taken ∧ t.offerWithin = some (s.offerBound e - 1) ∧
      ∃ q', t.queue = p :: q') := by
  cases hd : s.delivers e with
  | true => exact .inl (step_hands_over_head hw hE hr hq hd h).1
  | false =>
    have hne : s.queue ≠ [] := by simp [hq]
    have hv : s.rspValid e = false := by simpa [State.delivers, hw, hready] using hd
    obtain ⟨hpos, hnext⟩ := offerBound_countdown hw hr hne hready hv
    have hoffer : e.blockOffer = false := by
      by_contra hb
      have hdel := (delivers_iff s e).2 ⟨hw, hr, hne, .inr (.inl (by simpa using hb)), hready⟩
      simp [hd] at hdel
    obtain ⟨-, -, added, hqueue⟩ := step_response_channel hw hE hr h
    refine .inr ⟨hoffer, hpos, step_taken_of_not_delivers hE hd h, (step_offerWithin hw hE hr h).trans hnext,
      q ++ added, ?_⟩
    rw [hqueue, (settleChannels_of_not_delivers hd).1, hq]
    rfl

/-- The head of `Q` is handed over by the first edge at which the block offers it, by induction on the edges before
it. -/
theorem handedNext_at_offer {before rest : List Edge} {e : Edge} {s t : State} {p : Response} {q : List Response}
    (hw : s.wasReset = true) (hE : s.edges = before ++ e :: rest) (hq : s.queue = p :: q)
    (htakes : ∀ e' ∈ before ++ [e], e'.rst = false ∧ e'.rspReady = true) (hoffer : e.blockOffer = true)
    (h : stepN (before.length + 1) s = .next t) : HandedNext s t p := by
  induction before generalizing s q with
  | nil =>
    obtain ⟨u, hst, hrun⟩ := stepN_succ h
    obtain ⟨hr, hready⟩ := htakes e (by simp)
    obtain htaken | ⟨hno, -⟩ := step_delivers_or_delays hw hE hq hr hready hst
    · exact handedNext_of_step htaken hrun
    · simp [hoffer] at hno
  | cons e₀ before ih =>
    obtain ⟨u, hst, hrun⟩ := stepN_succ h
    obtain ⟨hr, hready⟩ := htakes e₀ (by simp)
    obtain htaken | ⟨-, -, htaken, -, q', hq'⟩ := step_delivers_or_delays hw hE hq hr hready hst
    · exact handedNext_of_step htaken hrun
    · have hE' : u.edges = before ++ e :: rest := by simp [(step_cfg_edges hst).2, hE]
      rw [HandedNext, ← htaken]
      exact ih (step_wasReset hw hst) hE' hq' (fun e' he' => htakes e' (List.mem_cons_of_mem _ he')) hrun

/-- The head of `Q` is handed over within the bound of its delay, by induction on the bound. -/
theorem handedNext_within {n : Nat} {e : Edge} {rest : List Edge} {s t : State} {p : Response} {q : List Response}
    (hw : s.wasReset = true) (hE : s.edges = e :: rest) (hq : s.queue = p :: q) (hn : s.offerBound e = n)
    (hlen : n < s.edges.length) (htakes : ∀ e' ∈ s.edges.take (n + 1), e'.rst = false ∧ e'.rspReady = true)
    (h : stepN (n + 1) s = .next t) : HandedNext s t p := by
  induction n generalizing s e rest q with
  | zero =>
    obtain ⟨u, hst, hrun⟩ := stepN_succ h
    obtain ⟨hr, hready⟩ := htakes e (by simp [hE])
    obtain htaken | ⟨-, hpos, -⟩ := step_delivers_or_delays hw hE hq hr hready hst
    · exact handedNext_of_step htaken hrun
    · omega
  | succ n ih =>
    obtain ⟨u, hst, hrun⟩ := stepN_succ h
    obtain ⟨hr, hready⟩ := htakes e (by simp [hE])
    obtain htaken | ⟨-, -, htaken, hwithin, q', hq'⟩ := step_delivers_or_delays hw hE hq hr hready hst
    · exact handedNext_of_step htaken hrun
    · have hrest : u.edges = rest := by simp [(step_cfg_edges hst).2, hE]
      have hlen' : n < u.edges.length := by simpa [hrest, hE] using hlen
      obtain ⟨e', rest', hE'⟩ := List.exists_cons_of_length_pos (Nat.zero_lt_of_lt hlen')
      have htakes' : ∀ e'' ∈ u.edges.take (n + 1), e''.rst = false ∧ e''.rspReady = true := fun e'' he'' =>
        htakes e'' (by rw [hE, List.take_succ_cons, ← hrest]; exact List.mem_cons_of_mem _ he'')
      rw [HandedNext, ← htaken]
      exact ih (step_wasReset hw hst) hE' hq' (by rw [State.offerBound, hwithin, hn]; rfl) hlen' htakes' hrun

/-- While edges of its delay are left the block may offer nothing, and after one of them there is one less. -/
theorem offerBound_waitEdge {s : State} {m n : Nat} (hw : s.wasReset = true) (ho : s.offered = false)
    (hm : m + 1 ≤ n) (hb : m + 1 ≤ s.offerBound (waitEdge n)) (held : Option Request) (rest : List Edge) :
    s.rspValid (waitEdge n) = false ∧
      m ≤ ((s.settleChannels (waitEdge n)).closeEdge held rest).offerBound (waitEdge n) := by
  have hvalid : s.rspValid (waitEdge n) = false := by
    have hpos : s.offerBound (waitEdge n) ≠ 0 := by omega
    simp [rspValid_eq hw (e := waitEdge n) rfl, ho, hpos, show (waitEdge n).blockOffer = false from rfl]
  refine ⟨hvalid, ?_⟩
  simp only [State.offerBound, closeEdge_offerWithin, settleChannels_offerWithin, State.nextOfferWithin, hvalid]
  split
  · exact Nat.le_sub_one_of_lt hb
  · exact Nat.le_of_succ_le hm

/-- A run of waiting edges hands over nothing, by induction on their number. -/
theorem taken_of_waiting {m n : Nat} {s : State} (hw : s.wasReset = true) (hheld : s.held = none)
    (ho : s.offered = false) (hE : s.edges = List.replicate m (waitEdge n)) (hm : m ≤ n)
    (hb : m ≤ s.offerBound (waitEdge n)) : ∃ t, stepN m s = .next t ∧ t.taken = s.taken := by
  induction m generalizing s with
  | zero => exact ⟨s, rfl, rfl⟩
  | succ m ih =>
    have hstep := step_of_no_offer hw hE rfl hheld rfl
    obtain ⟨hvalid, hb'⟩ := offerBound_waitEdge hw ho hm hb none (List.replicate m (waitEdge n))
    have hd : s.delivers (waitEdge n) = false := by simp [State.delivers, hvalid]
    have ho' : (s.settleChannels (waitEdge n)).offered = false := by simp [settleChannels_offered, hvalid]
    obtain ⟨t, ht, htaken⟩ := ih (s := (s.settleChannels (waitEdge n)).closeEdge none _) (by simpa using hw) rfl ho'
      rfl (Nat.le_of_succ_le hm) hb'
    exact ⟨t, by simp [stepN, hstep, ht], htaken.trans (settleChannels_of_not_delivers hd).2⟩

/-- Settles O55: the head goes by the offer and within the bound, and as many waiting edges as asked for hand over
nothing. -/
theorem deliveryComes : Obligations.DeliveryComes := by
  refine ⟨fun s t before e rest p q hw hE hq htakes hoffer h => handedNext_at_offer hw hE hq htakes hoffer h,
    fun s t e rest p q hw hE hq hlen htakes h => handedNext_within hw hE hq rfl hlen htakes h,
    fun s n hw hheld ho hwithin => ⟨List.replicate n (waitEdge n), List.length_replicate, fun e he => ?_, ?_⟩⟩
  · rw [List.eq_of_mem_replicate he]
    exact ⟨rfl, rfl⟩
  · refine taken_of_waiting (s := { s with edges := List.replicate n (waitEdge n) }) hw hheld ho rfl le_rfl ?_
    simp [State.offerBound, hwithin, waitEdge]

end Sys2Proof.Machine
end

section
/-! PROOF. The arithmetic of the lanes (00_scope.md R6; 40_sine.md R73, R74, R81, R84, R89; 20_memory.md R32): the four
roundings and the sign of a zero, the sine under the reduction, large angles, odd and periodic lanes, and the
listing. -/

namespace Sys2Proof.Machine

/-! ## Rounding (00_scope.md R6) -/

/-- Settles O20: each operation rounds its exact result. -/
theorem roundingIsNearestEven : Obligations.RoundingIsNearestEven :=
  ⟨fun _ _ _ _ h => rneSum_nearest h, fun _ _ _ _ h => rneDiff_nearest h, fun _ _ _ hd _ h => rneScale_nearest hd h,
    fun _ _ _ _ h0 h => rneQuot_nearest h0 h⟩

/-- A sum of exact value 0 is a zero, negative only when both operands are. -/
theorem rneSum_of_sum_zero {a b : Word} (h : valQ a + valQ b = 0) :
    rneSum a b = withSign (signBit a && signBit b) 0 := by
  have hu : ((units a + units b : ℤ) : ℚ) = 0 := by
    rw [← units_valQ, ← units_valQ] at h
    push_cast
    linarith
  rw [rneSum, if_pos (by exact_mod_cast hu)]

/-- Settles O21: a zero sum by `rneSum_of_sum_zero`, and a product and a quotient by the sign they are given. -/
theorem zeroResultSigns : Obligations.ZeroResultSigns := by
  refine ⟨fun a b _ _ h hs => ?_, fun a b ha hb _ _ hs => ?_, fun num den b _ => signBit_withSign _ _,
    fun a b _ => signBit_withSign _ _⟩
  · have hpos : (signBit a && signBit b) = false := by
      cases ha : signBit a <;> cases hb : signBit b <;> simp_all
    rw [rneSum_of_sum_zero h, hpos]
    decide
  · rw [rneSum_of_sum_zero (by rw [ha, hb, add_zero]), ← hs, Bool.and_self]

/-! ## The sine under the reduction (40_sine.md R73, R74) -/

/-- The half-period and the place in it of twice a magnitude: the floor and the fraction of `2 |val(w)|`. -/
theorem floor_fract_two_abs (w : Word) :
    ⌊2 * |valQ w|⌋ = ((mag w / 2 ^ 148 : ℕ) : ℤ) ∧
      Int.fract (2 * |valQ w|) = ((mag w % 2 ^ 148 : ℕ) : ℚ) / 2 ^ 148 := by
  have hfloor : ⌊2 * |valQ w|⌋ = ((mag w / 2 ^ 148 : ℕ) : ℤ) := by rw [two_mul_abs_valQ, floor_div]
  refine ⟨hfloor, ?_⟩
  rw [Int.fract, hfloor, two_mul_abs_valQ, Int.cast_natCast, sub_floor _ _ (by positivity)]
  push_cast
  rfl

/-- A word is its sign times its magnitude. -/
theorem valQ_eq_sign_abs (w : Word) : valQ w = (if signBit w then -1 else 1) * |valQ w| := by
  rw [abs_valQ]
  exact valQ_eq w

/-- A sign leaves the sine as a factor. -/
theorem sin_sign_mul (s : Bool) (x : ℝ) :
    Real.sin ((if s then -1 else 1) * x) = (if s then -1 else 1) * Real.sin x := by
  cases s <;> simp

/-- k half-periods change the sign of the sine as the parity of k says. -/
theorem sin_add_half_periods (x : ℝ) (k : ℕ) :
    Real.sin (x + k * Real.pi) = (if decide (k % 2 = 1) then -1 else 1) * Real.sin x := by
  rw [Real.sin_add_nat_mul_pi]
  rcases Nat.even_or_odd k with h | h
  · simp [h.neg_one_pow, Nat.even_iff.1 h]
  · simp [h.neg_one_pow, Nat.odd_iff.1 h]

/-- Settles O24: the angle is its sign times k half-periods and the rest, and k has the parity q. -/
theorem reductionKeepsSine : Obligations.ReductionKeepsSine := by
  intro w _
  obtain ⟨hfloor, -⟩ := floor_fract_two_abs w
  have habs : (|valQ w| : ℚ) * 2 = Int.fract (2 * |valQ w|) + (mag w / 2 ^ 148 : ℕ) := by
    rw [← Int.cast_natCast (mag w / 2 ^ 148), ← hfloor, Int.fract_add_floor, mul_comm]
  have hangle : 2 * Real.pi * (valQ w : ℝ) = (if signBit w then -1 else 1) *
      (Real.pi * (Int.fract (2 * |valQ w|) : ℚ) + (mag w / 2 ^ 148 : ℕ) * Real.pi) := by
    have habsR : ((|valQ w| : ℚ) : ℝ) * 2 = (Int.fract (2 * |valQ w|) : ℚ) + ((mag w / 2 ^ 148 : ℕ) : ℝ) := by
      exact_mod_cast congrArg (Rat.cast : ℚ → ℝ) habs
    have hsign : (valQ w : ℝ) = (if signBit w then -1 else 1) * ((|valQ w| : ℚ) : ℝ) := by
      refine (congrArg (Rat.cast : ℚ → ℝ) (valQ_eq_sign_abs w)).trans ?_
      rw [Rat.cast_mul]
      cases signBit w <;> simp
    rw [hsign]
    linear_combination Real.pi * (if signBit w then -1 else 1) * habsR
  rw [hangle, sin_sign_mul, sin_add_half_periods, ← mul_assoc]
  congr 1
  change _ = if (signBit w ^^ decide (mag w / 2 ^ 148 % 2 = 1)) then _ else _
  cases signBit w <;> cases decide (mag w / 2 ^ 148 % 2 = 1) <;> simp

/-! ## Large angles (40_sine.md R81, R84) -/

/-- A magnitude of at least 2^22 is a whole number of half-periods: its significand has 24 bits. -/
theorem dvd_mag_of_large {w : Word} (h : 2 ^ 22 ≤ |valQ w|) : 2 ^ 148 ∣ mag w := by
  obtain ⟨M, s, hM, hlt, -, -⟩ := mag_split w
  have hmag : 2 ^ 22 * 2 ^ 149 ≤ mag w := by
    rw [abs_valQ, le_div_iff₀ (by positivity)] at h
    exact_mod_cast h
  have hs : 148 ≤ s := by
    by_contra hc
    have h1 : mag w < 2 ^ 24 * 2 ^ 147 := by
      rw [hM]
      exact Nat.mul_lt_mul_of_lt_of_le hlt (Nat.pow_le_pow_right (by norm_num) (by omega)) (by positivity)
    norm_num at h1 hmag
    omega
  exact hM ▸ (pow_dvd_pow 2 hs).mul_left M

/-- A turns word of at least 2^22 gives a zero, signed by s and the parity of its half-period. -/
theorem sintLane_large {w : Word} (hw : isFinite w = true) (h : 2 ^ 22 ≤ |valQ w|) :
    (sintLane w).y = withSign (signBit w ^^ decide (⌊2 * |valQ w|⌋ % 2 = 1)) 0 := by
  obtain ⟨k, hk⟩ := dvd_mag_of_large h
  have hfloor : ⌊2 * |valQ w|⌋ = k := by
    rw [(floor_fract_two_abs w).1, hk, Nat.mul_div_cancel_left _ (by positivity)]
  have hgrid : |valQ w| = ((1024 * k : ℕ) : ℚ) / 2048 := by
    rw [abs_valQ, hk]
    push_cast
    ring
  rw [(gridPointsAreExact.1 w (1024 * k) hw hgrid).2, hfloor, Nat.mul_div_cancel_left _ (by norm_num),
    Nat.mul_mod_right]
  congr 2
  exact decide_eq_decide.2 (by omega)

/-- The radian lane is the turns lane on the quotient. -/
theorem sinLane_eq {w : Word} (hw : isFinite w = true) : sinLane w = sintLane (radianToTurns w) := if_pos hw

/-- Settles O30: the turns lane by `sintLane_large`, and the radian lane by it on the quotient. -/
theorem largeAnglesGiveZero : Obligations.LargeAnglesGiveZero := by
  refine ⟨fun w hw h => sintLane_large hw h, fun w hw h => ?_⟩
  rw [sinLane_eq hw, sintLane_large (radianToTurns_finite hw) h, withSign_zero]
  split
  · exact .inr rfl
  · exact .inl rfl

/-! ## Odd and periodic lanes (40_sine.md R89) -/

/-- The sign alone is flipped by a negation. -/
theorem negate_withSign (s : Bool) (m : BitVec 31) : negate (withSign s m) = withSign (!s) m :=
  word_ext (by simp) (by simp)

/-- The turns lane is odd: the magnitude and all that follows from it stay. -/
theorem turnsValue_negate (w : Word) : turnsValue (negate w) = negate (turnsValue w) := by
  simp [turnsValue, negate_withSign]

/-- The quotient is odd. -/
theorem radianToTurns_negate (w : Word) : radianToTurns (negate w) = negate (radianToTurns w) := by
  simp [radianToTurns, rneQuot, negate_withSign]

/-- The turns lane is odd on finite words. -/
theorem sintLane_negate {w : Word} (hw : isFinite w = true) : (sintLane (negate w)).y = negate (sintLane w).y := by
  rw [sintLane_y hw, sintLane_y ((isFinite_negate w).trans hw), turnsValue_negate]

/-- Settles O31: both lanes by their parts. -/
theorem laneFunctionsAreOdd : Obligations.LaneFunctionsAreOdd := by
  refine fun w hw => ⟨sintLane_negate hw, ?_⟩
  change (sinLane (negate w)).y = negate (sinLane w).y
  rw [sinLane_eq hw, sinLane_eq ((isFinite_negate w).trans hw), radianToTurns_negate,
    sintLane_negate (radianToTurns_finite hw)]

/-- j half-periods more change the parity alone. -/
theorem reduceMag_add (a j : Nat) : reduceMag (a + j * 2 ^ 148) =
    { reduceMag a with q := (reduceMag a).q ^^ decide (j % 2 = 1) } := by
  have hq : decide ((a / 2 ^ 148 + j) % 2 = 1) = (decide (a / 2 ^ 148 % 2 = 1) ^^ decide (j % 2 = 1)) := by
    generalize a / 2 ^ 148 = k
    rcases Nat.mod_two_eq_zero_or_one k with hk | hk <;> rcases Nat.mod_two_eq_zero_or_one j with hj | hj <;>
      simp [Nat.add_mod, hk, hj]
  simp only [reduceMag, Nat.add_mul_mod_self_right, Nat.add_mul_div_right _ _ (show 0 < 2 ^ 148 by positivity), hq]

/-- A word that lies j half-periods, j positive, above a word of sign bit 0 has sign bit 0 too, and their magnitudes
differ by j half-periods. -/
theorem mag_of_half_periods {v w : Word} {j : Nat} (hj : 0 < j) (hs : signBit w = false)
    (h : valQ v = valQ w + (j : ℚ) / 2) : signBit v = false ∧ mag v = mag w + j * 2 ^ 148 := by
  have hw := valQ_of_pos hs
  have hjQ : (0 : ℚ) < j := by exact_mod_cast hj
  have hpos : 0 < valQ v := by
    rw [h, hw]
    positivity
  have hv : signBit v = false := by
    by_contra hc
    rw [valQ_eq, if_pos (by simpa using hc)] at hpos
    have : (0 : ℚ) ≤ (mag v : ℚ) / 2 ^ 149 := by positivity
    linarith
  refine ⟨hv, ?_⟩
  rw [valQ_of_pos hv, hw, div_add_div _ _ (by positivity) (by norm_num), div_eq_div_iff (by positivity) (by positivity)]
    at h
  have hQ : (mag v : ℚ) = ((mag w + j * 2 ^ 148 : ℕ) : ℚ) := by
    push_cast
    linarith
  exact_mod_cast hQ

/-- j half-periods above a word of sign bit 0, j positive, the turns lane changes its sign as the parity of j says. -/
theorem sintLane_half_periods {v w : Word} {j : Nat} (hj : 0 < j) (hw : isFinite w = true) (hv : isFinite v = true)
    (hs : signBit w = false) (h : valQ v = valQ w + (j : ℚ) / 2) :
    (sintLane v).y = if decide (j % 2 = 1) then negate (sintLane w).y else (sintLane w).y := by
  obtain ⟨hsv, hmag⟩ := mag_of_half_periods hj hs h
  rw [sintLane_y hv, sintLane_y hw, turnsValue, turnsValue, hmag, reduceMag_add, hsv, hs]
  cases decide (j % 2 = 1) <;> simp [negate_withSign]

/-- Settles O32: a period is two half-periods. -/
theorem turnsFunctionIsPeriodic : Obligations.TurnsFunctionIsPeriodic := by
  refine fun w v hw hv hs => ⟨fun h => ?_, fun h => ?_⟩
  · exact sintLane_half_periods (j := 2) (by norm_num) hw hv hs (by rw [h]; norm_num)
  · exact sintLane_half_periods (j := 1) (by norm_num) hw hv hs (by rw [h]; norm_num)

/-! ## The listing (20_memory.md R32) -/

/-- The first half of the listing does not decrease. -/
theorem rom_codes_monotone : ∀ i < 512, (lowBits (rom i)).toNat ≤ (lowBits (rom (i + 1))).toNat := by decide +kernel

/-- Every entry between the ends is normal: its exponent field is not 0. -/
theorem rom_normal : ∀ i < 1023, 2 ^ 23 ≤ (lowBits (rom (i + 1))).toNat := by decide +kernel

/-- The words of the listing, added up. -/
theorem rom_sum : ((List.range 1025).foldl (fun acc i => acc + (rom i).toNat) 0) % 2 ^ 32 = 0xACD1EC76 := by
  decide +kernel

/-- Values of entries are in the order of their codes. -/
theorem valQ_rom_le {i j : Nat} (hi : i < 1025) (hj : j < 1025)
    (h : (lowBits (rom i)).toNat ≤ (lowBits (rom j)).toNat) : valQ (rom i) ≤ valQ (rom j) := by
  rw [valQ_rom hi, valQ_rom hj, div_le_div_iff_of_pos_right (by positivity), Nat.cast_le, mag_eq_codeMag,
    mag_eq_codeMag, codeMag_le_iff]
  exact h

end Sys2Proof.Machine

namespace Sys2Proof.Trig

open Machine

/-- Settles O34: the second half mirrors the first. -/
theorem romListingProperties : Obligations.RomListingProperties := by
  refine ⟨fun i hi => (rom_mirror i (by omega)).symm, by decide, by decide, by decide, by decide, by decide,
    fun i hi => ⟨(rom_facts i (by omega)).1, valQ_rom_bounds (by omega)⟩, fun i hi => ?_, fun i h1 h2 => ?_,
    fun i h1 h2 => ⟨?_, isFinite_rom (by omega)⟩, rom_sum⟩
  · exact valQ_rom_le (by omega) (by omega) (rom_codes_monotone i hi)
  · rw [← rom_mirror i (by omega), ← rom_mirror (i + 1) (by omega), show 1024 - i = 1024 - (i + 1) + 1 by omega]
    exact valQ_rom_le (by omega) (by omega) (rom_codes_monotone _ (by omega))
  · obtain ⟨j, rfl⟩ := Nat.exists_eq_add_of_le' h1
    have hnormal := rom_normal j (by omega)
    intro h0
    have hexp := expField_eq (rom (j + 1))
    rw [h0, show (0 : BitVec 8).toNat = 0 from rfl] at hexp
    omega

end Sys2Proof.Trig
end

section
/-! PROOF. The accuracy of the lanes (40_sine.md R88): the error of the turns lane from the listing, the linear
interpolation and its two roundings, and that of the radian lane from the quotient and from `TAU_F32`. -/

namespace Sys2Proof.Trig

open Machine

/-! ## The listing -/

/-- A value in the unit interval has a word within 2^-25: the multiples of 2^-24 there are words. -/
theorem exists_word_near {x : ℝ} (h0 : 0 ≤ x) (h1 : x ≤ 1) :
    ∃ v : Word, isFinite v = true ∧ |(valQ v : ℝ) - x| ≤ 1 / 2 ^ 25 := by
  have hlo := Nat.floor_le (show 0 ≤ x * 2 ^ 24 + 1 / 2 by positivity)
  have hhi := Nat.lt_floor_add_one (x * 2 ^ 24 + 1 / 2)
  set k := ⌊x * 2 ^ 24 + 1 / 2⌋₊
  have hk : k ≤ 2 ^ 24 := by
    have : (k : ℝ) < ((2 ^ 24 + 1 : ℕ) : ℝ) := by push_cast; linarith
    exact Nat.lt_succ_iff.1 (by exact_mod_cast this)
  obtain ⟨v, hv, hval⟩ := exists_signed (m := k) (b := 125) false hk
    ((Nat.mul_le_mul_right _ hk).trans (by norm_num))
  refine ⟨v, hv, ?_⟩
  have hvalR : (valQ v : ℝ) = k / 2 ^ 24 := by
    rw [hval]
    push_cast
    norm_num
    ring
  rw [hvalR, abs_le]
  constructor <;> linarith

/-- Every entry is within 2^-25 of its sine (20_memory.md R31). -/
theorem rom_error {i : ℕ} (hi : i ≤ 1024) :
    |(valQ (rom i) : ℝ) - Real.sin (i * Real.pi / 1024)| ≤ 1 / 2 ^ 25 := by
  obtain ⟨hfirst, hlast, hnear⟩ := romHoldsTheSine
  have hzero : valQ 0x00000000 = 0 := (valQ_eq_zero _).2 (by decide)
  rcases Nat.eq_zero_or_pos i with rfl | hpos
  · rw [hfirst, hzero]
    simp
  rcases hi.eq_or_lt with rfl | hlt
  · rw [hlast, hzero, Nat.cast_ofNat, mul_div_cancel_left₀ _ (by norm_num), Real.sin_pi]
    simp
  have hiR : (i : ℝ) ≤ 1024 := by exact_mod_cast hi
  have hsin : 0 ≤ Real.sin (i * Real.pi / 1024) :=
    Real.sin_nonneg_of_nonneg_of_le_pi (by positivity) (by nlinarith [Real.pi_pos])
  obtain ⟨v, hv, herr⟩ := exists_word_near hsin (Real.sin_le_one _)
  by_cases heq : valQ v = valQ (rom i)
  · rwa [← heq]
  · exact ((hnear i hpos (by omega)).2 v hv heq).le.trans herr

/-! ## The interpolation -/

/-- A rational distance, over the reals. -/
theorem cast_abs_sub_le {a b ε : ℚ} (h : |a - b| ≤ ε) : |(a : ℝ) - (b : ℝ)| ≤ (ε : ℝ) := by exact_mod_cast h

section Interpolation
variable {i frac : ℕ}

/-- Neighbouring entries differ by at most 2^-6. -/
theorem abs_interpolate_d_small (hi : i ≤ 1023) : |valQ (interpolate i frac).d| ≤ 1 / 2 ^ 6 := by
  have hlo := rom_error (i := i) (by omega)
  have hhi := rom_error (i := i + 1) (by omega)
  have hsin := Real.abs_sin_sub_sin_le ((i + 1 : ℕ) * Real.pi / 1024) (i * Real.pi / 1024)
  rw [show (i + 1 : ℕ) * Real.pi / 1024 - i * Real.pi / 1024 = Real.pi / 1024 by push_cast; ring,
    abs_of_pos (show 0 < Real.pi / 1024 by positivity)] at hsin
  have hpi := Real.pi_lt_four
  have hR : |(valQ (rom (i + 1)) : ℝ) - valQ (rom i)| ≤ 1 / 2 ^ 6 := by
    rw [abs_le] at *
    constructor <;> linarith
  rw [valQ_interpolate_d hi, ← Rat.cast_le (K := ℝ)]
  push_cast
  exact hR

/-- The product lies between 0 and the difference. -/
theorem interpolate_m_between (hi : i ≤ 1023) (hf : frac < 2 ^ 138) :
    (0 ≤ valQ (interpolate i frac).m ∧ valQ (interpolate i frac).m ≤ valQ (interpolate i frac).d) ∨
    (valQ (interpolate i frac).d ≤ valQ (interpolate i frac).m ∧ valQ (interpolate i frac).m ≤ 0) := by
  have hle := abs_interpolate_m_le hi hf
  have hsign : signBit (interpolate i frac).m = signBit (interpolate i frac).d := signBit_withSign _ _
  have hm := valQ_eq_sign_abs (interpolate i frac).m
  have hd := valQ_eq_sign_abs (interpolate i frac).d
  have hm0 := abs_nonneg (valQ (interpolate i frac).m)
  rw [hsign] at hm
  cases hs : signBit (interpolate i frac).d with
  | false =>
    simp only [hs, Bool.false_eq_true, if_false, one_mul] at hm hd
    left
    constructor <;> linarith
  | true =>
    simp only [hs, if_true, neg_one_mul] at hm hd
    right
    constructor <;> linarith

/-- The product errs by at most 2^-31: the difference is at most 2^-6. -/
theorem interpolate_m_error (hi : i ≤ 1023) (hf : frac < 2 ^ 138) :
    |valQ (interpolate i frac).m - (frac : ℚ) / 2 ^ 138 * valQ (interpolate i frac).d| ≤ 1 / 2 ^ 31 := by
  refine (nearest_err (interpolate_m_nearest hi hf) 119 (by norm_num) ?_).trans (by norm_num)
  rw [abs_mul, abs_of_nonneg (by positivity)]
  exact (mul_le_of_le_one_left (abs_nonneg _) (frac_div_lt_one hf).le).trans
    ((abs_interpolate_d_small hi).trans (by norm_num))

/-- The sum errs by at most 2^-25: it lies between the two entries, in the unit interval. -/
theorem interpolate_y_error (hi : i ≤ 1023) (hf : frac < 2 ^ 138) :
    |valQ (interpolate i frac).y - (valQ (rom i) + valQ (interpolate i frac).m)| ≤ 1 / 2 ^ 25 := by
  refine (nearest_err (interpolate_y_nearest hi hf) 125 (by norm_num) ?_).trans (by norm_num)
  obtain ⟨hlo0, hlo1⟩ := valQ_rom_bounds (i := i) (by omega)
  obtain ⟨hhi0, hhi1⟩ := valQ_rom_bounds (i := i + 1) (by omega)
  have hd := valQ_interpolate_d (frac := frac) hi
  refine le_trans (abs_le.2 ?_) (show (1 : ℚ) ≤ 2 ^ 24 * (2 ^ 125 / 2 ^ 149) by norm_num)
  obtain ⟨h0, h1⟩ | ⟨h0, h1⟩ := interpolate_m_between hi hf
  · constructor <;> linarith
  · constructor <;> linarith

/-- A weighted mean of two errors is no larger than their bound. -/
theorem abs_mean_le {a b f ε : ℝ} (h0 : 0 ≤ f) (h1 : f ≤ 1) (ha : |a| ≤ ε) (hb : |b| ≤ ε) :
    |(1 - f) * a + f * b| ≤ ε := by
  calc |(1 - f) * a + f * b| ≤ |(1 - f) * a| + |f * b| := abs_add_le _ _
    _ = (1 - f) * |a| + f * |b| := by rw [abs_mul, abs_mul, abs_of_nonneg (sub_nonneg.2 h1), abs_of_nonneg h0]
    _ ≤ (1 - f) * ε + f * ε :=
      add_le_add (mul_le_mul_of_nonneg_left ha (sub_nonneg.2 h1)) (mul_le_mul_of_nonneg_left hb h0)
    _ = ε := by ring

/-- The interpolated word is within 1.24e-6 of the sine: the listing, the linear interpolation and the two roundings
each take their share (40_sine.md R88). -/
theorem interpolate_error (hi : i ≤ 1023) (hf : frac < 2 ^ 138) :
    |(valQ (interpolate i frac).y : ℝ) - Real.sin ((i + (frac : ℝ) / 2 ^ 138) * Real.pi / 1024)| ≤ 1.24e-6 := by
  have hf0 : (0 : ℝ) ≤ (frac : ℝ) / 2 ^ 138 := by positivity
  have hf1 : (frac : ℝ) / 2 ^ 138 ≤ 1 := (div_le_one (by positivity)).2 (by exact_mod_cast hf.le)
  have hy := cast_abs_sub_le (interpolate_y_error hi hf)
  have hm := cast_abs_sub_le (interpolate_m_error hi hf)
  rw [valQ_interpolate_d hi] at hm
  push_cast at hy hm
  have hrom := abs_mean_le hf0 hf1 (rom_error (i := i) (by omega)) (rom_error (i := i + 1) (by omega))
  have hlin := interp_err (i * Real.pi / 1024) (Real.pi / 1024) _ hf0 hf1
  have hstep : (Real.pi / 1024) ^ 2 / 8 ≤ 1.1767e-6 := by
    have hpi := Real.pi_lt_d4
    nlinarith [Real.pi_pos]
  rw [show (i : ℝ) * Real.pi / 1024 + Real.pi / 1024 = (i + 1 : ℕ) * Real.pi / 1024 by push_cast; ring,
    show (i : ℝ) * Real.pi / 1024 + (frac : ℝ) / 2 ^ 138 * (Real.pi / 1024) =
      (i + (frac : ℝ) / 2 ^ 138) * Real.pi / 1024 by ring] at hlin
  rw [abs_le] at *
  constructor <;> linarith

end Interpolation

/-! ## The turns lane -/

/-- The result of the turns lane is the sign times the interpolated word. -/
theorem valQ_turnsValue (w : Word) : valQ (turnsValue w) = (if (signBit w ^^ (reduceMag (mag w)).q) then -1 else 1) *
    valQ (interpolate (reduceMag (mag w)).i (reduceMag (mag w)).frac).y := by
  rw [turnsValue, valQ_withSign, valQ_of_pos (interpolate_reduce_bounds (mag w)).1, ← mag_eq_codeMag]

/-- The place in the half-period, from the table index and the fraction (40_sine.md R75). -/
theorem fract_eq_index (w : Word) : Int.fract (2 * |valQ w|) =
    ((reduceMag (mag w)).i + ((reduceMag (mag w)).frac : ℚ) / 2 ^ 138) / 1024 := by
  have hsplit : ((2 ^ 138 * (mag w % 2 ^ 148 / 2 ^ 138) + mag w % 2 ^ 148 % 2 ^ 138 : ℕ) : ℚ) =
      (mag w % 2 ^ 148 : ℕ) := by rw [Nat.div_add_mod]
  rw [(floor_fract_two_abs w).2, ← hsplit]
  simp only [reduceMag]
  push_cast
  ring

/-- The turns lane is within 1.24e-6 of the sine (40_sine.md R88). -/
theorem sintLane_error {w : Word} (hw : isFinite w = true) :
    |(valQ (sintLane w).y : ℝ) - Real.sin (2 * Real.pi * (valQ w : ℝ))| ≤ 1.24e-6 := by
  have herr := interpolate_error (Nat.le_of_lt_succ (reduceMag_i_lt (mag w))) (reduceMag_frac_lt (mag w))
  have hangle : Real.pi * ((Int.fract (2 * |valQ w|) : ℚ) : ℝ) =
      ((reduceMag (mag w)).i + ((reduceMag (mag w)).frac : ℝ) / 2 ^ 138) * Real.pi / 1024 := by
    rw [fract_eq_index]
    push_cast
    ring
  rw [reductionKeepsSine w hw, hangle, sintLane_y hw, valQ_turnsValue]
  cases (signBit w ^^ (reduceMag (mag w)).q) with
  | false => simpa using herr
  | true =>
    rw [abs_sub_comm] at herr
    simpa [neg_add_eq_sub] using herr

/-! ## The radian lane -/

/-- The value of `TAU_F32` (00_scope.md R8). -/
theorem valQ_tau : valQ tauF32 = 13176795 / 2 ^ 21 := by
  rw [valQ_of_pos (by decide), mag_tau]
  norm_num

/-- `TAU_F32` is above 2π, by 2.783e-8 of itself at most. -/
theorem tau_close : 2 * Real.pi ≤ valQ tauF32 ∧ (valQ tauF32 : ℝ) - 2 * Real.pi ≤ 2.783e-8 * valQ tauF32 := by
  have hlo := Real.pi_gt_d20
  have hhi := Real.pi_lt_d20
  rw [valQ_tau]
  push_cast
  constructor <;> norm_num at * <;> linarith

/-- An error of the quotient, and `TAU_F32` for 2π, move the angle by little. -/
theorem angle_error {x t τ ε : ℝ} (hτ : 0 < τ) (hle : 2 * Real.pi ≤ τ)
    (hclose : τ - 2 * Real.pi ≤ 2.783e-8 * τ) (ht : |t - x / τ| ≤ ε) :
    |2 * Real.pi * t - x| ≤ 2 * Real.pi * ε + |x| * 2.783e-8 := by
  have hrel : |2 * Real.pi / τ - 1| ≤ 2.783e-8 := by
    rw [abs_of_nonpos (by rw [sub_nonpos, div_le_one hτ]; exact hle), neg_sub, sub_le_iff_le_add,
      ← sub_le_iff_le_add', le_div_iff₀ hτ]
    linarith
  calc |2 * Real.pi * t - x| = |2 * Real.pi * (t - x / τ) + x * (2 * Real.pi / τ - 1)| := by
        congr 1
        field_simp
        ring
    _ ≤ |2 * Real.pi * (t - x / τ)| + |x * (2 * Real.pi / τ - 1)| := abs_add_le _ _
    _ = 2 * Real.pi * |t - x / τ| + |x| * |2 * Real.pi / τ - 1| := by
        rw [abs_mul _ (t - x / τ), abs_mul x, abs_of_pos Real.two_pi_pos]
    _ ≤ 2 * Real.pi * ε + |x| * 2.783e-8 :=
        add_le_add (mul_le_mul_of_nonneg_left ht Real.two_pi_pos.le) (mul_le_mul_of_nonneg_left hrel (abs_nonneg _))

/-- The error of the radian lane, from that of its quotient. -/
theorem sinLane_error {w : Word} (hw : isFinite w = true) {ε : ℚ}
    (ht : |valQ (radianToTurns w) - valQ w / valQ tauF32| ≤ ε) :
    |(valQ (sinLane w).y : ℝ) - Real.sin (valQ w : ℝ)| ≤
      1.24e-6 + 2 * Real.pi * (ε : ℝ) + |(valQ w : ℝ)| * 2.783e-8 := by
  obtain ⟨hle, hclose⟩ := tau_close
  have hτ : (0 : ℝ) < valQ tauF32 := Real.two_pi_pos.trans_le hle
  have htR := cast_abs_sub_le ht
  rw [Rat.cast_div] at htR
  have hturns := sintLane_error (radianToTurns_finite hw)
  have hsin := Real.abs_sin_sub_sin_le (2 * Real.pi * valQ (radianToTurns w)) (valQ w)
  have hangle := angle_error hτ hle hclose htR
  have htri := abs_sub_le (valQ (sintLane (radianToTurns w)).y : ℝ)
    (Real.sin (2 * Real.pi * valQ (radianToTurns w))) (Real.sin (valQ w))
  rw [sinLane_eq hw]
  linarith

/-- The quotient of a finite word is at most 2^126 in magnitude. -/
theorem abs_radianToTurns_le {w : Word} (hw : isFinite w = true) : |valQ (radianToTurns w)| ≤ 2 ^ 126 := by
  have hcode : codeMag (253 * 2 ^ 23) = 2 ^ 126 * 2 ^ 149 := by decide +kernel
  have hle : mag (radianToTurns w) ≤ 2 ^ 126 * 2 ^ 149 := by
    rw [radianToTurns, rneQuot, mag_withSign, ← hcode, codeMag_le_iff]
    refine rneMag_le (by rw [mag_tau]; positivity) (by decide) ?_
    rw [hcode, mag_tau]
    exact (Nat.mul_le_mul_right _ (mag_le_max hw)).trans (by norm_num)
  rw [abs_valQ, div_le_iff₀ (by positivity)]
  exact_mod_cast hle

/-- Settles O36: the turns lane, the radian lane with half a spacing of the quotient, and the radian lane below 8π,
where the quotient is at most 4 and errs by at most 2^-23. -/
theorem sineIsAccurate : Obligations.SineIsAccurate := by
  refine ⟨fun w hw => sintLane_error hw, fun w hw => ?_, fun w hw h8 => ?_⟩
  · have herr := sinLane_error hw (nearest_ulp (radianToTurns_nearest hw) (abs_radianToTurns_le hw))
    push_cast at herr
    exact herr
  · have hquot : |valQ w / valQ tauF32| ≤ 2 ^ 24 * (2 ^ 127 / 2 ^ 149) := by
      have h4 : |(valQ w : ℝ)| ≤ 4 * valQ tauF32 := by linarith [tau_close.1]
      have h4Q : |valQ w| ≤ 4 * |valQ tauF32| := (show |valQ w| ≤ 4 * valQ tauF32 by exact_mod_cast h4).trans
        (mul_le_mul_of_nonneg_left (le_abs_self _) (by norm_num))
      rw [abs_div, div_le_iff₀ (zero_lt_one.trans_le one_le_abs_tau)]
      exact h4Q.trans_eq (by norm_num)
    have herr := sinLane_error hw (nearest_err (radianToTurns_nearest hw) 127 (by norm_num) hquot)
    have hpi := Real.pi_lt_d2
    push_cast at herr
    refine herr.trans ?_
    norm_num at *
    linarith

end Sys2Proof.Trig
end
